-- ==== Sys2Proof/Word.lean ====
section
/-! DEFINITION. The two word types of the machine (00_scope.md R4, R5): 8-bit data and 16-bit addresses. -/

namespace Sys2Proof

/-- `u8` of R5: a value of the data bus or of an 8-bit register (`DATA_WIDTH = 8`). -/
abbrev Byte := BitVec 8

/-- `u16` of R5: an address or the program counter (`ADDR_WIDTH = 16`). -/
abbrev Word := BitVec 16

end Sys2Proof
end

