-- ==== Sys2Proof/Machine/Bits.lean ====
section
/-! DEFINITION. The bit-field notation of 00_scope.md R5: concatenation, the halves of a word, extensions. -/

namespace Sys2Proof

/-- `{h, l}`: a word with `h` in bits 15:8. -/
def cat (h l : Byte) : Word := h ++ l

/-- `w[7:0]`. -/
def loByte (w : Word) : Byte := w.extractLsb' 0 8

/-- `w[15:8]`. -/
def hiByte (w : Word) : Byte := w.extractLsb' 8 8

/-- `zext_16(v)`. -/
def zext16 (v : Byte) : Word := v.setWidth 16

/-- `sext_16(v)`. -/
def sext16 (v : Byte) : Word := v.signExtend 16

/-- The carry out of the 8-bit addition `a + b`: bit 8 of `zext_9(a) + zext_9(b)` (40_engine.md R104). -/
def carryOut (a b : Byte) : Bool := (a.setWidth 9 + b.setWidth 9).getLsbD 8

/-- A relative target (30_encoding.md R72): `next + sext_16(off)` modulo 2^16. -/
def branchTarget (next : Word) (off : Byte) : Word := next + sext16 off

end Sys2Proof
end

