-- ==== Sys2Proof/Syntax.lean ====
section
/-! DEFINITION. The instructions: one constructor per mnemonic of spec/opcode_table.json, its operand form (the table's
format column, 30_encoding.md R71) as its argument where the mnemonic has more than one, and an instruction together
with its operand bytes. -/

namespace Sys2Proof

/-- The sixteen formats of 30_encoding.md R71, by their mode ids. -/
inductive Mode where
  | imp | acc | imm | zp | zpx | zpy | abs | abx | aby | ind | iax | izx | izy | izp | rel | zpr
  deriving DecidableEq, Repr

/-- The modes that form an effective address in memory (40_engine.md R101 to R110). -/
inductive AddrMode where
  | zp | zpx | zpy | abs | abx | aby | izx | izy | izp
  deriving DecidableEq, Repr

/-- The operand of a class R instruction: immediate (R100) or in memory. -/
inductive ReadMode where
  | imm
  | mem (m : AddrMode)
  deriving DecidableEq, Repr

/-- The operand of a shift, rotate, `INC` or `DEC`: the accumulator (R112) or memory (R111). -/
inductive RmwMode where
  | acc
  | mem (m : AddrMode)
  deriving DecidableEq, Repr

/-- The three forms of `JMP` (44_control.md R206 to R208). -/
inductive JmpMode where
  | abs | ind | iax
  deriving DecidableEq, Repr

/-- The instructions of 30_encoding.md R73. `reserved` stands for the 44 rows whose mnemonic the table gives as
RESERVED (R75). The bit number of the four bit families is part of the mnemonic (R74). -/
inductive Instr where
  -- 41_load_store_transfer.md
  | lda (o : ReadMode)
  | ldx (o : ReadMode)
  | ldy (o : ReadMode)
  | sta (m : AddrMode)
  | stx (m : AddrMode)
  | sty (m : AddrMode)
  | stz (m : AddrMode)
  | tax
  | tay
  | txa
  | tya
  | tsx
  | txs
  -- 42_alu.md
  | ora (o : ReadMode)
  | and (o : ReadMode)
  | eor (o : ReadMode)
  | adc (o : ReadMode)
  | sbc (o : ReadMode)
  | cmp (o : ReadMode)
  | cpx (o : ReadMode)
  | cpy (o : ReadMode)
  | bit (o : ReadMode)
  -- 43_rmw_bit.md
  | asl (o : RmwMode)
  | lsr (o : RmwMode)
  | rol (o : RmwMode)
  | ror (o : RmwMode)
  | inc (o : RmwMode)
  | dec (o : RmwMode)
  | inx
  | iny
  | dex
  | dey
  | tsb (m : AddrMode)
  | trb (m : AddrMode)
  | rmb0
  | rmb1
  | rmb2
  | rmb3
  | rmb4
  | rmb5
  | rmb6
  | rmb7
  | smb0
  | smb1
  | smb2
  | smb3
  | smb4
  | smb5
  | smb6
  | smb7
  -- 44_control.md
  | bpl
  | bmi
  | bvc
  | bvs
  | bcc
  | bcs
  | bne
  | beq
  | bra
  | bbr0
  | bbr1
  | bbr2
  | bbr3
  | bbr4
  | bbr5
  | bbr6
  | bbr7
  | bbs0
  | bbs1
  | bbs2
  | bbs3
  | bbs4
  | bbs5
  | bbs6
  | bbs7
  | jmp (m : JmpMode)
  | jsr
  | rts
  -- 45_stack_flags_system.md
  | pha
  | php
  | phx
  | phy
  | pla
  | plp
  | plx
  | ply
  | clc
  | sec
  | cli
  | sei
  | clv
  | cld
  | sed
  | nop
  | brk
  | rti
  | wai
  | stp
  -- 60_exceptions.md R258
  | reserved (opcode : Byte)
  deriving DecidableEq, Repr

/-- The operand bytes that follow an opcode byte (30_encoding.md R70): none, byte 1, or bytes 1 and 2. -/
inductive OperandBytes where
  | none
  | one (b1 : Byte)
  | two (b1 b2 : Byte)
  deriving DecidableEq, Repr

/-- An instruction as it stands in memory (R70): the instruction its opcode byte selects, and its operand bytes. -/
structure Asm where
  instr : Instr
  operand : OperandBytes
  deriving DecidableEq, Repr

end Sys2Proof
end

