-- ==== Sys2Proof/WellFormed.lean ====
section
/-! DEFINITION. Which operand forms each mnemonic has (30_encoding.md R73, the list by mnemonic), which opcode values are
reserved (R75), and how many operand bytes a form takes (R71, R76). -/

namespace Sys2Proof

/-- The 44 reserved opcode values, in the columns of 30_encoding.md R75. -/
def reservedOpcodes : List Byte :=
  [0x02, 0x22, 0x42, 0x62, 0x82, 0xC2, 0xE2]
  ++ [0x03, 0x13, 0x23, 0x33, 0x43, 0x53, 0x63, 0x73, 0x83, 0x93, 0xA3, 0xB3, 0xC3, 0xD3, 0xE3, 0xF3]
  ++ [0x0B, 0x1B, 0x2B, 0x3B, 0x4B, 0x5B, 0x6B, 0x7B, 0x8B, 0x9B, 0xAB, 0xBB, 0xEB, 0xFB]
  ++ [0x44, 0x54, 0xD4, 0xF4]
  ++ [0x5C, 0xDC, 0xFC]

/-- The nine forms that `LDA ORA AND EOR ADC CMP SBC` share (42_alu.md, the forms table). -/
def ReadMode.inNine : ReadMode → Bool
  | .mem .zpy => false
  | _ => true

/-- The forms of `ASL LSR ROL ROR INC DEC` (43_rmw_bit.md R175 to R180). -/
def RmwMode.inFive : RmwMode → Bool
  | .acc | .mem .zp | .mem .zpx | .mem .abs | .mem .abx => true
  | _ => false

/-- `i` has an encoding: its operand form is one of those its mnemonic has (R73), and a reserved opcode is one of R75. -/
def Instr.wf : Instr → Bool
  | .lda o | .ora o | .and o | .eor o | .adc o | .sbc o | .cmp o => o.inNine
  | .ldx o => o ∈ [.imm, .mem .zp, .mem .zpy, .mem .abs, .mem .aby]
  | .ldy o => o ∈ [.imm, .mem .zp, .mem .zpx, .mem .abs, .mem .abx]
  | .cpx o | .cpy o => o ∈ [.imm, .mem .zp, .mem .abs]
  | .bit o => o ∈ [.imm, .mem .zp, .mem .zpx, .mem .abs, .mem .abx]
  | .sta m => m ≠ .zpy
  | .stx m => m ∈ [.zp, .zpy, .abs]
  | .sty m => m ∈ [.zp, .zpx, .abs]
  | .stz m => m ∈ [.zp, .zpx, .abs, .abx]
  | .asl o | .lsr o | .rol o | .ror o | .inc o | .dec o => o.inFive
  | .tsb m | .trb m => m ∈ [.zp, .abs]
  | .reserved b => b ∈ reservedOpcodes
  | _ => true

/-- The mode id of a form that addresses memory. -/
def AddrMode.mode : AddrMode → Mode
  | .zp => .zp | .zpx => .zpx | .zpy => .zpy | .abs => .abs | .abx => .abx | .aby => .aby
  | .izx => .izx | .izy => .izy | .izp => .izp

def ReadMode.mode : ReadMode → Mode
  | .imm => .imm
  | .mem m => m.mode

def RmwMode.mode : RmwMode → Mode
  | .acc => .acc
  | .mem m => m.mode

def JmpMode.mode : JmpMode → Mode
  | .abs => .abs | .ind => .ind | .iax => .iax

/-- The mode id of an instruction (R71, the table's format column); a reserved opcode has none (R76). -/
def Instr.mode : Instr → Option Mode
  | .lda o | .ldx o | .ldy o | .ora o | .and o | .eor o | .adc o | .sbc o | .cmp o | .cpx o | .cpy o | .bit o =>
    some o.mode
  | .sta m | .stx m | .sty m | .stz m | .tsb m | .trb m => some m.mode
  | .asl o | .lsr o | .rol o | .ror o | .inc o | .dec o => some o.mode
  | .rmb0 | .rmb1 | .rmb2 | .rmb3 | .rmb4 | .rmb5 | .rmb6 | .rmb7 => some .zp
  | .smb0 | .smb1 | .smb2 | .smb3 | .smb4 | .smb5 | .smb6 | .smb7 => some .zp
  | .bpl | .bmi | .bvc | .bvs | .bcc | .bcs | .bne | .beq | .bra => some .rel
  | .bbr0 | .bbr1 | .bbr2 | .bbr3 | .bbr4 | .bbr5 | .bbr6 | .bbr7 => some .zpr
  | .bbs0 | .bbs1 | .bbs2 | .bbs3 | .bbs4 | .bbs5 | .bbs6 | .bbs7 => some .zpr
  | .jmp m => some m.mode
  | .jsr => some .abs
  | .tax | .tay | .txa | .tya | .tsx | .txs | .inx | .iny | .dex | .dey | .rts => some .imp
  | .pha | .php | .phx | .phy | .pla | .plp | .plx | .ply => some .imp
  | .clc | .sec | .cli | .sei | .clv | .cld | .sed | .nop | .brk | .rti | .wai | .stp => some .imp
  | .reserved _ => none

/-- The length by mode (R76); `BRK` is one byte here, its second byte being consumed by its own T2 cycle. -/
def Mode.length : Mode → Nat
  | .imp | .acc => 1
  | .imm | .zp | .zpx | .zpy | .izx | .izy | .izp | .rel => 2
  | .abs | .abx | .aby | .ind | .iax | .zpr => 3

/-- How many operand bytes follow the opcode byte; a reserved opcode has no length (R76) and takes none. -/
def Instr.operandCount (i : Instr) : Nat :=
  match i.mode with
  | some m => m.length - 1
  | none => 0

def OperandBytes.count : OperandBytes → Nat
  | .none => 0
  | .one _ => 1
  | .two _ _ => 2

/-- An instruction in memory is well formed: the instruction is, and it has as many operand bytes as its mode takes. -/
def Asm.wf (a : Asm) : Bool :=
  a.instr.wf && a.operand.count == a.instr.operandCount

end Sys2Proof
end

