-- ==== Sys2Proof/Decode.lean ====
section
/-! DEFINITION. The decoder, total on any bytes, written from the opcode matrix of 30_encoding.md R73, and the encoder,
written from that rule's list by mnemonic and from the layouts of 42_alu.md and R74; operand assembly (R72). -/

namespace Sys2Proof

/-- Row 0x of the matrix. -/
def opcodeRow0 : List Instr :=
  [.brk, .ora (.mem .izx), .reserved 0x02, .reserved 0x03, .tsb .zp, .ora (.mem .zp), .asl (.mem .zp), .rmb0,
   .php, .ora .imm, .asl .acc, .reserved 0x0B, .tsb .abs, .ora (.mem .abs), .asl (.mem .abs), .bbr0]

/-- Row 1x of the matrix. -/
def opcodeRow1 : List Instr :=
  [.bpl, .ora (.mem .izy), .ora (.mem .izp), .reserved 0x13, .trb .zp, .ora (.mem .zpx), .asl (.mem .zpx), .rmb1,
   .clc, .ora (.mem .aby), .inc .acc, .reserved 0x1B, .trb .abs, .ora (.mem .abx), .asl (.mem .abx), .bbr1]

/-- Row 2x of the matrix. -/
def opcodeRow2 : List Instr :=
  [.jsr, .and (.mem .izx), .reserved 0x22, .reserved 0x23, .bit (.mem .zp), .and (.mem .zp), .rol (.mem .zp), .rmb2,
   .plp, .and .imm, .rol .acc, .reserved 0x2B, .bit (.mem .abs), .and (.mem .abs), .rol (.mem .abs), .bbr2]

/-- Row 3x of the matrix. -/
def opcodeRow3 : List Instr :=
  [.bmi, .and (.mem .izy), .and (.mem .izp), .reserved 0x33, .bit (.mem .zpx), .and (.mem .zpx), .rol (.mem .zpx), .rmb3,
   .sec, .and (.mem .aby), .dec .acc, .reserved 0x3B, .bit (.mem .abx), .and (.mem .abx), .rol (.mem .abx), .bbr3]

/-- Row 4x of the matrix. -/
def opcodeRow4 : List Instr :=
  [.rti, .eor (.mem .izx), .reserved 0x42, .reserved 0x43, .reserved 0x44, .eor (.mem .zp), .lsr (.mem .zp), .rmb4,
   .pha, .eor .imm, .lsr .acc, .reserved 0x4B, .jmp .abs, .eor (.mem .abs), .lsr (.mem .abs), .bbr4]

/-- Row 5x of the matrix. -/
def opcodeRow5 : List Instr :=
  [.bvc, .eor (.mem .izy), .eor (.mem .izp), .reserved 0x53, .reserved 0x54, .eor (.mem .zpx), .lsr (.mem .zpx), .rmb5,
   .cli, .eor (.mem .aby), .phy, .reserved 0x5B, .reserved 0x5C, .eor (.mem .abx), .lsr (.mem .abx), .bbr5]

/-- Row 6x of the matrix. -/
def opcodeRow6 : List Instr :=
  [.rts, .adc (.mem .izx), .reserved 0x62, .reserved 0x63, .stz .zp, .adc (.mem .zp), .ror (.mem .zp), .rmb6,
   .pla, .adc .imm, .ror .acc, .reserved 0x6B, .jmp .ind, .adc (.mem .abs), .ror (.mem .abs), .bbr6]

/-- Row 7x of the matrix. -/
def opcodeRow7 : List Instr :=
  [.bvs, .adc (.mem .izy), .adc (.mem .izp), .reserved 0x73, .stz .zpx, .adc (.mem .zpx), .ror (.mem .zpx), .rmb7,
   .sei, .adc (.mem .aby), .ply, .reserved 0x7B, .jmp .iax, .adc (.mem .abx), .ror (.mem .abx), .bbr7]

/-- Row 8x of the matrix. -/
def opcodeRow8 : List Instr :=
  [.bra, .sta .izx, .reserved 0x82, .reserved 0x83, .sty .zp, .sta .zp, .stx .zp, .smb0,
   .dey, .bit .imm, .txa, .reserved 0x8B, .sty .abs, .sta .abs, .stx .abs, .bbs0]

/-- Row 9x of the matrix. -/
def opcodeRow9 : List Instr :=
  [.bcc, .sta .izy, .sta .izp, .reserved 0x93, .sty .zpx, .sta .zpx, .stx .zpy, .smb1,
   .tya, .sta .aby, .txs, .reserved 0x9B, .stz .abs, .sta .abx, .stz .abx, .bbs1]

/-- Row Ax of the matrix. -/
def opcodeRowA : List Instr :=
  [.ldy .imm, .lda (.mem .izx), .ldx .imm, .reserved 0xA3, .ldy (.mem .zp), .lda (.mem .zp), .ldx (.mem .zp), .smb2,
   .tay, .lda .imm, .tax, .reserved 0xAB, .ldy (.mem .abs), .lda (.mem .abs), .ldx (.mem .abs), .bbs2]

/-- Row Bx of the matrix. -/
def opcodeRowB : List Instr :=
  [.bcs, .lda (.mem .izy), .lda (.mem .izp), .reserved 0xB3, .ldy (.mem .zpx), .lda (.mem .zpx), .ldx (.mem .zpy), .smb3,
   .clv, .lda (.mem .aby), .tsx, .reserved 0xBB, .ldy (.mem .abx), .lda (.mem .abx), .ldx (.mem .aby), .bbs3]

/-- Row Cx of the matrix. -/
def opcodeRowC : List Instr :=
  [.cpy .imm, .cmp (.mem .izx), .reserved 0xC2, .reserved 0xC3, .cpy (.mem .zp), .cmp (.mem .zp), .dec (.mem .zp), .smb4,
   .iny, .cmp .imm, .dex, .wai, .cpy (.mem .abs), .cmp (.mem .abs), .dec (.mem .abs), .bbs4]

/-- Row Dx of the matrix. -/
def opcodeRowD : List Instr :=
  [.bne, .cmp (.mem .izy), .cmp (.mem .izp), .reserved 0xD3, .reserved 0xD4, .cmp (.mem .zpx), .dec (.mem .zpx), .smb5,
   .cld, .cmp (.mem .aby), .phx, .stp, .reserved 0xDC, .cmp (.mem .abx), .dec (.mem .abx), .bbs5]

/-- Row Ex of the matrix. -/
def opcodeRowE : List Instr :=
  [.cpx .imm, .sbc (.mem .izx), .reserved 0xE2, .reserved 0xE3, .cpx (.mem .zp), .sbc (.mem .zp), .inc (.mem .zp), .smb6,
   .inx, .sbc .imm, .nop, .reserved 0xEB, .cpx (.mem .abs), .sbc (.mem .abs), .inc (.mem .abs), .bbs6]

/-- Row Fx of the matrix. -/
def opcodeRowF : List Instr :=
  [.beq, .sbc (.mem .izy), .sbc (.mem .izp), .reserved 0xF3, .reserved 0xF4, .sbc (.mem .zpx), .inc (.mem .zpx), .smb7,
   .sed, .sbc (.mem .aby), .plx, .reserved 0xFB, .reserved 0xFC, .sbc (.mem .abx), .inc (.mem .abx), .bbs7]

/-- The opcode matrix of 30_encoding.md R73, in opcode order; the reserved cells are R75's. -/
def opcodeMatrix : List Instr :=
  opcodeRow0 ++ opcodeRow1 ++ opcodeRow2 ++ opcodeRow3 ++ opcodeRow4 ++ opcodeRow5 ++ opcodeRow6 ++ opcodeRow7
  ++ opcodeRow8 ++ opcodeRow9 ++ opcodeRowA ++ opcodeRowB ++ opcodeRowC ++ opcodeRowD ++ opcodeRowE ++ opcodeRowF

/-- The instruction an opcode byte selects (R70: the opcode byte alone selects it). -/
def decodeOpcode (b : Byte) : Instr := opcodeMatrix.getD b.toNat (.reserved b)

/-- Why bytes are no instruction: there are none, or the operand bytes of the opcode are missing. -/
inductive DecodeError where
  | noBytes
  | truncated (opcode : Byte)
  deriving DecidableEq, Repr

/-- Decode the instruction at the head of the bytes and give the rest (R70, R76). A reserved opcode has no length (R76):
it is the instruction `reserved`, with no operand bytes. -/
def decode : List Byte → Except DecodeError (Asm × List Byte)
  | [] => .error .noBytes
  | op :: rest =>
    match (decodeOpcode op).operandCount, rest with
    | 0, r => .ok (⟨decodeOpcode op, .none⟩, r)
    | 1, b1 :: r => .ok (⟨decodeOpcode op, .one b1⟩, r)
    | 2, b1 :: b2 :: r => .ok (⟨decodeOpcode op, .two b1 b2⟩, r)
    | _, _ => .error (.truncated op)

/-- The opcodes of the nine forms shared by `LDA ORA AND EOR ADC CMP SBC`, as an offset from the instruction's column
base (42_alu.md, the forms table). -/
def nineFormOffset : ReadMode → Option Byte
  | .imm => some 0x09
  | .mem .zp => some 0x05
  | .mem .zpx => some 0x15
  | .mem .abs => some 0x0D
  | .mem .abx => some 0x1D
  | .mem .aby => some 0x19
  | .mem .izx => some 0x01
  | .mem .izy => some 0x11
  | .mem .izp => some 0x12
  | .mem .zpy => none

/-- The opcodes of the five forms of `ASL ROL LSR ROR` as an offset from the instruction's base (43_rmw_bit.md R175). -/
def shiftFormOffset : RmwMode → Option Byte
  | .acc => some 0x0A
  | .mem .zp => some 0x06
  | .mem .zpx => some 0x16
  | .mem .abs => some 0x0E
  | .mem .abx => some 0x1E
  | .mem _ => none

/-- The opcode byte of an instruction (R73, the list by mnemonic); none for a form its mnemonic does not have. -/
def opcodeOf : Instr → Option Byte
  | .lda o => (nineFormOffset o).map (0xA0 + ·)
  | .ldx .imm => some 0xA2
  | .ldx (.mem .zp) => some 0xA6
  | .ldx (.mem .zpy) => some 0xB6
  | .ldx (.mem .abs) => some 0xAE
  | .ldx (.mem .aby) => some 0xBE
  | .ldx (.mem _) => none
  | .ldy .imm => some 0xA0
  | .ldy (.mem .zp) => some 0xA4
  | .ldy (.mem .zpx) => some 0xB4
  | .ldy (.mem .abs) => some 0xAC
  | .ldy (.mem .abx) => some 0xBC
  | .ldy (.mem _) => none
  | .sta .zp => some 0x85
  | .sta .zpx => some 0x95
  | .sta .abs => some 0x8D
  | .sta .abx => some 0x9D
  | .sta .aby => some 0x99
  | .sta .izx => some 0x81
  | .sta .izy => some 0x91
  | .sta .izp => some 0x92
  | .sta .zpy => none
  | .stx .zp => some 0x86
  | .stx .zpy => some 0x96
  | .stx .abs => some 0x8E
  | .stx _ => none
  | .sty .zp => some 0x84
  | .sty .zpx => some 0x94
  | .sty .abs => some 0x8C
  | .sty _ => none
  | .stz .zp => some 0x64
  | .stz .zpx => some 0x74
  | .stz .abs => some 0x9C
  | .stz .abx => some 0x9E
  | .stz _ => none
  | .tax => some 0xAA
  | .tay => some 0xA8
  | .txa => some 0x8A
  | .tya => some 0x98
  | .tsx => some 0xBA
  | .txs => some 0x9A
  | .ora o => nineFormOffset o
  | .and o => (nineFormOffset o).map (0x20 + ·)
  | .eor o => (nineFormOffset o).map (0x40 + ·)
  | .adc o => (nineFormOffset o).map (0x60 + ·)
  | .sbc o => (nineFormOffset o).map (0xE0 + ·)
  | .cmp o => (nineFormOffset o).map (0xC0 + ·)
  | .cpx .imm => some 0xE0
  | .cpx (.mem .zp) => some 0xE4
  | .cpx (.mem .abs) => some 0xEC
  | .cpx (.mem _) => none
  | .cpy .imm => some 0xC0
  | .cpy (.mem .zp) => some 0xC4
  | .cpy (.mem .abs) => some 0xCC
  | .cpy (.mem _) => none
  | .bit .imm => some 0x89
  | .bit (.mem .zp) => some 0x24
  | .bit (.mem .zpx) => some 0x34
  | .bit (.mem .abs) => some 0x2C
  | .bit (.mem .abx) => some 0x3C
  | .bit (.mem _) => none
  | .asl o => shiftFormOffset o
  | .rol o => (shiftFormOffset o).map (0x20 + ·)
  | .lsr o => (shiftFormOffset o).map (0x40 + ·)
  | .ror o => (shiftFormOffset o).map (0x60 + ·)
  | .inc .acc => some 0x1A
  | .inc (.mem .zp) => some 0xE6
  | .inc (.mem .zpx) => some 0xF6
  | .inc (.mem .abs) => some 0xEE
  | .inc (.mem .abx) => some 0xFE
  | .inc (.mem _) => none
  | .dec .acc => some 0x3A
  | .dec (.mem .zp) => some 0xC6
  | .dec (.mem .zpx) => some 0xD6
  | .dec (.mem .abs) => some 0xCE
  | .dec (.mem .abx) => some 0xDE
  | .dec (.mem _) => none
  | .inx => some 0xE8
  | .iny => some 0xC8
  | .dex => some 0xCA
  | .dey => some 0x88
  | .tsb .zp => some 0x04
  | .tsb .abs => some 0x0C
  | .tsb _ => none
  | .trb .zp => some 0x14
  | .trb .abs => some 0x1C
  | .trb _ => none
  | .rmb0 => some 0x07
  | .rmb1 => some 0x17
  | .rmb2 => some 0x27
  | .rmb3 => some 0x37
  | .rmb4 => some 0x47
  | .rmb5 => some 0x57
  | .rmb6 => some 0x67
  | .rmb7 => some 0x77
  | .smb0 => some 0x87
  | .smb1 => some 0x97
  | .smb2 => some 0xA7
  | .smb3 => some 0xB7
  | .smb4 => some 0xC7
  | .smb5 => some 0xD7
  | .smb6 => some 0xE7
  | .smb7 => some 0xF7
  | .bpl => some 0x10
  | .bmi => some 0x30
  | .bvc => some 0x50
  | .bvs => some 0x70
  | .bcc => some 0x90
  | .bcs => some 0xB0
  | .bne => some 0xD0
  | .beq => some 0xF0
  | .bra => some 0x80
  | .bbr0 => some 0x0F
  | .bbr1 => some 0x1F
  | .bbr2 => some 0x2F
  | .bbr3 => some 0x3F
  | .bbr4 => some 0x4F
  | .bbr5 => some 0x5F
  | .bbr6 => some 0x6F
  | .bbr7 => some 0x7F
  | .bbs0 => some 0x8F
  | .bbs1 => some 0x9F
  | .bbs2 => some 0xAF
  | .bbs3 => some 0xBF
  | .bbs4 => some 0xCF
  | .bbs5 => some 0xDF
  | .bbs6 => some 0xEF
  | .bbs7 => some 0xFF
  | .jmp .abs => some 0x4C
  | .jmp .ind => some 0x6C
  | .jmp .iax => some 0x7C
  | .jsr => some 0x20
  | .rts => some 0x60
  | .pha => some 0x48
  | .php => some 0x08
  | .phx => some 0xDA
  | .phy => some 0x5A
  | .pla => some 0x68
  | .plp => some 0x28
  | .plx => some 0xFA
  | .ply => some 0x7A
  | .clc => some 0x18
  | .sec => some 0x38
  | .cli => some 0x58
  | .sei => some 0x78
  | .clv => some 0xB8
  | .cld => some 0xD8
  | .sed => some 0xF8
  | .nop => some 0xEA
  | .brk => some 0x00
  | .rti => some 0x40
  | .wai => some 0xCB
  | .stp => some 0xDB
  | .reserved b => if b ∈ reservedOpcodes then some b else none

def OperandBytes.bytes : OperandBytes → List Byte
  | .none => []
  | .one b1 => [b1]
  | .two b1 b2 => [b1, b2]

/-- The bytes of an instruction at ascending addresses (R70); none where the instruction has no opcode. -/
def encode (a : Asm) : Option (List Byte) := (opcodeOf a.instr).map (· :: a.operand.bytes)

/-- The 16-bit address of a two-byte operand (R72): byte 1 is the low byte. -/
def Asm.absoluteAddress : Asm → Option Word
  | ⟨_, .two lo hi⟩ => some (cat hi lo)
  | _ => none

/-- The target of a branch whose opcode lies at `opcodeAddr` (R72): the address after the instruction plus the extended offset. -/
def Asm.target (a : Asm) (opcodeAddr : Word) : Option Word :=
  match a.instr.mode, a.operand with
  | some .rel, .one off => some (branchTarget (opcodeAddr + 2) off)
  | some .zpr, .two _ off => some (branchTarget (opcodeAddr + 3) off)
  | _, _ => none

/-- Byte `k` of an instruction given as a number, its first byte in bits 7..0. -/
def tableByte (w k : Nat) : Byte := BitVec.ofNat 8 (w / 2 ^ (8 * k))

/-- The instruction the decoder reads from an instruction whose bits are `w`; every bit from `nbits` up is zero. -/
def decodeTableWord (nbits w : Nat) : Option Instr :=
  let v := w % 2 ^ nbits
  match decode [tableByte v 0, tableByte v 1, tableByte v 2] with
  | .ok (a, _) => some a.instr
  | .error _ => none

end Sys2Proof
end

