-- ==== Sys2Proof/Machine/Signals.lean ====
section
/-! DEFINITION. What the block and its surroundings exchange: the shared bus signals (10_state.md R18), the names of the
interrupt lines (R19) and the requests a device makes on them (20_memory.md R47). -/

namespace Sys2Proof.Machine

/-- The one shared signal set of 10_state.md R18. -/
structure BusSignals where
  address : Word
  data : Byte
  /-- `read_write`: true on a read. -/
  readWrite : Bool
  /-- The opcode-fetch marker. -/
  sync : Bool
  /-- The interrupt-vector-fetch marker. -/
  vectorPull : Bool
  deriving DecidableEq, Repr, Inhabited

/-- The three lines of 10_state.md R19. -/
inductive LineName where
  | nmi | irq | rst
  deriving DecidableEq, Repr

/-- The identity of whoever asserts a line: OPEN in the spec (00_scope.md R4), a natural number here. DESIGN CHOICE, safe
(assumption 4). -/
abbrev RequesterId := Nat

/-- `LineAction` of 20_memory.md R47. -/
inductive LineAction where
  | trigger (line : LineName) (id : RequesterId)
  | clear (line : LineName) (id : RequesterId)
  deriving DecidableEq, Repr

/-- What an open device answers to one notification (20_memory.md R47): its next state, the byte it would drive, and its
line actions. -/
structure DeviceReply where
  state : List Nat
  drive : Option Byte
  actions : List LineAction
  deriving DecidableEq, Repr, Inhabited

end Sys2Proof.Machine
end

