-- ==== Sys2Proof/Config.lean ====
section
/-! DEFINITION. The implementation parameters of 00_scope.md R4, as data the state carries (assumption 5), and the values
the spec leaves open, as constants without a body. -/

namespace Sys2Proof.Machine

/-- `DECIMAL_POLICY` (40_engine.md R125). -/
inductive DecimalPolicy where
  | refuse | binary
  deriving DecidableEq, Repr

/-- `NMI_EDGE_CAPTURE` (60_exceptions.md R244). -/
inductive NmiEdgeCapture where
  | onTrigger | onPoll
  deriving DecidableEq, Repr

/-- `RST_STACK_ACCESS` (60_exceptions.md R251). -/
inductive RstStackAccess where
  | read | write
  deriving DecidableEq, Repr

/-- `DUMMY_ADDRESS` (40_engine.md R117). -/
inductive DummyAddress where
  | decided | any
  deriving DecidableEq, Repr

/-- The parameters of 00_scope.md R4 that have a default and alternatives. -/
structure Params where
  strictBus : Bool
  undrivenValue : Byte
  reservedOpcodes : List Byte
  decimalPolicy : DecimalPolicy
  nmiEdgeCapture : NmiEdgeCapture
  rstStackAccess : RstStackAccess
  dummyAddress : DummyAddress
  deriving DecidableEq, Repr

/-- The default column of 00_scope.md R4. -/
def Params.default : Params where
  strictBus := false
  undrivenValue := 0x00
  reservedOpcodes := Sys2Proof.reservedOpcodes
  decimalPolicy := .refuse
  nmiEdgeCapture := .onTrigger
  rstStackAccess := .read
  dummyAddress := .decided

/-- FREE VALUE (assumption 12): the `k`-th free 16-bit draw of a discarded read's address under `DUMMY_ADDRESS = any`
(40_engine.md R117). -/
opaque Config.freeAddress : Nat → Word

/-- FREE VALUE (assumption 25): what `EA`, `IAB` and `TMP` hold, in this order, after RST has abandoned an instruction, at the
`k`-th time (10_state.md R17, 40_engine.md R98). -/
opaque Config.lostScratch : Nat → Word × Byte × Byte

/-- FREE VALUE (assumption 21): bits 5 and 4 of the debug field `p` (10_state.md R13, 60_exceptions.md R274). -/
opaque Config.debugBits : Nat → BitVec 2

/-- OPEN (assumption 3): how the open device numbered `k` answers a notification (20_memory.md R47, parameter `DEVICES`):
nothing is known of it, so what is proved holds for every device. -/
opaque Config.deviceOnCycle : Nat → List Nat → BusSignals → DeviceReply

end Sys2Proof.Machine
end

