-- ==== Sys2Proof/Machine/State.lean ====
section
/-! DEFINITION. The state of the block, as plain data: 10_state.md R10 to R20, with the parameters of 00_scope.md R4; its
named updates; the state after reset (R24); the faults and the refusals of 00_scope.md R7. -/

namespace Sys2Proof.Machine

/-- The six flags of 10_state.md R13; bits 5 and 4 of the byte view are no state. -/
structure Flags where
  n : Bool
  v : Bool
  d : Bool
  i : Bool
  z : Bool
  c : Bool
  deriving DecidableEq, Repr

/-- The instruction register of 10_state.md R15: an opcode byte or one of the three pseudo-opcodes (30_encoding.md R79;
D8 allows an inductive type in place of the numbers). -/
inductive IReg where
  | opcode (b : Byte)
  | nmiOp
  | rstOp
  | irqOp
  deriving DecidableEq, Repr

/-- The five values of `step` (10_state.md R16). -/
inductive StepReg where
  | executing (n : Nat)
  | awaitFetch
  | awaitPipelinedFetch
  | waitingForInterrupt
  | stopped
  deriving DecidableEq, Repr

/-- The named intermediates that the cycle templates carry from one cycle to a later one, beside `EA`, `IAB` and `TMP`:
`lo`, `hi` (40_engine.md R104), `off`, `old`, `crossed`, `taken` (R115), `ptr` (44_control.md R207). The model's own
fields (assumption 11). -/
structure Locals where
  lo : Byte
  hi : Byte
  off : Byte
  old : Word
  ptr : Word
  crossed : Bool
  taken : Bool
  deriving DecidableEq, Repr

/-- An interrupt line (10_state.md R19). The requester set is a strictly ascending list (assumption 4). -/
structure InterruptLine where
  edgeTriggered : Bool
  requesters : List RequesterId
  latchedSinceEdge : Bool
  deriving DecidableEq, Repr

/-- The three lines of the CPU. -/
structure Lines where
  nmi : InterruptLine
  irq : InterruptLine
  rst : InterruptLine
  deriving DecidableEq, Repr

/-- Plain memory: (bus address, byte) pairs in the canonical form of `Memory.wf`. -/
abbrev Memory := List Host.Cell

/-- What a device is (20_memory.md R47; assumption 3): the RAM test device and the IRQ test device of 95_test_vectors.md
section 0, the ROM of S11, the constant driver `B` of S10, or an open device whose behaviour nothing is known of. -/
inductive DeviceBody where
  | ram (mem : Memory)
  | rom (mem : Memory)
  | constant (value : Byte)
  | lineClearer (line : LineName) (id : RequesterId)
  | open_ (behaviour : Nat) (state : List Nat)
  deriving DecidableEq, Repr

/-- A device with its mapped range (20_memory.md R46): `base <= address < base + length`. -/
structure Device where
  base : Nat
  length : Nat
  body : DeviceBody
  deriving DecidableEq, Repr

/-- The whole state of the block and of the devices on its bus. -/
structure State where
  a : Byte
  x : Byte
  y : Byte
  s : Byte
  pc : Word
  p : Flags
  ir : IReg
  stepReg : StepReg
  ea : Word
  iab : Byte
  tmp : Byte
  loc : Locals
  bus : BusSignals
  /-- `driven_count` of 20_memory.md R41. -/
  driven : Nat
  lines : Lines
  devices : List Device
  cfg : Params
  /-- How many free values have been drawn (assumptions 12 and 25). -/
  freeIdx : Nat
  deriving DecidableEq, Repr

namespace State

/-! The named updates: one field each, `setBusSide` the four that a bus cycle changes. -/

def setA (st : State) (v : Byte) : State := { st with a := v }
def setX (st : State) (v : Byte) : State := { st with x := v }
def setY (st : State) (v : Byte) : State := { st with y := v }
def setS (st : State) (v : Byte) : State := { st with s := v }
def setPC (st : State) (v : Word) : State := { st with pc := v }
def setP (st : State) (v : Flags) : State := { st with p := v }
def setIR (st : State) (v : IReg) : State := { st with ir := v }
def setStep (st : State) (v : StepReg) : State := { st with stepReg := v }
def setEA (st : State) (v : Word) : State := { st with ea := v }
def setIAB (st : State) (v : Byte) : State := { st with iab := v }
def setTMP (st : State) (v : Byte) : State := { st with tmp := v }
def setLoc (st : State) (v : Locals) : State := { st with loc := v }
def setLines (st : State) (v : Lines) : State := { st with lines := v }
def setDevices (st : State) (v : List Device) : State := { st with devices := v }
def setFreeIdx (st : State) (v : Nat) : State := { st with freeIdx := v }
def setBusSide (st : State) (bus : BusSignals) (driven : Nat) (lines : Lines) (devices : List Device) : State :=
  { st with bus := bus, driven := driven, lines := lines, devices := devices }

end State

/-- A line as it is created (10_state.md R24, D13): no requester, no edge pending. -/
def InterruptLine.created (edge : Bool) : InterruptLine := ⟨edge, [], false⟩

/-- The three lines as they are created (10_state.md R19): NMI is edge-triggered, IRQ and RST are level-triggered. -/
def Lines.created : Lines := ⟨.created true, .created false, .created false⟩

/-- The RAM test device of 95_test_vectors.md section 0: the whole address space. -/
def Device.fullRam (mem : Memory) : Device := ⟨0, 65536, .ram mem⟩

/-- What power-on leaves unspecified (10_state.md R24, the parameter `POWER_ON` of 00_scope.md R4). -/
structure PowerOn where
  a : Byte
  x : Byte
  y : Byte
  s : Byte
  pc : Word
  p : Flags
  ir : IReg
  stepReg : StepReg
  ea : Word
  iab : Byte
  tmp : Byte
  loc : Locals
  bus : BusSignals
  driven : Nat
  deriving DecidableEq, Repr

/-- The machine at power-on (70_reset_and_hazards.md R281 items 1 and 2): the unspecified registers at any values, the
lines as created, the devices as the host registered them. -/
def State.powerOn (u : PowerOn) (cfg : Params) (devices : List Device) : State where
  a := u.a
  x := u.x
  y := u.y
  s := u.s
  pc := u.pc
  p := u.p
  ir := u.ir
  stepReg := u.stepReg
  ea := u.ea
  iab := u.iab
  tmp := u.tmp
  loc := u.loc
  bus := u.bus
  driven := u.driven
  lines := .created
  devices := devices
  cfg := cfg
  freeIdx := 0

/-- The machine right after reset: the "after the RST sequence" column of 10_state.md R24. The values R24 does not give
(A, X, Y, S, N, V, Z, C, the scratch registers, the device list, the parameters) are those of assumptions 5 to 9. -/
def State.reset : State where
  a := 0
  x := 0
  y := 0
  s := 0xFD
  pc := 0
  p := { n := false, v := false, d := false, i := true, z := false, c := false }
  ir := .rstOp
  stepReg := .awaitFetch
  ea := 0
  iab := 0
  tmp := 0
  loc := ⟨0, 0, 0, 0, 0, false, false⟩
  bus := { address := 0xFFFD, data := 0, readWrite := true, sync := false, vectorPull := true }
  driven := 1
  lines := .created
  devices := [.fullRam []]
  cfg := .default
  freeIdx := 0

/-- The fatal conditions of 60_exceptions.md R258 to R261. Each carries the state it leaves, the non-final terminal state
of 00_scope.md R7 (assumption 14). All are the spec's own faults, so stopping there is safe. -/
inductive Fault where
  /-- `ContractViolation(ReservedOpcode)(opcode, address)` (R258): raised by the fetch, the pipelined dispatch and the
  instruction `reserved`. Safe. -/
  | reservedOpcode (opcode : Byte) (address : Word) (left : State)
  /-- `ContractViolation(StepOutOfDomain)(IR, n)` (R259): raised by a handler entered at a step outside its template.
  Safe. -/
  | stepOutOfDomain (ir : IReg) (step : StepReg) (left : State)
  /-- `BusFault(NoDevice)(address)` (R260): raised by any read cycle under `STRICT_BUS` that no device answers. Safe. -/
  | busNoDevice (address : Word) (left : State)
  /-- `BusFault(Contention)(address)` (R261): raised by any read cycle under `STRICT_BUS` that two devices answer. Safe. -/
  | busContention (address : Word) (left : State)
  deriving DecidableEq, Repr

/-- The refusals. -/
inductive Refusal where
  /-- No meaning yet for the instruction; raised by no arm of `exec`. Safe. -/
  | notModelled (mnemonic : String)
  /-- `DecimalUnmodelled` (40_engine.md R125, 60_exceptions.md R262): `ADC` or `SBC` reaching its operation with
  `P.D = 1` under `DECIMAL_POLICY = refuse`; with the state it leaves. Safe (assumption 13). -/
  | decimalUnmodelled (left : State)
  deriving DecidableEq, Repr

/-- How a clock cycle ends (00_scope.md R7). -/
abbrev Result := Host.Outcome State Fault Refusal

end Sys2Proof.Machine
end

