-- ==== Sys2Proof/Machine/Lines.lean ====
section
/-! DEFINITION. The operations on an interrupt line: 60_exceptions.md R241 to R244. -/

namespace Sys2Proof.Machine

/-- Add an id to a requester set kept as a strictly ascending list. -/
def insertId (id : RequesterId) : List RequesterId → List RequesterId
  | [] => [id]
  | j :: rest => if id < j then id :: j :: rest else if id = j then j :: rest else j :: insertId id rest

/-- Remove an id from a requester set. -/
def removeId (id : RequesterId) (ids : List RequesterId) : List RequesterId := ids.filter (· ≠ id)

namespace InterruptLine

/-- `is_triggering(L, id)` (R243). -/
def isTriggering (l : InterruptLine) (id : RequesterId) : Bool := id ∈ l.requesters

/-- `triggered(L)` (R243): the requester set is not empty. -/
def triggered (l : InterruptLine) : Bool := !l.requesters.isEmpty

/-- `trigger(L, id)` (R241), with whether membership changed. -/
def trigger (capture : NmiEdgeCapture) (l : InterruptLine) (id : RequesterId) : Bool × InterruptLine :=
  let edge := l.edgeTriggered && !l.triggered && decide (capture = .onTrigger)
  (!l.isTriggering id,
    { l with requesters := insertId id l.requesters, latchedSinceEdge := edge || l.latchedSinceEdge })

/-- `clear(L, id)` (R242), with whether membership changed (D22). A captured edge stays captured. -/
def clear (l : InterruptLine) (id : RequesterId) : Bool × InterruptLine :=
  (l.isTriggering id, { l with requesters := removeId id l.requesters })

/-- `should_interrupt(L)` (R244): the answer and the line after the poll. -/
def shouldInterrupt (capture : NmiEdgeCapture) (l : InterruptLine) : Bool × InterruptLine :=
  if !l.edgeTriggered then (l.triggered, l)
  else
    match capture with
    | .onTrigger => (l.latchedSinceEdge, { l with latchedSinceEdge := false })
    | .onPoll =>
      if !l.triggered then (false, { l with latchedSinceEdge := false })
      else if l.latchedSinceEdge then (false, l)
      else (true, { l with latchedSinceEdge := true })

end InterruptLine

namespace Lines

/-- The line of a name. -/
def get (ls : Lines) : LineName → InterruptLine
  | .nmi => ls.nmi
  | .irq => ls.irq
  | .rst => ls.rst

/-- Replace the line of a name. -/
def set (ls : Lines) (name : LineName) (l : InterruptLine) : Lines :=
  match name with
  | .nmi => { ls with nmi := l }
  | .irq => { ls with irq := l }
  | .rst => { ls with rst := l }

/-- One line action (20_memory.md R47), whoever makes it. -/
def act (capture : NmiEdgeCapture) (ls : Lines) : LineAction → Lines
  | .trigger name id => ls.set name ((ls.get name).trigger capture id).2
  | .clear name id => ls.set name ((ls.get name).clear id).2

/-- The line actions of one notification, in list order (R47). -/
def actAll (capture : NmiEdgeCapture) (ls : Lines) (actions : List LineAction) : Lines :=
  actions.foldl (act capture) ls

end Lines

end Sys2Proof.Machine
end

