-- ==== Sys2Proof/Machine/Memory.lean ====
section
/-! DEFINITION. Plain memory, the content of a RAM or ROM device: what an unlisted address reads as, the canonical form,
reading and writing one byte. -/

namespace Sys2Proof.Machine

/-- What an unlisted address reads as: "Bytes of `mem` not listed in a vector are `$00`" (95_test_vectors.md section 0).
DESIGN CHOICE, unsafe (assumption 10). -/
def Memory.unlisted : Byte := 0x00

/-- The canonical form: addresses strictly rising and inside the 16-bit space, no entry equal to what an unlisted address
reads as. -/
abbrev Memory.wf (m : Memory) : Prop :=
  m.Pairwise (fun p q => p.1 < q.1) ∧ ∀ c ∈ m, c.1 < 65536 ∧ c.2 ≠ Memory.unlisted

/-- The byte at an address. -/
def Memory.read : Memory → Nat → Byte
  | [], _ => Memory.unlisted
  | (b, w) :: rest, a => if a = b then w else Memory.read rest a

/-- Put a cell before memory whose addresses are higher, unless it says what is unlisted anyway. -/
def Memory.place (a : Nat) (v : Byte) (rest : Memory) : Memory :=
  if v = Memory.unlisted then rest else (a, v) :: rest

/-- Write one byte, keeping the canonical form. -/
def Memory.write : Memory → Nat → Byte → Memory
  | [], a, v => Memory.place a v []
  | (b, w) :: rest, a, v =>
    if a < b then Memory.place a v ((b, w) :: rest)
    else if a = b then Memory.place a v rest
    else (b, w) :: Memory.write rest a v

end Sys2Proof.Machine
end

