-- ==== Sys2Proof/Machine/Devices.lean ====
section
/-! DEFINITION. The device contract (20_memory.md R46, R47): one notification of one device, and the notification of the
whole registration list in order (R42). -/

namespace Sys2Proof.Machine

/-- `in_range(address)` of R46. -/
def Device.inRange (d : Device) (address : Word) : Bool :=
  decide (d.base ≤ address.toNat) && decide (address.toNat < d.base + d.length)

/-- `relative(address)` of R46. -/
def Device.relative (d : Device) (address : Word) : Nat := address.toNat - d.base

/-- What one notification of a device gives: the device after it, the byte it drives, its line actions. -/
structure Notice where
  device : Device
  drive : Option Byte
  actions : List LineAction
  deriving DecidableEq, Repr

/-- The device with another body, in the same range. -/
def Device.withBody (d : Device) (body : DeviceBody) : Device := { d with body := body }

/-- `on_cycle` of R47. A byte is driven only on an in-range read, so nothing is driven on a write (R45). -/
def Device.onCycle (d : Device) (bus : BusSignals) : Notice :=
  let hit := d.inRange bus.address
  let reading := hit && bus.readWrite
  let writing := hit && !bus.readWrite
  match d.body with
  | .ram mem =>
    if writing then ⟨d.withBody (.ram (mem.write bus.address.toNat bus.data)), none, []⟩
    else ⟨d, if reading then some (mem.read bus.address.toNat) else none, []⟩
  | .rom mem => ⟨d, if reading then some (mem.read bus.address.toNat) else none, []⟩
  | .constant value => ⟨d, if reading then some value else none, []⟩
  | .lineClearer line id => ⟨d, none, if writing then [.clear line id] else []⟩
  | .open_ k state =>
    let reply := Config.deviceOnCycle k state bus
    ⟨d.withBody (.open_ k reply.state), if reading then reply.drive else none, reply.actions⟩

/-- Everything a bus cycle changes: the signals, the driver count, the lines, the devices. -/
structure BusSide where
  bus : BusSignals
  driven : Nat
  lines : Lines
  devices : List Device
  deriving DecidableEq, Repr

/-- The signals and the driver count after a device that drove `drive` (R42). -/
def driveBus (bus : BusSignals) (driven : Nat) : Option Byte → BusSignals × Nat
  | some v => ({ bus with data := v }, driven + 1)
  | none => (bus, driven)

/-- `cycle()` (R42): each device once, in registration order; a device sees what the devices before it drove, and its line
actions apply after its own notification (R47). -/
def notifyAll (capture : NmiEdgeCapture) (bus : BusSignals) (driven : Nat) (lines : Lines) : List Device → BusSide
  | [] => ⟨bus, driven, lines, []⟩
  | d :: rest =>
    let notice := d.onCycle bus
    let after := driveBus bus driven notice.drive
    let r := notifyAll capture after.1 after.2 (lines.actAll capture notice.actions) rest
    { r with devices := notice.device :: r.devices }

end Sys2Proof.Machine
end

