-- ==== Sys2Proof/Machine/Ops.lean ====
section
/-! DEFINITION. The named operations every template is built from: the bus cycles (20_memory.md R41 to R45), discarded reads
(40_engine.md R117), the stack (00_scope.md R6), the step register (R92), the pushed status byte (10_state.md R13), and
the shared entry into and return from an interrupt (60_exceptions.md R248, R256). -/

namespace Sys2Proof.Machine

/-! ## The bus -/

/-- `prepare_cycle` and `cycle()` (R41, R42): the signals as given, `driven` as given, every device notified. -/
def broadcast (bus : BusSignals) (driven : Nat) (st : State) : State :=
  let r := notifyAll st.cfg.nmiEdgeCapture bus driven st.lines st.devices
  st.setBusSide r.bus r.driven r.lines r.devices

/-- `ReadResult()` (20_memory.md R44) on the state after the notifications. -/
def readResult (st : State) : Except Fault (Byte × State) :=
  if st.driven = 0 then
    if st.cfg.strictBus then .error (.busNoDevice st.bus.address st)
    else
      .ok (st.cfg.undrivenValue,
        st.setBusSide { st.bus with data := st.cfg.undrivenValue } st.driven st.lines st.devices)
  else if decide (2 ≤ st.driven) && st.cfg.strictBus then .error (.busContention st.bus.address st)
  else .ok (st.bus.data, st)

/-- One read cycle with the two markers as given (R43). Until a device drives it, `data` keeps its last value, which is
nobody's (assumption 22). -/
def readCycle (sync vectorPull : Bool) (address : Word) (st : State) : Except Fault (Byte × State) :=
  readResult (broadcast ⟨address, st.bus.data, true, sync, vectorPull⟩ 0 st)

/-- Go on with the byte read, or end in the fault. -/
def onRead (r : Except Fault (Byte × State)) (k : Byte → State → Result) : Result :=
  match r with
  | .ok (v, st) => k v st
  | .error f => .fault f

/-- `BusRead(a)` (R43). -/
def busRead (address : Word) (st : State) (k : Byte → State → Result) : Result :=
  onRead (readCycle false false address st) k

/-- `BusSync(a)` (R43): the opcode fetch. -/
def busSync (address : Word) (st : State) (k : Byte → State → Result) : Result :=
  onRead (readCycle true false address st) k

/-- `BusVec(a)` (R43): an interrupt vector byte. -/
def busVec (address : Word) (st : State) (k : Byte → State → Result) : Result :=
  onRead (readCycle false true address st) k

/-- `BusWrite(a, v)` (R43); a write never faults (R45). -/
def busWrite (address : Word) (v : Byte) (st : State) : State :=
  broadcast ⟨address, v, false, false, false⟩ st.driven st

/-- The address of a cycle marked DUMMY (40_engine.md R117): the decided one, or a free draw. -/
def dummyAddress (decided : Word) (st : State) : Word × State :=
  match st.cfg.dummyAddress with
  | .decided => (decided, st)
  | .any => (Config.freeAddress st.freeIdx, st.setFreeIdx (st.freeIdx + 1))

/-- A cycle marked DUMMY: a `BusRead` whose data is dropped. -/
def dummyRead (decided : Word) (st : State) (k : State → Result) : Result :=
  busRead (dummyAddress decided st).1 (dummyAddress decided st).2 fun _ st => k st

/-! ## The step register -/

/-- `step <- AwaitFetch`, the templates' "done" (40_engine.md R92). -/
def State.done (st : State) : State := st.setStep .awaitFetch

/-- The end of a non-final cycle: `Executing(n)` becomes `Executing(n + 1)` (R92). -/
def State.nextCycle (st : State) : State :=
  match st.stepReg with
  | .executing n => st.setStep (.executing (n + 1))
  | _ => st

/-- "done" after an operation that may itself refuse. -/
def finish : Result → Result
  | .next st => .next st.done
  | .fault f => .fault f
  | .refused r => .refused r

/-- `ContractViolation(StepOutOfDomain)(IR, n)` (60_exceptions.md R259). -/
def outOfDomain (st : State) : Result := .fault (.stepOutOfDomain st.ir st.stepReg st)

/-- The handler of a real opcode (40_engine.md R92, R93): at T1 it does nothing further, the fetch having used the cycle; at
Tk, `step` being `Executing(k-1)`, it runs line Tk of its template. -/
def handler (template : Nat → State → Result) (st : State) : Result :=
  match st.stepReg with
  | .executing 0 => .next st.nextCycle
  | .executing (n + 1) => template (n + 2) st
  | _ => outOfDomain st

/-- The handler of a pseudo-opcode (R92): its T1 performs a bus cycle like the others. -/
def pseudoHandler (template : Nat → State → Result) (st : State) : Result :=
  match st.stepReg with
  | .executing n => template (n + 1) st
  | _ => outOfDomain st

/-- RST abandons an instruction: `EA`, `IAB` and `TMP` are lost (10_state.md R17, 40_engine.md R98), each a free value
(assumption 25). -/
def State.loseScratch (st : State) : State :=
  let lost := Config.lostScratch st.freeIdx
  (((st.setEA lost.1).setIAB lost.2.1).setTMP lost.2.2).setFreeIdx (st.freeIdx + 1)

/-! ## Registers, stack, status byte -/

/-- `PC <- PC + 1`, modulo 2^16 (20_memory.md R54). -/
def State.incPC (st : State) : State := st.setPC (st.pc + 1)

/-- `{0x01, S}` (10_state.md R11). -/
def State.stackAddress (st : State) : Word := cat 0x01 st.s

/-- `Push(v)` (00_scope.md R6): the write, then the decrement. -/
def push (v : Byte) (st : State) : State :=
  let st' := busWrite st.stackAddress v st
  st'.setS (st'.s - 1)

/-- `S <- S + 1`. -/
def State.incS (st : State) : State := st.setS (st.s + 1)

/-- `S <- S - 1`. -/
def State.decS (st : State) : State := st.setS (st.s - 1)

/-- A bit as a one-bit field. -/
def flagBit (b : Bool) : BitVec 1 := BitVec.ofBool b

/-- `PByte(b) = {N, V, 1, b, D, I, Z, C}` (10_state.md R13, 60_exceptions.md R252). -/
def Flags.pByte (p : Flags) (b : Bool) : Byte :=
  flagBit p.n ++ flagBit p.v ++ 1#1 ++ flagBit b ++ flagBit p.d ++ flagBit p.i ++ flagBit p.z ++ flagBit p.c

/-- The flags a pulled byte loads (10_state.md R13, 45_stack_flags_system.md R220): bits 5 and 4 are ignored. -/
def Flags.ofByte (v : Byte) : Flags where
  n := v.getLsbD 7
  v := v.getLsbD 6
  d := v.getLsbD 3
  i := v.getLsbD 2
  z := v.getLsbD 1
  c := v.getLsbD 0

/-- `P.I <- 1; P.D <- 0`, after the pushed byte has been formed (60_exceptions.md R253). -/
def Flags.entered (p : Flags) : Flags := { p with i := true, d := false }

/-! ## Taking an interrupt, and returning -/

/-- `PC[7:0] <- v`. -/
def State.setPCL (st : State) (v : Byte) : State := st.setPC (cat (hiByte st.pc) v)

/-- `PC[15:8] <- v`. -/
def State.setPCH (st : State) (v : Byte) : State := st.setPC (cat v (loByte st.pc))

/-- T6 and T7 of every entry: `PC` from the vector, low byte first, then "done" (60_exceptions.md R248, R251). -/
def vectorCycle (vector : Word) : Nat → State → Result
  | 6, st => busVec vector st fun v st => .next (st.setPCL v).nextCycle
  | 7, st => busVec (vector + 1) st fun v st => .next (st.setPCH v).done
  | _, st => outOfDomain st

/-- T3 to T7 of the NMI, IRQ and BRK entries (60_exceptions.md R248, R253): push PCH, PCL and `PByte(b)`; then `P.I <- 1`,
`P.D <- 0`; then load `PC` from the vector. -/
def entryCycle (vector : Word) (b : Bool) : Nat → State → Result
  | 3, st => .next (push (hiByte st.pc) st).nextCycle
  | 4, st => .next (push (loByte st.pc) st).nextCycle
  | 5, st =>
    let st' := push (st.p.pByte b) st
    .next (st'.setP st'.p.entered).nextCycle
  | t, st => vectorCycle vector t st

/-- T1 and T2 of a sequence that no instruction begins (60_exceptions.md R249 to R251): two discarded reads at `PC`. -/
def lineEntryCycle (rest : Nat → State → Result) : Nat → State → Result
  | 1, st => dummyRead st.pc st fun st => .next st.nextCycle
  | 2, st => dummyRead st.pc st fun st => .next st.nextCycle
  | t, st => rest t st

/-- The NMI sequence (60_exceptions.md R249). -/
def nmiSequence (st : State) : Result := pseudoHandler (lineEntryCycle (entryCycle 0xFFFA false)) st

/-- The IRQ sequence (60_exceptions.md R250). -/
def irqSequence (st : State) : Result := pseudoHandler (lineEntryCycle (entryCycle 0xFFFE false)) st

/-- T3 to T7 of the RST sequence with `RST_STACK_ACCESS = read` (60_exceptions.md R251): three discarded stack reads. -/
def rstReadCycle : Nat → State → Result
  | 3, st => dummyRead st.stackAddress st fun st => .next st.decS.nextCycle
  | 4, st => dummyRead st.stackAddress st fun st => .next st.decS.nextCycle
  | 5, st => dummyRead st.stackAddress st fun st => .next (st.decS.setP st.p.entered).nextCycle
  | t, st => vectorCycle 0xFFFC t st

/-- T3 to T7 of the RST sequence: by `RST_STACK_ACCESS`, reads, or the pushes of an ordinary entry (R251). -/
def rstCycle (t : Nat) (st : State) : Result :=
  match st.cfg.rstStackAccess with
  | .read => rstReadCycle t st
  | .write => entryCycle 0xFFFC false t st

/-- The RST sequence (60_exceptions.md R251). -/
def rstSequence (st : State) : Result := pseudoHandler (lineEntryCycle rstCycle) st

/-- The return from an interrupt (45_stack_flags_system.md R232): pull the status byte, PCL and PCH. The flags are written in
T4, as R232's template has it, where 70_reset_and_hazards.md R284 speaks of the last cycle (assumption 28). -/
def returnCycle : Nat → State → Result
  | 2, st => dummyRead st.pc st fun st => .next st.nextCycle
  | 3, st => dummyRead st.stackAddress st fun st => .next st.incS.nextCycle
  | 4, st => busRead st.stackAddress st fun v st => .next (st.setP (Flags.ofByte v)).incS.nextCycle
  | 5, st => busRead st.stackAddress st fun v st => .next (st.setLoc { st.loc with lo := v }).incS.nextCycle
  | 6, st => busRead st.stackAddress st fun v st => .next (st.setPC (cat v st.loc.lo)).done
  | _, st => outOfDomain st

/-! ## Looking at memory, placing bytes -/

/-- The byte a RAM device holds at an address of its range; the model's read of one byte of memory, no bus cycle. -/
def Device.ramByte (d : Device) (address : Word) : Option Byte :=
  match d.body with
  | .ram mem => if d.inRange address then some (mem.read address.toNat) else none
  | _ => none

/-- The byte that the `k`-th device of the registration list holds at an address, when it is a RAM mapped there. -/
def State.ramByte (st : State) (k : Nat) (address : Word) : Option Byte :=
  (st.devices[k]?).bind (·.ramByte address)

/-- Whether a device is a RAM mapped at an address. -/
def Device.isRamAt (d : Device) (address : Word) : Bool :=
  match d.body with
  | .ram _ => d.inRange address
  | _ => false

/-- The device with a byte placed in its RAM. -/
def Device.poke (d : Device) (address : Word) (v : Byte) : Device :=
  match d.body with
  | .ram mem => d.withBody (.ram (mem.write address.toNat v))
  | _ => d

/-- Place a byte in the last RAM of the list that is mapped at the address (the one that wins a read, 20_memory.md R44);
none where no RAM is. -/
def pokeLast (address : Word) (v : Byte) : List Device → Option (List Device)
  | [] => none
  | d :: rest =>
    match pokeLast address v rest with
    | some rest' => some (d :: rest')
    | none => if d.isRamAt address then some (d.poke address v :: rest) else none

/-- Place a byte of a program: in the last RAM mapped at the address, or in a RAM of that one byte registered last. -/
def State.poke (st : State) (address : Word) (v : Byte) : State :=
  match pokeLast address v st.devices with
  | some ds => st.setDevices ds
  | none => st.setDevices (st.devices ++ [(Device.mk address.toNat 1 (.ram [])).poke address v])

/-- A line nobody asserts, with no edge pending. -/
def InterruptLine.quiet (l : InterruptLine) : InterruptLine := { l with requesters := [], latchedSinceEdge := false }

/-- The next cycle is an opcode fetch: `step` awaits one and no line is asserted or latched (40_engine.md R91 item 7). -/
def State.readyToFetch (st : State) : State :=
  (st.setStep .awaitFetch).setLines ⟨st.lines.nmi.quiet, st.lines.irq.quiet, st.lines.rst.quiet⟩

end Sys2Proof.Machine
end

