-- ==== Sys2Proof/Machine/Flags.lean ====
section
/-! DEFINITION. The ALU and flag functions: 40_engine.md R120 to R125, and the transforms and tests of 42_alu.md and
43_rmw_bit.md. -/

namespace Sys2Proof.Machine

/-- `setNZ(v)` (R120). -/
def Flags.setNZ (p : Flags) (v : Byte) : Flags := { p with n := v.msb, z := v == 0 }

/-! ## Add, subtract, compare -/

/-- What the adder gives: the result byte, the carry and the overflow. -/
structure Sum where
  result : Byte
  carry : Bool
  overflow : Bool
  deriving DecidableEq, Repr

/-- The 9-bit sum `zext_9(a) + zext_9(m) + zext_9(c)`. -/
def sum9 (a m : Byte) (c : Bool) : BitVec 9 := a.setWidth 9 + m.setWidth 9 + (flagBit c).setWidth 9

/-- `ADC(m)` (R121) on the old accumulator, operand and carry. -/
def addWithCarry (a m : Byte) (c : Bool) : Sum :=
  let sum := sum9 a m c
  let r := sum.setWidth 8
  ⟨r, sum.getLsbD 8, (~~~(a ^^^ m) &&& (a ^^^ r)).getLsbD 7⟩

/-- `SBC(m)` (R122): the complement of `m` is added; the carry says that there is no borrow. -/
def subWithCarry (a m : Byte) (c : Bool) : Sum :=
  let sum := sum9 a (~~~m) c
  let r := sum.setWidth 8
  ⟨r, sum.getLsbD 8, ((a ^^^ m) &&& (a ^^^ r)).getLsbD 7⟩

/-- The accumulator and the flags after an addition or subtraction (R121, R122). -/
def applySum (sum : Sum) (st : State) : State :=
  (st.setA sum.result).setP ({ st.p with v := sum.overflow, c := sum.carry }.setNZ sum.result)

/-- With `P.D = 1` and `DECIMAL_POLICY = refuse` the operation is refused; with `binary` it is computed as if `P.D` were
0 (R125; assumption 13). -/
def decimalGuard (st : State) (binary : State) : Result :=
  if st.p.d && decide (st.cfg.decimalPolicy = .refuse) then .refused (.decimalUnmodelled st) else .next binary

/-- `OP(m)` of `ADC` (42_alu.md R163). -/
def opAdc (m : Byte) (st : State) : Result := decimalGuard st (applySum (addWithCarry st.a m st.p.c) st)

/-- `OP(m)` of `SBC` (42_alu.md R164). -/
def opSbc (m : Byte) (st : State) : Result := decimalGuard st (applySum (subWithCarry st.a m st.p.c) st)

/-- `Compare(r, m)` (R123): `N`, `Z` and `C` of `r - m`; nothing else is read or written. -/
def Flags.compare (p : Flags) (r m : Byte) : Flags :=
  let t := sum9 r (~~~m) true
  { p with c := t.getLsbD 8 }.setNZ (t.setWidth 8)

/-! ## Class R operations -/

/-- `OP(m)` of a load or of a logic operation: the register and `setNZ` of its new value. -/
def opLda (m : Byte) (st : State) : Result := .next ((st.setA m).setP (st.p.setNZ m))
def opLdx (m : Byte) (st : State) : Result := .next ((st.setX m).setP (st.p.setNZ m))
def opLdy (m : Byte) (st : State) : Result := .next ((st.setY m).setP (st.p.setNZ m))
def opOra (m : Byte) (st : State) : Result := opLda (st.a ||| m) st
def opAnd (m : Byte) (st : State) : Result := opLda (st.a &&& m) st
def opEor (m : Byte) (st : State) : Result := opLda (st.a ^^^ m) st

/-- `OP(m)` of a compare with the register value `r` (42_alu.md R165 to R167). -/
def opCompare (r : State → Byte) (m : Byte) (st : State) : Result := .next (st.setP (st.p.compare (r st) m))

/-- `OP(m)` of the memory forms of `BIT` (42_alu.md R168): `N` and `V` from the operand itself. -/
def opBit (m : Byte) (st : State) : Result :=
  .next (st.setP { st.p with z := st.a &&& m == 0, n := m.getLsbD 7, v := m.getLsbD 6 })

/-- `OP(m)` of `BIT` immediate (42_alu.md R168): `Z` only. -/
def opBitImm (m : Byte) (st : State) : Result := .next (st.setP { st.p with z := st.a &&& m == 0 })

/-! ## Class M transforms -/

/-- A transform `F`: the byte and the flags after it, from the accumulator, the flags and the byte before. -/
abbrev Transform := Byte → Flags → Byte → Byte × Flags

/-- A shift's result with the bit shifted out (R124). -/
def shifted (p : Flags) (out : Bool) (r : Byte) : Byte × Flags := (r, { p with c := out }.setNZ r)

/-- The four shifts and rotates of R124. -/
def asl : Transform := fun _ p t => shifted p (t.getLsbD 7) (t <<< 1)
def lsr : Transform := fun _ p t => shifted p (t.getLsbD 0) (t >>> 1)
def rol : Transform := fun _ p t => shifted p (t.getLsbD 7) ((t <<< 1) ||| (flagBit p.c).setWidth 8)
def ror : Transform := fun _ p t => shifted p (t.getLsbD 0) ((t >>> 1) ||| ((flagBit p.c).setWidth 8 <<< 7))

/-- `INC` and `DEC` (43_rmw_bit.md R179, R180): carry and overflow are not written. -/
def increment : Transform := fun _ p t => (t + 1, p.setNZ (t + 1))
def decrement : Transform := fun _ p t => (t - 1, p.setNZ (t - 1))

/-- `TSB` and `TRB` (43_rmw_bit.md R185, R186): only `Z` is written, from `A & t`. -/
def testAndSet : Transform := fun a p t => (t ||| a, { p with z := a &&& t == 0 })
def testAndReset : Transform := fun a p t => (t &&& ~~~a, { p with z := a &&& t == 0 })

/-- `1 << n`. -/
def bitMask (n : Nat) : Byte := 1 <<< n

/-- `RMBn` and `SMBn` (43_rmw_bit.md R187, R188): no flag is written. -/
def resetBit (n : Nat) : Transform := fun _ p t => (t &&& ~~~bitMask n, p)
def setBit (n : Nat) : Transform := fun _ p t => (t ||| bitMask n, p)

end Sys2Proof.Machine
end

