-- ==== Sys2Proof/Machine/Operands.lean ====
section
/-! DEFINITION. The cycle templates: every operand form of 40_engine.md R100 to R110 as the lines T2, T3, … of its template,
followed by the tail of the instruction's class (R read, W write, M read-modify-write of R111), and the templates of the
implied, push, pull and branch instructions (R112 to R116). A template's argument is the cycle number T. -/

namespace Sys2Proof.Machine

/-! ## Effective addresses -/

/-- Whether the fix-up cycle of an indexed mode runs only on a page cross or always (R104 to R106, R108, R109). -/
inductive Fixup where
  | onCross | always
  deriving DecidableEq, Repr

/-- Whether the fix-up cycle is part of the template, once the address has been formed. -/
def fixes (fix : Fixup) (loc : Locals) : Bool := decide (fix = .always) || loc.crossed

/-- `EA <- zext_16(BusRead(PC)); PC <- PC + 1`. -/
def fetchZp (st : State) : Result :=
  busRead st.pc st fun v st => .next (st.setEA (zext16 v)).incPC.nextCycle

/-- `IAB <- BusRead(PC); PC <- PC + 1`. -/
def fetchPointer (st : State) : Result :=
  busRead st.pc st fun v st => .next (st.setIAB v).incPC.nextCycle

/-- `lo <- BusRead(PC); PC <- PC + 1`. -/
def fetchLo (st : State) : Result :=
  busRead st.pc st fun v st => .next (st.setLoc { st.loc with lo := v }).incPC.nextCycle

/-- `EA <- {hi, lo} + zext_16(idx)`, with the high byte and the page cross kept for the fix-up cycle (R104, R108). -/
def State.indexed (st : State) (hi idx : Byte) : State :=
  (st.setEA (cat hi st.loc.lo + zext16 idx)).setLoc
    { st.loc with hi := hi, crossed := carryOut st.loc.lo idx }

/-- The fix-up cycle: a discarded read at the address before the carry, `{hi, (lo + idx)[7:0]}` (R117 (b)). -/
def fixupCycle (idx : Byte) (st : State) : Result :=
  dummyRead (cat st.loc.hi (st.loc.lo + idx)) st fun st => .next st.nextCycle

/-- `ZP` (R101). -/
def zpCycles (tail : Nat → State → Result) : Nat → State → Result
  | 2, st => fetchZp st
  | t + 3, st => tail t st
  | _, st => outOfDomain st

/-- `ZPX`, `ZPY` (R102): the index is added inside page zero, after a discarded read at the un-indexed address. -/
def zpIndexedCycles (idx : State → Byte) (tail : Nat → State → Result) : Nat → State → Result
  | 2, st => fetchZp st
  | 3, st => dummyRead st.ea st fun st => .next (st.setEA (zext16 (loByte st.ea + idx st))).nextCycle
  | t + 4, st => tail t st
  | _, st => outOfDomain st

/-- `ABS` (R103). -/
def absCycles (tail : Nat → State → Result) : Nat → State → Result
  | 2, st => busRead st.pc st fun v st => .next (st.setEA (cat (hiByte st.ea) v)).incPC.nextCycle
  | 3, st => busRead st.pc st fun v st => .next (st.setEA (cat v (loByte st.ea))).incPC.nextCycle
  | t + 4, st => tail t st
  | _, st => outOfDomain st

/-- `ABX`, `ABY` (R104 to R106). -/
def absIndexedCycles (idx : State → Byte) (fix : Fixup) (tail : Nat → State → Result) : Nat → State → Result
  | 2, st => fetchLo st
  | 3, st => busRead st.pc st fun v st => .next (st.indexed v (idx st)).incPC.nextCycle
  | 4, st => if fixes fix st.loc then fixupCycle (idx st) st else tail 0 st
  | t + 5, st => if fixes fix st.loc then tail t st else tail (t + 1) st
  | _, st => outOfDomain st

/-- `IZX` (R107). -/
def izxCycles (tail : Nat → State → Result) : Nat → State → Result
  | 2, st => fetchPointer st
  | 3, st => dummyRead (zext16 st.iab) st fun st => .next (st.setIAB (st.iab + st.x)).nextCycle
  | 4, st => busRead (zext16 st.iab) st fun v st => .next (st.setEA (cat (hiByte st.ea) v)).nextCycle
  | 5, st => busRead (zext16 (st.iab + 1)) st fun v st => .next (st.setEA (cat v (loByte st.ea))).nextCycle
  | t + 6, st => tail t st
  | _, st => outOfDomain st

/-- `IZY` (R108, R109). -/
def izyCycles (fix : Fixup) (tail : Nat → State → Result) : Nat → State → Result
  | 2, st => fetchPointer st
  | 3, st => busRead (zext16 st.iab) st fun v st => .next (st.setLoc { st.loc with lo := v }).nextCycle
  | 4, st => busRead (zext16 (st.iab + 1)) st fun v st => .next (st.indexed v st.y).nextCycle
  | 5, st => if fixes fix st.loc then fixupCycle st.y st else tail 0 st
  | t + 6, st => if fixes fix st.loc then tail t st else tail (t + 1) st
  | _, st => outOfDomain st

/-- `IZP` (R110). -/
def izpCycles (tail : Nat → State → Result) : Nat → State → Result
  | 2, st => fetchPointer st
  | 3, st => busRead (zext16 st.iab) st fun v st => .next (st.setEA (cat (hiByte st.ea) v)).nextCycle
  | 4, st => busRead (zext16 (st.iab + 1)) st fun v st => .next (st.setEA (cat v (loByte st.ea))).nextCycle
  | t + 5, st => tail t st
  | _, st => outOfDomain st

/-- The address cycles of a mode, then the tail, whose own cycles count from 0. -/
def addressCycles (m : AddrMode) (fix : Fixup) (tail : Nat → State → Result) : Nat → State → Result :=
  match m with
  | .zp => zpCycles tail
  | .zpx => zpIndexedCycles State.x tail
  | .zpy => zpIndexedCycles State.y tail
  | .abs => absCycles tail
  | .abx => absIndexedCycles State.x fix tail
  | .aby => absIndexedCycles State.y fix tail
  | .izx => izxCycles tail
  | .izy => izyCycles fix tail
  | .izp => izpCycles tail

/-! ## Classes R, W, M -/

/-- Class R: `m <- BusRead(EA); OP(m)`; done. -/
def readTail (op : Byte → State → Result) : Nat → State → Result
  | 0, st => busRead st.ea st fun m st => finish (op m st)
  | _, st => outOfDomain st

/-- Class W: `BusWrite(EA, VAL)`; done. -/
def writeTail (val : State → Byte) : Nat → State → Result
  | 0, st => .next (busWrite st.ea (val st) st).done
  | _, st => outOfDomain st

/-- `TMP <- F(TMP)` with the flag writes of the transform (R111). -/
def transformTmp (f : Transform) (st : State) : State :=
  (st.setTMP (f st.a st.p st.tmp).1).setP (f st.a st.p st.tmp).2

/-- Class M: the read-modify-write tail (R111). -/
def rmwTail (f : Transform) : Nat → State → Result
  | 0, st => busRead st.ea st fun m st => .next (st.setTMP m).nextCycle
  | 1, st => busRead st.ea st fun _ st => .next (transformTmp f st).nextCycle
  | 2, st => .next (busWrite st.ea st.tmp st).done
  | _, st => outOfDomain st

/-- `IMM` (R100). -/
def immediateCycles (op : Byte → State → Result) : Nat → State → Result
  | 2, st => busRead st.pc st fun m st => finish (op m st.incPC)
  | _, st => outOfDomain st

/-- A class R instruction in any of its forms. -/
def readInstr (o : ReadMode) (op : Byte → State → Result) (st : State) : Result :=
  match o with
  | .imm => handler (immediateCycles op) st
  | .mem m => handler (addressCycles m .onCross (readTail op)) st

/-- A class W instruction: the fix-up cycle always runs (R105, R109). -/
def writeInstr (m : AddrMode) (val : State → Byte) (st : State) : Result :=
  handler (addressCycles m .always (writeTail val)) st

/-- A class M instruction in memory. -/
def rmwInstr (m : AddrMode) (fix : Fixup) (f : Transform) (st : State) : Result :=
  handler (addressCycles m fix (rmwTail f)) st

/-! ## Implied, accumulator, push, pull -/

/-- Implied and accumulator, 2 cycles (R112). -/
def impliedCycles (effect : State → State) : Nat → State → Result
  | 2, st => dummyRead st.pc st fun st => .next (effect st).done
  | _, st => outOfDomain st

/-- The accumulator form of a transform: `A <- F(A)`. -/
def transformA (f : Transform) (st : State) : State :=
  (st.setA (f st.a st.p st.a).1).setP (f st.a st.p st.a).2

/-- A shift, rotate, `INC` or `DEC` in any of its forms. -/
def shiftInstr (o : RmwMode) (fix : Fixup) (f : Transform) (st : State) : Result :=
  match o with
  | .acc => handler (impliedCycles (transformA f)) st
  | .mem m => rmwInstr m fix f st

/-- Push, 3 cycles (R113). -/
def pushCycles (val : State → Byte) : Nat → State → Result
  | 2, st => dummyRead st.pc st fun st => .next st.nextCycle
  | 3, st => .next (push (val st) st).done
  | _, st => outOfDomain st

/-- Pull, 4 cycles (R114). -/
def pullCycles (effect : Byte → State → State) : Nat → State → Result
  | 2, st => dummyRead st.pc st fun st => .next st.nextCycle
  | 3, st => dummyRead st.stackAddress st fun st => .next st.incS.nextCycle
  | 4, st => busRead st.stackAddress st fun v st => .next (effect v st).done
  | _, st => outOfDomain st

/-- `WAI` and `STP`, 3 cycles, then another step value (45_stack_flags_system.md R233, R234). -/
def haltCycles (into : StepReg) : Nat → State → Result
  | 2, st => dummyRead st.pc st fun st => .next st.nextCycle
  | 3, st => dummyRead st.pc st fun st => .next (st.setStep into)
  | _, st => outOfDomain st

/-! ## Branches -/

/-- `target <- PC + sext_16(off)`, the page cross, `old <- PC`, `PC <- target` (R115, R116). -/
def State.branchTo (st : State) (off : Byte) : State :=
  (st.setLoc { st.loc with
      old := st.pc, crossed := decide (hiByte (branchTarget st.pc off) ≠ hiByte st.pc) }).setPC
    (branchTarget st.pc off)

/-- The end of a taken branch's cycle: one more cycle only if a page was crossed. -/
def State.branchEnd (st : State) : State := if st.loc.crossed then st.nextCycle else st.done

/-- The fix-up cycle of a taken branch: a discarded read at `{old[15:8], target[7:0]}`, `PC` being the target. -/
def branchFixup (st : State) : Result :=
  dummyRead (cat (hiByte st.loc.old) (loByte st.pc)) st fun st => .next st.done

/-- Relative branch (R115). Not taken, T3 is the opcode fetch of the next instruction, with `PC` left alone. -/
def relativeCycles (cond : Flags → Bool) : Nat → State → Result
  | 2, st => busRead st.pc st fun v st =>
    .next (st.setLoc { st.loc with off := v, taken := cond st.p }).incPC.nextCycle
  | 3, st =>
    if st.loc.taken then dummyRead st.pc st fun st => .next (st.branchTo st.loc.off).branchEnd
    else busSync st.pc st fun v st => .next ((st.setIR (.opcode v)).setStep .awaitPipelinedFetch)
  | 4, st => if st.loc.taken && st.loc.crossed then branchFixup st else outOfDomain st
  | _, st => outOfDomain st

/-- Branch on bit (R116): taken iff bit `n` of the zero-page byte is `want`. -/
def branchBitCycles (n : Nat) (want : Bool) : Nat → State → Result
  | 2, st => fetchZp st
  | 3, st => busRead st.ea st fun v st => .next (st.setTMP v).nextCycle
  | 4, st => dummyRead st.ea st fun st => .next st.nextCycle
  | 5, st => busRead st.pc st fun v st =>
    if st.tmp.getLsbD n == want then .next ((st.setLoc { st.loc with off := v }).incPC.branchTo v).branchEnd
    else .next ((st.setLoc { st.loc with off := v, crossed := false }).incPC).done
  | 6, st => if st.loc.crossed then branchFixup st else outOfDomain st
  | _, st => outOfDomain st

end Sys2Proof.Machine
end

