-- ==== Sys2Proof/Machine/Alu.lean ====
section
/-! DEFINITION. Logic, arithmetic, compare and bit test: 42_alu.md R160 to R168. -/

namespace Sys2Proof.Machine

/-- `ORA` (42_alu.md R160). -/
def execOra (o : ReadMode) (st : State) : Result := readInstr o opOra st

/-- `AND` (R161). -/
def execAnd (o : ReadMode) (st : State) : Result := readInstr o opAnd st

/-- `EOR` (R162). -/
def execEor (o : ReadMode) (st : State) : Result := readInstr o opEor st

/-- `ADC` (R163). -/
def execAdc (o : ReadMode) (st : State) : Result := readInstr o opAdc st

/-- `SBC` (R164). -/
def execSbc (o : ReadMode) (st : State) : Result := readInstr o opSbc st

/-- `CMP` (R165). -/
def execCmp (o : ReadMode) (st : State) : Result := readInstr o (opCompare State.a) st

/-- `CPX` (R166). -/
def execCpx (o : ReadMode) (st : State) : Result := readInstr o (opCompare State.x) st

/-- `CPY` (R167). -/
def execCpy (o : ReadMode) (st : State) : Result := readInstr o (opCompare State.y) st

/-- `OP(m)` of `BIT` by its form (R168). -/
def opBitOf : ReadMode → Byte → State → Result
  | .imm => opBitImm
  | .mem _ => opBit

/-- `BIT` (R168). -/
def execBit (o : ReadMode) (st : State) : Result := readInstr o (opBitOf o) st


end Sys2Proof.Machine
end

