-- ==== Sys2Proof/Machine/Control.lean ====
section
/-! DEFINITION. Branches, jumps and subroutines: 44_control.md R195 to R210. -/

namespace Sys2Proof.Machine

/-- `BPL` (44_control.md R195). -/
def execBpl (st : State) : Result := handler (relativeCycles fun p => !p.n) st

/-- `BMI` (R196). -/
def execBmi (st : State) : Result := handler (relativeCycles fun p => p.n) st

/-- `BVC` (R197). -/
def execBvc (st : State) : Result := handler (relativeCycles fun p => !p.v) st

/-- `BVS` (R198). -/
def execBvs (st : State) : Result := handler (relativeCycles fun p => p.v) st

/-- `BCC` (R199). -/
def execBcc (st : State) : Result := handler (relativeCycles fun p => !p.c) st

/-- `BCS` (R200). -/
def execBcs (st : State) : Result := handler (relativeCycles fun p => p.c) st

/-- `BNE` (R201). -/
def execBne (st : State) : Result := handler (relativeCycles fun p => !p.z) st

/-- `BEQ` (R202). -/
def execBeq (st : State) : Result := handler (relativeCycles fun p => p.z) st

/-- `BRA` (R203): taken whatever the flags are. -/
def execBra (st : State) : Result := handler (relativeCycles fun _ => true) st

/-- `BBR0` (R204). -/
def execBbr0 (st : State) : Result := handler (branchBitCycles 0 false) st

/-- `BBR1` (R204). -/
def execBbr1 (st : State) : Result := handler (branchBitCycles 1 false) st

/-- `BBR2` (R204). -/
def execBbr2 (st : State) : Result := handler (branchBitCycles 2 false) st

/-- `BBR3` (R204). -/
def execBbr3 (st : State) : Result := handler (branchBitCycles 3 false) st

/-- `BBR4` (R204). -/
def execBbr4 (st : State) : Result := handler (branchBitCycles 4 false) st

/-- `BBR5` (R204). -/
def execBbr5 (st : State) : Result := handler (branchBitCycles 5 false) st

/-- `BBR6` (R204). -/
def execBbr6 (st : State) : Result := handler (branchBitCycles 6 false) st

/-- `BBR7` (R204). -/
def execBbr7 (st : State) : Result := handler (branchBitCycles 7 false) st

/-- `BBS0` (R205). -/
def execBbs0 (st : State) : Result := handler (branchBitCycles 0 true) st

/-- `BBS1` (R205). -/
def execBbs1 (st : State) : Result := handler (branchBitCycles 1 true) st

/-- `BBS2` (R205). -/
def execBbs2 (st : State) : Result := handler (branchBitCycles 2 true) st

/-- `BBS3` (R205). -/
def execBbs3 (st : State) : Result := handler (branchBitCycles 3 true) st

/-- `BBS4` (R205). -/
def execBbs4 (st : State) : Result := handler (branchBitCycles 4 true) st

/-- `BBS5` (R205). -/
def execBbs5 (st : State) : Result := handler (branchBitCycles 5 true) st

/-- `BBS6` (R205). -/
def execBbs6 (st : State) : Result := handler (branchBitCycles 6 true) st

/-- `BBS7` (R205). -/
def execBbs7 (st : State) : Result := handler (branchBitCycles 7 true) st

/-- `JMP abs` (R206). -/
def jmpAbsoluteCycles : Nat → State → Result
  | 2, st => fetchLo st
  | 3, st => busRead st.pc st fun v st => .next (st.setPC (cat v st.loc.lo)).done
  | _, st => outOfDomain st

/-- `JMP (abs)` and `JMP (abs,X)` (R207, R208): the pointer is the operand plus the index, its increment a 16-bit add. -/
def jmpIndirectCycles (index : State → Word) : Nat → State → Result
  | 2, st => fetchLo st
  | 3, st => busRead st.pc st fun v st =>
    .next (st.setLoc { st.loc with hi := v, ptr := cat v st.loc.lo + index st }).incPC.nextCycle
  | 4, st => dummyRead st.pc st fun st => .next st.nextCycle
  | 5, st => busRead st.loc.ptr st fun v st => .next (st.setLoc { st.loc with lo := v }).nextCycle
  | 6, st => busRead (st.loc.ptr + 1) st fun v st => .next (st.setPC (cat v st.loc.lo)).done
  | _, st => outOfDomain st

/-- The template of a form of `JMP`. -/
def jmpCycles : JmpMode → Nat → State → Result
  | .abs => jmpAbsoluteCycles
  | .ind => jmpIndirectCycles fun _ => 0
  | .iax => jmpIndirectCycles fun st => zext16 st.x

/-- `JMP` (R206 to R208). -/
def execJmp (m : JmpMode) (st : State) : Result := handler (jmpCycles m) st

/-- `JSR` (R209): the third byte is read after the pushes. -/
def jsrCycles : Nat → State → Result
  | 2, st => fetchLo st
  | 3, st => dummyRead st.stackAddress st fun st => .next st.nextCycle
  | 4, st => .next (push (hiByte st.pc) st).nextCycle
  | 5, st => .next (push (loByte st.pc) st).nextCycle
  | 6, st => busRead st.pc st fun v st => .next (st.setPC (cat v st.loc.lo)).done
  | _, st => outOfDomain st

/-- `JSR` (R209). -/
def execJsr (st : State) : Result := handler jsrCycles st

/-- `RTS` (R210): `PC` is the pulled word plus one. -/
def rtsCycles : Nat → State → Result
  | 2, st => dummyRead st.pc st fun st => .next st.nextCycle
  | 3, st => dummyRead st.stackAddress st fun st => .next st.incS.nextCycle
  | 4, st => busRead st.stackAddress st fun v st => .next (st.setLoc { st.loc with lo := v }).incS.nextCycle
  | 5, st => busRead st.stackAddress st fun v st => .next (st.setPC (cat v st.loc.lo)).nextCycle
  | 6, st => dummyRead st.pc st fun st => .next st.incPC.done
  | _, st => outOfDomain st

/-- `RTS` (R210). -/
def execRts (st : State) : Result := handler rtsCycles st


end Sys2Proof.Machine
end

