-- ==== Sys2Proof/Machine/LoadStore.lean ====
section
/-! DEFINITION. Loads, stores and register transfers: 41_load_store_transfer.md R140 to R152. -/

namespace Sys2Proof.Machine

/-- `LDA` (41_load_store_transfer.md R140). -/
def execLda (o : ReadMode) (st : State) : Result := readInstr o opLda st

/-- `LDX` (R141). -/
def execLdx (o : ReadMode) (st : State) : Result := readInstr o opLdx st

/-- `LDY` (R142). -/
def execLdy (o : ReadMode) (st : State) : Result := readInstr o opLdy st

/-- `STA` (R143). -/
def execSta (m : AddrMode) (st : State) : Result := writeInstr m State.a st

/-- `STX` (R144). -/
def execStx (m : AddrMode) (st : State) : Result := writeInstr m State.x st

/-- `STY` (R145). -/
def execSty (m : AddrMode) (st : State) : Result := writeInstr m State.y st

/-- `STZ` (R146). -/
def execStz (m : AddrMode) (st : State) : Result := writeInstr m (fun _ => 0) st

/-- The flags of the transfers and increments: `setNZ` of the value moved. -/
def State.flagNZ (st : State) (v : Byte) : State := st.setP (st.p.setNZ v)

/-- `TAX` (R147). -/
def execTax (st : State) : Result := handler (impliedCycles fun st => (st.setX st.a).flagNZ st.a) st

/-- `TAY` (R148). -/
def execTay (st : State) : Result := handler (impliedCycles fun st => (st.setY st.a).flagNZ st.a) st

/-- `TXA` (R149). -/
def execTxa (st : State) : Result := handler (impliedCycles fun st => (st.setA st.x).flagNZ st.x) st

/-- `TYA` (R150). -/
def execTya (st : State) : Result := handler (impliedCycles fun st => (st.setA st.y).flagNZ st.y) st

/-- `TSX` (R151). -/
def execTsx (st : State) : Result := handler (impliedCycles fun st => (st.setX st.s).flagNZ st.s) st

/-- `TXS` (R152): no flag is written. -/
def execTxs (st : State) : Result := handler (impliedCycles fun st => st.setS st.x) st


end Sys2Proof.Machine
end

