-- ==== Sys2Proof/Machine/Rmw.lean ====
section
/-! DEFINITION. Shifts, rotates, increments, decrements and memory-bit instructions: 43_rmw_bit.md R175 to R188. -/

namespace Sys2Proof.Machine

/-- `ASL` (43_rmw_bit.md R175). -/
def execAsl (o : RmwMode) (st : State) : Result := shiftInstr o .onCross asl st

/-- `LSR` (R176). -/
def execLsr (o : RmwMode) (st : State) : Result := shiftInstr o .onCross lsr st

/-- `ROL` (R177). -/
def execRol (o : RmwMode) (st : State) : Result := shiftInstr o .onCross rol st

/-- `ROR` (R178). -/
def execRor (o : RmwMode) (st : State) : Result := shiftInstr o .onCross ror st

/-- `INC` (R179): `abs,X` always takes the fix-up cycle (40_engine.md R106). -/
def execInc (o : RmwMode) (st : State) : Result := shiftInstr o .always increment st

/-- `DEC` (R180): `abs,X` always takes the fix-up cycle (40_engine.md R106). -/
def execDec (o : RmwMode) (st : State) : Result := shiftInstr o .always decrement st

/-- `INX` (R181). -/
def execInx (st : State) : Result := handler (impliedCycles fun st => (st.setX (st.x + 1)).setP (st.p.setNZ (st.x + 1))) st

/-- `INY` (R182). -/
def execIny (st : State) : Result := handler (impliedCycles fun st => (st.setY (st.y + 1)).setP (st.p.setNZ (st.y + 1))) st

/-- `DEX` (R183). -/
def execDex (st : State) : Result := handler (impliedCycles fun st => (st.setX (st.x - 1)).setP (st.p.setNZ (st.x - 1))) st

/-- `DEY` (R184). -/
def execDey (st : State) : Result := handler (impliedCycles fun st => (st.setY (st.y - 1)).setP (st.p.setNZ (st.y - 1))) st

/-- `TSB` (R185). -/
def execTsb (m : AddrMode) (st : State) : Result := rmwInstr m .onCross testAndSet st

/-- `TRB` (R186). -/
def execTrb (m : AddrMode) (st : State) : Result := rmwInstr m .onCross testAndReset st

/-- `RMB0` (R187). -/
def execRmb0 (st : State) : Result := rmwInstr .zp .onCross (resetBit 0) st

/-- `RMB1` (R187). -/
def execRmb1 (st : State) : Result := rmwInstr .zp .onCross (resetBit 1) st

/-- `RMB2` (R187). -/
def execRmb2 (st : State) : Result := rmwInstr .zp .onCross (resetBit 2) st

/-- `RMB3` (R187). -/
def execRmb3 (st : State) : Result := rmwInstr .zp .onCross (resetBit 3) st

/-- `RMB4` (R187). -/
def execRmb4 (st : State) : Result := rmwInstr .zp .onCross (resetBit 4) st

/-- `RMB5` (R187). -/
def execRmb5 (st : State) : Result := rmwInstr .zp .onCross (resetBit 5) st

/-- `RMB6` (R187). -/
def execRmb6 (st : State) : Result := rmwInstr .zp .onCross (resetBit 6) st

/-- `RMB7` (R187). -/
def execRmb7 (st : State) : Result := rmwInstr .zp .onCross (resetBit 7) st

/-- `SMB0` (R188). -/
def execSmb0 (st : State) : Result := rmwInstr .zp .onCross (setBit 0) st

/-- `SMB1` (R188). -/
def execSmb1 (st : State) : Result := rmwInstr .zp .onCross (setBit 1) st

/-- `SMB2` (R188). -/
def execSmb2 (st : State) : Result := rmwInstr .zp .onCross (setBit 2) st

/-- `SMB3` (R188). -/
def execSmb3 (st : State) : Result := rmwInstr .zp .onCross (setBit 3) st

/-- `SMB4` (R188). -/
def execSmb4 (st : State) : Result := rmwInstr .zp .onCross (setBit 4) st

/-- `SMB5` (R188). -/
def execSmb5 (st : State) : Result := rmwInstr .zp .onCross (setBit 5) st

/-- `SMB6` (R188). -/
def execSmb6 (st : State) : Result := rmwInstr .zp .onCross (setBit 6) st

/-- `SMB7` (R188). -/
def execSmb7 (st : State) : Result := rmwInstr .zp .onCross (setBit 7) st


end Sys2Proof.Machine
end

