-- ==== Sys2Proof/Machine/Stack.lean ====
section
/-! DEFINITION. Stack, flag and system instructions: 45_stack_flags_system.md R215 to R234; the reserved opcodes: 60_exceptions.md R258. -/

namespace Sys2Proof.Machine

/-- `PHA` (45_stack_flags_system.md R215). -/
def execPha (st : State) : Result := handler (pushCycles State.a) st

/-- `PHP` (R216). -/
def execPhp (st : State) : Result := handler (pushCycles (fun st => st.p.pByte true)) st

/-- `PHX` (R217). -/
def execPhx (st : State) : Result := handler (pushCycles State.x) st

/-- `PHY` (R218). -/
def execPhy (st : State) : Result := handler (pushCycles State.y) st

/-- `PLA` (R219). -/
def execPla (st : State) : Result := handler (pullCycles fun v st => (st.setA v).setP (st.p.setNZ v)) st

/-- `PLP` (R220). -/
def execPlp (st : State) : Result := handler (pullCycles fun v st => st.setP (Flags.ofByte v)) st

/-- `PLX` (R221). -/
def execPlx (st : State) : Result := handler (pullCycles fun v st => (st.setX v).setP (st.p.setNZ v)) st

/-- `PLY` (R222). -/
def execPly (st : State) : Result := handler (pullCycles fun v st => (st.setY v).setP (st.p.setNZ v)) st

/-- `CLC` (R223). -/
def execClc (st : State) : Result := handler (impliedCycles fun st => st.setP { st.p with c := false }) st

/-- `SEC` (R224). -/
def execSec (st : State) : Result := handler (impliedCycles fun st => st.setP { st.p with c := true }) st

/-- `CLI` (R225). -/
def execCli (st : State) : Result := handler (impliedCycles fun st => st.setP { st.p with i := false }) st

/-- `SEI` (R226). -/
def execSei (st : State) : Result := handler (impliedCycles fun st => st.setP { st.p with i := true }) st

/-- `CLV` (R227). -/
def execClv (st : State) : Result := handler (impliedCycles fun st => st.setP { st.p with v := false }) st

/-- `CLD` (R228). -/
def execCld (st : State) : Result := handler (impliedCycles fun st => st.setP { st.p with d := false }) st

/-- `SED` (R229). -/
def execSed (st : State) : Result := handler (impliedCycles fun st => st.setP { st.p with d := true }) st

/-- `NOP` (R230). -/
def execNop (st : State) : Result := handler (impliedCycles fun st => st) st

/-- `BRK` (R231): the signature byte is read and skipped, then the shared entry with `b = 1`. -/
def brkCycles : Nat → State → Result
  | 2, st => busRead st.pc st fun _ st => .next st.incPC.nextCycle
  | t, st => entryCycle 0xFFFE true t st

/-- `BRK` (R231). -/
def execBrk (st : State) : Result := handler brkCycles st

/-- `RTI` (R232). -/
def execRti (st : State) : Result := handler returnCycle st

/-- `WAI` (R233). -/
def execWai (st : State) : Result := handler (haltCycles .waitingForInterrupt) st

/-- `STP` (R234). -/
def execStp (st : State) : Result := handler (haltCycles .stopped) st

/-- A reserved opcode (30_encoding.md R75, 60_exceptions.md R258): fatal in the cycle that first enters its handler, T1 after
a fetch or T2 after a pipelined fetch (40_engine.md R94); any other step is outside its domain (assumption 18). -/
def execReserved (opcode : Byte) (st : State) : Result :=
  match st.stepReg with
  | .executing 0 | .executing 1 => .fault (.reservedOpcode opcode (st.pc - 1) st)
  | _ => outOfDomain st

end Sys2Proof.Machine
end

