-- ==== Sys2Proof/Machine/Engine.lean ====
section
/-! DEFINITION. The per-cycle dispatch (40_engine.md R91): the sampling of the lines, the opcode fetch (R93), the pipelined
dispatch (R94), the idle cycle (R95). What it leaves to be done is one step of the handler that `IR` selects. -/

namespace Sys2Proof.Machine

/-- What the dispatch of a cycle comes to: an idle cycle, one step of the handler of `IR`, or a fault before it. -/
inductive Dispatched where
  | idle (st : State)
  | run (st : State)
  | stop (f : Fault)
  deriving DecidableEq, Repr

/-- `raise ContractViolation(ReservedOpcode)(IR, PC - 1)` if the opcode is in `RESERVED_OPCODES` (R93, R94, 60_exceptions.md
R258). -/
def checkReserved (opcode : Byte) (st : State) : Dispatched :=
  if st.cfg.reservedOpcodes.contains opcode then .stop (.reservedOpcode opcode (st.pc - 1) st) else .run st

/-- The opcode fetch (R93): `IR <- BusSync(PC); PC <- PC + 1; step <- Executing(0)`. -/
def fetchOpcode (st : State) : Dispatched :=
  match readCycle true false st.pc st with
  | .ok (opcode, st) => checkReserved opcode ((st.setIR (.opcode opcode)).incPC.setStep (.executing 0))
  | .error f => .stop f

/-- The pipelined dispatch (R94): `PC <- PC + 1; step <- Executing(1)`, the opcode being in `IR` already. -/
def pipelinedDispatch (st : State) : Dispatched :=
  let st' := st.incPC.setStep (.executing 1)
  match st.ir with
  | .opcode opcode => checkReserved opcode st'
  | _ => .run st'

/-- Start a pseudo-opcode's sequence: `IR <- op; step <- Executing(0)`. `EA`, `IAB` and `TMP` keep what they hold, at an
instruction boundary nobody's value; item 1 of R91 loses them before (assumption 25). -/
def State.enter (st : State) (op : IReg) : State := (st.setIR op).setStep (.executing 0)

/-- Poll NMI: the answer, and the state with the line after the poll (60_exceptions.md R244). -/
def pollNmi (st : State) : Bool × State :=
  let r := st.lines.nmi.shouldInterrupt st.cfg.nmiEdgeCapture
  (r.1, st.setLines { st.lines with nmi := r.2 })

/-- Poll IRQ; a level line keeps no poll state (60_exceptions.md R244). -/
def pollIrq (st : State) : Bool := (st.lines.irq.shouldInterrupt st.cfg.nmiEdgeCapture).1

/-- Poll RST. -/
def pollRst (st : State) : Bool := (st.lines.rst.shouldInterrupt st.cfg.nmiEdgeCapture).1

/-- Items 4 to 8 of R91, at a cycle that begins with `step` neither `Executing` nor `Stopped`; `idle` or the fetch stands for
items 6 to 8. An IRQ that became pending during `BRK` is masked here by the `P.I` that `BRK` set, where the words of
45_stack_flags_system.md R231 have it taken at once (assumption 27). -/
def sampleInterrupts (waiting : Bool) (otherwise : State → Dispatched) (st : State) : Dispatched :=
  let nmi := pollNmi st
  if nmi.1 then .run (nmi.2.enter .nmiOp)
  else if pollIrq nmi.2 && (!nmi.2.p.i || waiting) then .run (nmi.2.enter .irqOp)
  else otherwise nmi.2

/-- The dispatch list of R91, in its order. -/
def dispatch (st : State) : Dispatched :=
  if pollRst st then .run (st.loseScratch.enter .rstOp)
  else
    match st.stepReg with
    | .stopped => .idle st
    | .executing _ => .run st
    | .waitingForInterrupt => sampleInterrupts true .idle st
    | .awaitFetch => sampleInterrupts false fetchOpcode st
    | .awaitPipelinedFetch => sampleInterrupts false pipelinedDispatch st

end Sys2Proof.Machine
end

