-- ==== Sys2Proof/Machine/Step.lean ====
section
/-! DEFINITION. The step of the machine: ONE clock cycle (40_engine.md R90), that is the dispatch of R91 and then, unless the
cycle is idle, one step of the handler that `IR` selects (R96). Placing an instruction for the next fetch. -/

namespace Sys2Proof.Machine

/-- One step of `handler[IR]` (R91, R96). `RESERVED_OPCODES` is looked at by the dispatch only: a documented opcode in it that
an inspector puts in the middle of its template goes on with that template (assumption 26). -/
def runHandler (s : State) : Host.Outcome State Fault Refusal :=
  match s.ir with
  | .opcode b => exec (decodeOpcode b) s
  | .nmiOp => nmiSequence s
  | .irqOp => irqSequence s
  | .rstOp => rstSequence s

/-- What a dispatched cycle comes to. -/
def finishCycle : Dispatched → Host.Outcome State Fault Refusal
  | .idle s => .next s
  | .run s => runHandler s
  | .stop f => .fault f

/-- One clock cycle, `Cycle()` of R91. -/
def step (s : State) : Host.Outcome State Fault Refusal := finishCycle (dispatch s)

/-- `s` with the instruction whose bits are `w` placed at `PC`, and ready to fetch it in the very next cycle (assumption 9):
the bytes from `nbits` up, to the three of the longest instruction, are zero. -/
def State.withFetchWord (s : State) (nbits w : Nat) : State :=
  let v := w % 2 ^ nbits
  (((s.poke s.pc (tableByte v 0)).poke (s.pc + 1) (tableByte v 1)).poke (s.pc + 2) (tableByte v 2)).readyToFetch

end Sys2Proof.Machine
end

