-- ==== Sys2Proof/Machine/Environment.lean ====
section
/-! DEFINITION. The host's side of the contract: what may be done to the block between two cycles (70_reset_and_hazards.md
R293 to R295, 20_memory.md R48), the debug surface (60_exceptions.md R274), and runs that mix cycles and host actions. -/

namespace Sys2Proof.Machine

/-- An inspector's write to a register of the block (70_reset_and_hazards.md R294). -/
inductive InspectorWrite where
  | a (v : Byte)
  | x (v : Byte)
  | y (v : Byte)
  | s (v : Byte)
  | pc (v : Word)
  /-- The byte view of `P`; bits 5 and 4 reach no state (10_state.md R13). -/
  | p (v : Byte)
  | ir (v : IReg)
  | step (v : StepReg)
  | ea (v : Word)
  | iab (v : Byte)
  | tmp (v : Byte)
  deriving DecidableEq, Repr

/-- What the host may do between two cycles: a line action (60_exceptions.md R241, R242), a change of the device list by
appending or removing (20_memory.md R48), a byte placed in a RAM, an inspector's write. -/
inductive HostAction where
  | line (action : LineAction)
  | appendDevice (d : Device)
  | removeDevice (index : Nat)
  | placeByte (address : Word) (v : Byte)
  | write (w : InspectorWrite)
  deriving DecidableEq, Repr

/-- The state after an inspector's write: the next cycle runs from it as if it had arisen by execution (R294). -/
def State.inspect (st : State) : InspectorWrite → State
  | .a v => st.setA v
  | .x v => st.setX v
  | .y v => st.setY v
  | .s v => st.setS v
  | .pc v => st.setPC v
  | .p v => st.setP (Flags.ofByte v)
  | .ir v => st.setIR v
  | .step v => st.setStep v
  | .ea v => st.setEA v
  | .iab v => st.setIAB v
  | .tmp v => st.setTMP v

/-- The state after a host action. -/
def State.hostAct (st : State) : HostAction → State
  | .line action => st.setLines (st.lines.act st.cfg.nmiEdgeCapture action)
  | .appendDevice d => st.setDevices (st.devices ++ [d])
  | .removeDevice index => st.setDevices (st.devices.eraseIdx index)
  | .placeByte address v => st.poke address v
  | .write w => st.inspect w

/-- What happens to the block, in order: the host's clock ticks, or the host acts between two cycles. -/
inductive Event where
  | cycle
  | host (action : HostAction)
  deriving DecidableEq, Repr

/-- A run over a list of events; a fault or a refusal ends it (R293). -/
def runEvents : List Event → State → Result
  | [], st => .next st
  | .host action :: rest, st => runEvents rest (st.hostAct action)
  | .cycle :: rest, st =>
    match step st with
    | .next st' => runEvents rest st'
    | .fault f => .fault f
    | .refused r => .refused r

/-- The debug surface (60_exceptions.md R274): the public register fields. -/
structure DebugView where
  a : Byte
  x : Byte
  y : Byte
  s : Byte
  p : Byte
  pc : Word
  deriving DecidableEq, Repr

/-- The debug field `p`: the six flags at their masks, bits 5 and 4 unspecified (a free value, assumption 21). -/
def State.debugP (st : State) : Byte :=
  flagBit st.p.n ++ flagBit st.p.v ++ Config.debugBits st.freeIdx
    ++ flagBit st.p.d ++ flagBit st.p.i ++ flagBit st.p.z ++ flagBit st.p.c

/-- The debug surface of a state. -/
def State.debugView (st : State) : DebugView := ⟨st.a, st.x, st.y, st.s, st.debugP, st.pc⟩

end Sys2Proof.Machine
end

