-- ==== Sys2Proof/Safety.lean ====
section
/-! DEFINITION. The terms claims use: how many cycles a template has (40_engine.md R126), when a step register is in its domain
(R96), the invariant every step keeps, quiet machines over one RAM, the store and the read of each cycle, and the flags and bytes read
from a state. -/

namespace Sys2Proof.Machine

/-! ## Cycle counts -/

/-- One more cycle if the fix-up cycle runs. -/
def fixCycles (fix : Fixup) (loc : Locals) : Nat := if fixes fix loc then 1 else 0

/-- The number of the cycle that follows the address cycles of a mode: its data cycle, or the first of the RMW tail. -/
def dataCycle (m : AddrMode) (fix : Fixup) (loc : Locals) : Nat :=
  match m with
  | .zp => 3
  | .zpx | .zpy => 4
  | .abs => 4
  | .abx | .aby => 4 + fixCycles fix loc
  | .izx => 6
  | .izy => 5 + fixCycles fix loc
  | .izp => 5

/-- The last cycle of a class R form. -/
def readLast (o : ReadMode) (loc : Locals) : Nat :=
  match o with
  | .imm => 2
  | .mem m => dataCycle m .onCross loc

/-- The last cycle of a class W form. -/
def writeLast (m : AddrMode) (loc : Locals) : Nat := dataCycle m .always loc

/-- The last cycle of a class M form in memory. -/
def rmwLast (m : AddrMode) (fix : Fixup) (loc : Locals) : Nat := dataCycle m fix loc + 2

/-- The last cycle of a shift, rotate, `INC` or `DEC`. -/
def shiftLast (o : RmwMode) (fix : Fixup) (loc : Locals) : Nat :=
  match o with
  | .acc => 2
  | .mem m => rmwLast m fix loc

/-- The number of the last cycle of an instruction's template (R126), given the page cross and the branch decision its
cycles have found so far. For an untaken relative branch it is the cycle of the prefetch, which is T1 of the next
instruction (R94). A reserved opcode is entered at T1 or T2 (R93, R94). -/
def lastCycle (i : Instr) (loc : Locals) : Nat :=
  match i with
  | .lda o | .ldx o | .ldy o | .ora o | .and o | .eor o | .adc o | .sbc o | .cmp o | .cpx o | .cpy o | .bit o =>
    readLast o loc
  | .sta m | .stx m | .sty m | .stz m => writeLast m loc
  | .tax | .tay | .txa | .tya | .tsx | .txs | .inx | .iny | .dex | .dey => 2
  | .asl o | .lsr o | .rol o | .ror o => shiftLast o .onCross loc
  | .inc o | .dec o => shiftLast o .always loc
  | .tsb m | .trb m => rmwLast m .onCross loc
  | .rmb0 | .rmb1 | .rmb2 | .rmb3 | .rmb4 | .rmb5 | .rmb6 | .rmb7 => 5
  | .smb0 | .smb1 | .smb2 | .smb3 | .smb4 | .smb5 | .smb6 | .smb7 => 5
  | .bpl | .bmi | .bvc | .bvs | .bcc | .bcs | .bne | .beq | .bra => if loc.taken && loc.crossed then 4 else 3
  | .bbr0 | .bbr1 | .bbr2 | .bbr3 | .bbr4 | .bbr5 | .bbr6 | .bbr7 => if loc.crossed then 6 else 5
  | .bbs0 | .bbs1 | .bbs2 | .bbs3 | .bbs4 | .bbs5 | .bbs6 | .bbs7 => if loc.crossed then 6 else 5
  | .jmp .abs => 3
  | .jmp .ind | .jmp .iax | .jsr | .rts | .rti => 6
  | .pha | .php | .phx | .phy => 3
  | .pla | .plp | .plx | .ply => 4
  | .clc | .sec | .cli | .sei | .clv | .cld | .sed | .nop => 2
  | .brk => 7
  | .wai | .stp => 3
  | .reserved _ => 2

/-- The last cycle of the handler that `IR` selects; the three sequences have seven (60_exceptions.md R249 to R251). -/
def handlerLast (ir : IReg) (loc : Locals) : Nat :=
  match ir with
  | .opcode b => lastCycle (decodeOpcode b) loc
  | .nmiOp | .irqOp | .rstOp => 7

/-- A running handler stands at a cycle of its template (R96). -/
def StepInDomain (st : State) : Prop :=
  match st.stepReg with
  | .executing n => n + 1 ≤ handlerLast st.ir st.loc
  | .awaitPipelinedFetch => ∃ b, st.ir = .opcode b
  | _ => True

/-! ## The invariant -/

/-- A device's plain memory is canonical. -/
def Device.wf (d : Device) : Prop :=
  match d.body with
  | .ram mem | .rom mem => Memory.wf mem
  | _ => True

/-- A line is as it can become: its requester set is a set, and only an edge line has a latch (10_state.md R19, R23). -/
def InterruptLine.wf (l : InterruptLine) : Prop :=
  l.requesters.Pairwise (· < ·) ∧ (l.edgeTriggered = false → l.latchedSinceEdge = false)

/-- The three lines are lines, NMI edge-triggered, IRQ and RST level-triggered (60_exceptions.md R240). -/
def Lines.wf (ls : Lines) : Prop :=
  ls.nmi.wf ∧ ls.irq.wf ∧ ls.rst.wf
    ∧ ls.nmi.edgeTriggered = true ∧ ls.irq.edgeTriggered = false ∧ ls.rst.edgeTriggered = false

/-- `sync` and `vector_pull` are never both true, and neither is true on a write (20_memory.md R43). -/
def BusSignals.wf (b : BusSignals) : Prop :=
  ¬(b.sync = true ∧ b.vectorPull = true) ∧ (b.readWrite = false → b.sync = false ∧ b.vectorPull = false)

/-- The invariant of the machine: every plain memory canonical, the lines lines, the markers of the bus as R43 says, and a
running handler inside its domain. -/
def Inv (st : State) : Prop :=
  (∀ d ∈ st.devices, d.wf) ∧ st.lines.wf ∧ st.bus.wf ∧ StepInDomain st

/-! ## What a bus cycle may change -/

/-- Everything of the CPU is the same: every register, flag and scratch value, `IR`, `step` and the parameters. A bus cycle
changes only the signals, the driver count, the devices and, through the devices' requests, the lines; a free dummy address
is counted. -/
structure SameCpu (st st' : State) : Prop where
  a : st'.a = st.a
  x : st'.x = st.x
  y : st'.y = st.y
  s : st'.s = st.s
  pc : st'.pc = st.pc
  p : st'.p = st.p
  ir : st'.ir = st.ir
  stepReg : st'.stepReg = st.stepReg
  ea : st'.ea = st.ea
  iab : st'.iab = st.iab
  tmp : st'.tmp = st.tmp
  loc : st'.loc = st.loc
  cfg : st'.cfg = st.cfg

/-- Every byte of every RAM on the bus is the same. -/
def SameRam (st st' : State) : Prop := ∀ k address, st'.ramByte k address = st.ramByte k address

/-- What holds of the devices, the lines and the bus in `Inv`. -/
def SurroundingsWf (st : State) : Prop := (∀ d ∈ st.devices, d.wf) ∧ st.lines.wf ∧ st.bus.wf

/-! ## Quiet machines -/

/-- Nobody asserts a line and no edge is pending. -/
def Lines.quiet (ls : Lines) : Prop :=
  ls.rst.triggered = false ∧ ls.irq.triggered = false ∧ ls.nmi.triggered = false ∧ ls.nmi.latchedSinceEdge = false

/-- The convention of 95_test_vectors.md section 0: one RAM over the whole space, all parameters at their defaults. -/
def OverRam (mem : Memory) (st : State) : Prop :=
  st.devices = [.fullRam mem] ∧ st.cfg = .default ∧ st.lines.wf

/-- A run of `n` cycles that ends in a state with a property. -/
def RunsTo (n : Nat) (st : State) (post : State → Prop) : Prop :=
  ∃ t, Host.Core.run Sys2Proof.core n st = .next t ∧ post t

/-- The same memory with one byte written through the bus. -/
def Memory.store (mem : Memory) (address : Word) (v : Byte) : Memory := mem.write address.toNat v

/-- The byte a memory holds at a bus address. -/
def Memory.load (mem : Memory) (address : Word) : Byte := mem.read address.toNat

/-! ## One cycle of a handler -/

/-- The machine stands at cycle Tk of the running handler, k at least 2 (40_engine.md R92). -/
def AtT (k : Nat) (st : State) : Prop := 2 ≤ k ∧ st.stepReg = .executing (k - 1)

/-- `BusRead(address)` is answered with the byte `v` and leaves `u`. -/
def Answers (address : Word) (st : State) (v : Byte) (u : State) : Prop :=
  readCycle false false address st = .ok (v, u)

/-- `BusSync(address)` is answered with the byte `v` and leaves `u`. -/
def AnswersSync (address : Word) (st : State) (v : Byte) (u : State) : Prop :=
  readCycle true false address st = .ok (v, u)

/-- `BusVec(address)` is answered with the byte `v` and leaves `u`. -/
def AnswersVec (address : Word) (st : State) (v : Byte) (u : State) : Prop :=
  readCycle false true address st = .ok (v, u)

/-- A discarded read whose decided address is `decided` is answered, and leaves `u`. -/
def AnswersDummy (decided : Word) (st u : State) : Prop :=
  ∃ v, Answers (dummyAddress decided st).1 (dummyAddress decided st).2 v u

/-- Where a class R instruction finds its operand in its last cycle: at `PC` (R100) or at `EA` (R101 to R110). -/
def operandAddress (o : ReadMode) (st : State) : Word :=
  match o with
  | .imm => st.pc
  | .mem _ => st.ea

/-- The state after the operand byte has been read: an immediate operand has been passed over. -/
def afterOperand (o : ReadMode) (st : State) : State :=
  match o with
  | .imm => st.setPC (st.pc + 1)
  | .mem _ => st

/-- The flags with N and Z of a byte: bit 7, and whether it is zero (R120). -/
def nzOf (p : Flags) (r : Byte) : Flags := { p with n := r.msb, z := r == 0 }

/-- A carry as a byte. -/
def carryByte (c : Bool) : Byte := if c then 1 else 0

/-- The last cycle of a class R instruction: at the cycle its form ends in, the operand byte being answered, `exec` answers
the state in which `effect` has been applied and the next cycle is a fetch. -/
def ReadEnds (i : ReadMode → Instr) (effect : ReadMode → Byte → State → State → State) : Prop :=
  ∀ o s m u, AtT (readLast o s.loc) s → Answers (operandAddress o s) s m u →
    exec (i o) s = .next ((effect o m s (afterOperand o u)).setStep .awaitFetch)

/-- The one cycle after the fetch of a two-cycle instruction (R112): a discarded read at `PC`, then `effect`. -/
def ImpliedEnds (i : Instr) (effect : State → State → State) : Prop :=
  ∀ s u, AtT 2 s → AnswersDummy s.pc s u → exec i s = .next ((effect s u).setStep .awaitFetch)

/-- The last cycle of a class W instruction: one write cycle at `EA` (R101 to R110). -/
def WriteEnds (i : AddrMode → Instr) (val : State → Byte) : Prop :=
  ∀ m s, AtT (writeLast m s.loc) s → exec (i m) s = .next ((busWrite s.ea (val s) s).setStep .awaitFetch)

/-- The three cycles of the read-modify-write tail (R111), from the cycle `first s`: a read into `TMP`; a second read, whose
byte is dropped, with the transform of `TMP`; a write of `TMP`. All three are at `EA`. -/
def RmwEnds (i : Instr) (first : State → Nat) (f : Transform) : Prop :=
  (∀ s m u, AtT (first s) s → Answers s.ea s m u →
    exec i s = .next ((u.setTMP m).setStep (.executing (first s))))
  ∧ (∀ s m u, AtT (first s + 1) s → Answers s.ea s m u →
    exec i s = .next (((u.setTMP (f s.a s.p s.tmp).1).setP (f s.a s.p s.tmp).2).setStep (.executing (first s + 1))))
  ∧ (∀ s, AtT (first s + 2) s → exec i s = .next ((busWrite s.ea s.tmp s).setStep .awaitFetch))

/-- A discarded read at `PC`, which stays, in the second cycle of an instruction; its handler goes on. -/
def SecondCycleDiscards (i : Instr) : Prop :=
  ∀ s u, AtT 2 s → AnswersDummy s.pc s u → exec i s = .next (u.setStep (.executing 2))

/-- A push (R113): the discarded read at `PC`; the write at `{0x01, S}`, then the decrement. -/
def PushRuns (i : Instr) (val : State → Byte) : Prop :=
  SecondCycleDiscards i
  ∧ ∀ s, AtT 3 s →
    exec i s = .next (((busWrite (cat 0x01 s.s) (val s) s).setS (s.s - 1)).setStep .awaitFetch)

/-- A pull (R114): the discarded read at `PC`; a discarded read at `{0x01, S}` and the increment; the read at `{0x01, S}`
and the effect. -/
def PullRuns (i : Instr) (effect : Byte → State → State → State) : Prop :=
  SecondCycleDiscards i
  ∧ (∀ s u, AtT 3 s → AnswersDummy (cat 0x01 s.s) s u → exec i s = .next ((u.setS (s.s + 1)).setStep (.executing 3)))
  ∧ (∀ s v u, AtT 4 s → Answers (cat 0x01 s.s) s v u →
    exec i s = .next ((effect v s u).setStep .awaitFetch))

/-- A relative branch (R115): T2 reads the offset and evaluates the condition; T3 of an untaken branch is the fetch of the next
opcode, `PC` left alone; T3 of a taken one moves `PC` and ends it, unless a page is crossed; then T4 ends it. -/
def BranchRuns (i : Instr) (cond : Flags → Bool) : Prop :=
  (∀ s off u, AtT 2 s → Answers s.pc s off u →
    exec i s = .next (((u.setLoc { s.loc with off := off, taken := cond s.p }).setPC (s.pc + 1)).setStep (.executing 2)))
  ∧ (∀ s op u, AtT 3 s → s.loc.taken = false → AnswersSync s.pc s op u →
    exec i s = .next ((u.setIR (.opcode op)).setStep .awaitPipelinedFetch))
  ∧ (∀ s u, AtT 3 s → s.loc.taken = true → AnswersDummy s.pc s u →
    let target := s.pc + sext16 s.loc.off
    let crossed := decide (hiByte target ≠ hiByte s.pc)
    exec i s = .next (((u.setLoc { s.loc with old := s.pc, crossed := crossed }).setPC target).setStep
      (if crossed then .executing 3 else .awaitFetch)))
  ∧ (∀ s u, AtT 4 s → s.loc.taken = true → s.loc.crossed = true →
    AnswersDummy (cat (hiByte s.loc.old) (loByte s.pc)) s u → exec i s = .next (u.setStep .awaitFetch))

/-- A branch on bit (R116), every cycle from T2: the zero-page address into `EA`; the byte there into `TMP`; a discarded read
there; the offset and the decision, on bit `n` of `TMP`; and T6 if a page was crossed. -/
def BitBranchRuns (i : Instr) (n : Nat) (want : Bool) : Prop :=
  (∀ s v u, AtT 2 s → Answers s.pc s v u →
    exec i s = .next (((u.setEA (zext16 v)).setPC (s.pc + 1)).setStep (.executing 2)))
  ∧ (∀ s u, AtT 4 s → AnswersDummy s.ea s u → exec i s = .next (u.setStep (.executing 4)))
  ∧ (∀ s v u, AtT 3 s → Answers s.ea s v u → exec i s = .next ((u.setTMP v).setStep (.executing 3)))
  ∧ (∀ s off u, AtT 5 s → Answers s.pc s off u → s.tmp.getLsbD n ≠ want →
    exec i s = .next (((u.setLoc { s.loc with off := off, crossed := false }).setPC (s.pc + 1)).setStep .awaitFetch))
  ∧ (∀ s off u, AtT 5 s → Answers s.pc s off u → s.tmp.getLsbD n = want →
    let target := s.pc + 1 + sext16 off
    let crossed := decide (hiByte target ≠ hiByte (s.pc + 1))
    exec i s = .next (((u.setLoc { s.loc with off := off, old := s.pc + 1, crossed := crossed }).setPC target).setStep
      (if crossed then .executing 5 else .awaitFetch)))
  ∧ (∀ s u, AtT 6 s → s.loc.crossed = true → AnswersDummy (cat (hiByte s.loc.old) (loByte s.pc)) s u →
    exec i s = .next (u.setStep .awaitFetch))

/-! ## Addresses, as functions of memory -/

/-- The mode and the fix-up rule of an instruction of class R, W or M in memory (R100 to R111): the stores, `INC` and `DEC`
always take the fix-up cycle. -/
def memoryForm : Instr → Option (AddrMode × Fixup)
  | .lda (.mem m) | .ldx (.mem m) | .ldy (.mem m) | .ora (.mem m) | .and (.mem m) | .eor (.mem m) | .adc (.mem m)
  | .sbc (.mem m) | .cmp (.mem m) | .cpx (.mem m) | .cpy (.mem m) | .bit (.mem m) => some (m, .onCross)
  | .sta m | .stx m | .sty m | .stz m => some (m, .always)
  | .asl (.mem m) | .lsr (.mem m) | .rol (.mem m) | .ror (.mem m) => some (m, .onCross)
  | .inc (.mem m) | .dec (.mem m) => some (m, .always)
  | .tsb m | .trb m => some (m, .onCross)
  | .rmb0 | .rmb1 | .rmb2 | .rmb3 | .rmb4 | .rmb5 | .rmb6 | .rmb7 => some (.zp, .onCross)
  | .smb0 | .smb1 | .smb2 | .smb3 | .smb4 | .smb5 | .smb6 | .smb7 => some (.zp, .onCross)
  | _ => none

/-- The effective address a mode forms over a plain memory, from the index registers and the operand bytes (20_memory.md R49,
R54; 40_engine.md R101 to R110). -/
def effectiveAddress (mem : Memory) (m : AddrMode) (x y b1 b2 : Byte) : Word :=
  match m with
  | .zp => zext16 b1
  | .zpx => zext16 (b1 + x)
  | .zpy => zext16 (b1 + y)
  | .abs => cat b2 b1
  | .abx => cat b2 b1 + zext16 x
  | .aby => cat b2 b1 + zext16 y
  | .izx => cat (mem.load (zext16 (b1 + x + 1))) (mem.load (zext16 (b1 + x)))
  | .izy => cat (mem.load (zext16 (b1 + 1))) (mem.load (zext16 b1)) + zext16 y
  | .izp => cat (mem.load (zext16 (b1 + 1))) (mem.load (zext16 b1))

/-- Whether the index carries the address into another page (40_engine.md R118): its high byte is not the one before the
index was added. -/
def crossesPage (mem : Memory) (m : AddrMode) (x y b1 b2 : Byte) : Bool :=
  match m with
  | .abx | .aby => decide (hiByte (effectiveAddress mem m x y b1 b2) ≠ b2)
  | .izy => decide (hiByte (effectiveAddress mem m x y b1 b2) ≠ mem.load (zext16 (b1 + 1)))
  | _ => false

/-- The number of the cycle that follows the address cycles, given whether a page is crossed. -/
def dataCycleOf (m : AddrMode) (fix : Fixup) (crossed : Bool) : Nat :=
  dataCycle m fix ⟨0, 0, 0, 0, 0, crossed, false⟩

/-! ## Frames -/

/-- The instructions that write `A` (10_state.md R10). -/
def writesA : Instr → Bool
  | .lda _ | .txa | .tya | .pla | .ora _ | .and _ | .eor _ | .adc _ | .sbc _ => true
  | .asl o | .lsr o | .rol o | .ror o | .inc o | .dec o => decide (o = .acc)
  | _ => false

/-- The instructions that write `X` (R10). -/
def writesX : Instr → Bool
  | .ldx _ | .tax | .tsx | .plx | .inx | .dex => true
  | _ => false

/-- The instructions that write `Y` (R10). -/
def writesY : Instr → Bool
  | .ldy _ | .tay | .ply | .iny | .dey => true
  | _ => false

/-- The instructions that write `S` (10_state.md R11). -/
def writesS : Instr → Bool
  | .txs | .pha | .php | .phx | .phy | .pla | .plp | .plx | .ply | .jsr | .rts | .rti | .brk => true
  | _ => false

/-- The instructions that write `P.N` (10_state.md R14). -/
def writesN : Instr → Bool
  | .lda _ | .ldx _ | .ldy _ | .tax | .tay | .txa | .tya | .tsx | .pla | .plx | .ply => true
  | .ora _ | .and _ | .eor _ | .adc _ | .sbc _ | .cmp _ | .cpx _ | .cpy _ => true
  | .asl _ | .lsr _ | .rol _ | .ror _ | .inc _ | .dec _ | .inx | .iny | .dex | .dey | .plp | .rti => true
  | .bit o => decide (o ≠ .imm)
  | _ => false

/-- The instructions that write `P.V` (R14). -/
def writesV : Instr → Bool
  | .adc _ | .sbc _ | .clv | .plp | .rti => true
  | .bit o => decide (o ≠ .imm)
  | _ => false

/-- The instructions that write `P.D` (R14). -/
def writesD : Instr → Bool
  | .sed | .cld | .plp | .rti | .brk => true
  | _ => false

/-- The instructions that write `P.I` (R14). -/
def writesI : Instr → Bool
  | .sei | .cli | .plp | .rti | .brk => true
  | _ => false

/-- The instructions that write `P.Z` (R14). -/
def writesZ : Instr → Bool
  | .bit _ | .tsb _ | .trb _ => true
  | i => writesN i

/-- The instructions that write `P.C` (R14). -/
def writesC : Instr → Bool
  | .adc _ | .sbc _ | .cmp _ | .cpx _ | .cpy _ | .asl _ | .lsr _ | .rol _ | .ror _ | .clc | .sec | .plp | .rti => true
  | _ => false

/-- Only the relative branches end in a prefetch that writes `IR` (40_engine.md R94, R115). -/
def prefetches : Instr → Bool
  | .bpl | .bmi | .bvc | .bvs | .bcc | .bcs | .bne | .beq | .bra => true
  | _ => false

/-- The byte value a class W instruction stores (41_load_store_transfer.md R143 to R146). -/
def storeValue (s : State) : Instr → Byte
  | .sta _ => s.a
  | .stx _ => s.x
  | .sty _ => s.y
  | _ => 0

/-- What cycle T of an instruction stores, if it is a write cycle: the address and the byte. -/
def storeAt (i : Instr) (t : Nat) (s : State) : Option (Word × Byte) :=
  match i with
  | .sta m | .stx m | .sty m | .stz m => if t = writeLast m s.loc then some (s.ea, storeValue s i) else none
  | .asl (.mem _) | .lsr (.mem _) | .rol (.mem _) | .ror (.mem _) | .inc (.mem _) | .dec (.mem _) | .tsb _ | .trb _
  | .rmb0 | .rmb1 | .rmb2 | .rmb3 | .rmb4 | .rmb5 | .rmb6 | .rmb7
  | .smb0 | .smb1 | .smb2 | .smb3 | .smb4 | .smb5 | .smb6 | .smb7 =>
    if t = lastCycle i s.loc then some (s.ea, s.tmp) else none
  | .pha => if t = 3 then some (s.stackAddress, s.a) else none
  | .php => if t = 3 then some (s.stackAddress, s.p.pByte true) else none
  | .phx => if t = 3 then some (s.stackAddress, s.x) else none
  | .phy => if t = 3 then some (s.stackAddress, s.y) else none
  | .jsr =>
    if t = 4 then some (s.stackAddress, hiByte s.pc)
    else if t = 5 then some (s.stackAddress, loByte s.pc)
    else none
  | .brk =>
    if t = 3 then some (s.stackAddress, hiByte s.pc)
    else if t = 4 then some (s.stackAddress, loByte s.pc)
    else if t = 5 then some (s.stackAddress, s.p.pByte true)
    else none
  | _ => none

/-- What this cycle of an instruction stores. -/
def storeOf (i : Instr) (s : State) : Option (Word × Byte) :=
  match s.stepReg with
  | .executing n => storeAt i (n + 1) s
  | _ => none

/-- A device that requests nothing on the lines. -/
def Device.linesQuiet (d : Device) : Bool :=
  match d.body with
  | .ram _ | .rom _ | .constant _ => true
  | _ => false

/-! ## The read of a cycle -/

/-- A read cycle by its kind (20_memory.md R43, 40_engine.md R117); a dummy read by its decided address. -/
inductive ReadCycle where
  | plain (address : Word)
  | sync (address : Word)
  | vec (address : Word)
  | dummy (decided : Word)
  deriving DecidableEq, Repr

/-- The read cycle performed. -/
def ReadCycle.perform (r : ReadCycle) (s : State) : Except Fault (Byte × State) :=
  match r with
  | .plain a => readCycle false false a s
  | .sync a => readCycle true false a s
  | .vec a => readCycle false true a s
  | .dummy a => readCycle false false (dummyAddress a s).1 (dummyAddress a s).2

/-- The reads from the fix-up cycle of an indexed mode on: the fix-up cycle if it runs, then the tail's. -/
def indexedReads (fix : Fixup) (idx : Byte) (s : State) (tail : Nat → Option ReadCycle) : Nat → Option ReadCycle
  | 0 => if fixes fix s.loc then some (.dummy (cat s.loc.hi (s.loc.lo + idx))) else tail 0
  | j + 1 => if fixes fix s.loc then tail j else tail (j + 1)

/-- The read of cycle T of a mode's template (R101 to R110); `tail j` is the read of the tail's cycle `j`. -/
def modeRead (m : AddrMode) (fix : Fixup) (s : State) (tail : Nat → Option ReadCycle) (t : Nat) : Option ReadCycle :=
  match m, t with
  | _, 2 => some (.plain s.pc)
  | .zp, j + 3 => tail j
  | .zpx, 3 | .zpy, 3 => some (.dummy s.ea)
  | .zpx, j + 4 | .zpy, j + 4 => tail j
  | .abs, 3 => some (.plain s.pc)
  | .abs, j + 4 => tail j
  | .abx, 3 | .aby, 3 => some (.plain s.pc)
  | .abx, j + 4 => indexedReads fix s.x s tail j
  | .aby, j + 4 => indexedReads fix s.y s tail j
  | .izx, 3 => some (.dummy (zext16 s.iab))
  | .izx, 4 | .izy, 3 | .izp, 3 => some (.plain (zext16 s.iab))
  | .izx, 5 | .izy, 4 | .izp, 4 => some (.plain (zext16 (s.iab + 1)))
  | .izx, j + 6 | .izp, j + 5 => tail j
  | .izy, j + 5 => indexedReads fix s.y s tail j
  | _, _ => none

/-- The one read of a class R tail, at `EA`. -/
def operandRead (s : State) : Nat → Option ReadCycle
  | 0 => some (.plain s.ea)
  | _ => none

/-- The two reads of the RMW tail, at `EA` (R111). -/
def rmwRead (s : State) : Nat → Option ReadCycle
  | 0 | 1 => some (.plain s.ea)
  | _ => none

/-- The reads of the templates that address no memory operand: immediate (R100), implied (R112), push (R113), pull (R114), the
two branches (R115, R116), the jumps, `JSR` and `RTS` (44_control.md R206 to R210), `BRK`, `RTI`, `WAI` and `STP`
(45_stack_flags_system.md R231 to R234), each by the cycle. -/
def immediateRead (s : State) : Nat → Option ReadCycle
  | 2 => some (.plain s.pc)
  | _ => none
def impliedRead (s : State) : Nat → Option ReadCycle
  | 2 => some (.dummy s.pc)
  | _ => none
def pullRead (s : State) : Nat → Option ReadCycle
  | 2 => some (.dummy s.pc)
  | 3 => some (.dummy (cat 0x01 s.s))
  | 4 => some (.plain (cat 0x01 s.s))
  | _ => none
def haltRead (s : State) : Nat → Option ReadCycle
  | 2 | 3 => some (.dummy s.pc)
  | _ => none
def relativeRead (s : State) : Nat → Option ReadCycle
  | 2 => some (.plain s.pc)
  | 3 => some (if s.loc.taken then .dummy s.pc else .sync s.pc)
  | 4 => if s.loc.taken && s.loc.crossed then some (.dummy (cat (hiByte s.loc.old) (loByte s.pc))) else none
  | _ => none
def bitBranchRead (s : State) : Nat → Option ReadCycle
  | 2 | 5 => some (.plain s.pc)
  | 3 => some (.plain s.ea)
  | 4 => some (.dummy s.ea)
  | 6 => if s.loc.crossed then some (.dummy (cat (hiByte s.loc.old) (loByte s.pc))) else none
  | _ => none
def jmpAbsoluteRead (s : State) : Nat → Option ReadCycle
  | 2 | 3 => some (.plain s.pc)
  | _ => none
def jmpIndirectRead (s : State) : Nat → Option ReadCycle
  | 2 | 3 => some (.plain s.pc)
  | 4 => some (.dummy s.pc)
  | 5 => some (.plain s.loc.ptr)
  | 6 => some (.plain (s.loc.ptr + 1))
  | _ => none
def jsrRead (s : State) : Nat → Option ReadCycle
  | 2 | 6 => some (.plain s.pc)
  | 3 => some (.dummy (cat 0x01 s.s))
  | _ => none
def rtsRead (s : State) : Nat → Option ReadCycle
  | 2 | 6 => some (.dummy s.pc)
  | 3 => some (.dummy (cat 0x01 s.s))
  | 4 | 5 => some (.plain (cat 0x01 s.s))
  | _ => none
def brkRead (s : State) : Nat → Option ReadCycle
  | 2 => some (.plain s.pc)
  | 6 => some (.vec 0xFFFE)
  | 7 => some (.vec 0xFFFF)
  | _ => none
def returnRead (s : State) : Nat → Option ReadCycle
  | 2 => some (.dummy s.pc)
  | 3 => some (.dummy (cat 0x01 s.s))
  | 4 | 5 | 6 => some (.plain (cat 0x01 s.s))
  | _ => none

/-- The reads of a class R form, and of a class M form. -/
def readModeRead (o : ReadMode) (s : State) : Nat → Option ReadCycle :=
  match o with
  | .imm => immediateRead s
  | .mem m => modeRead m .onCross s (operandRead s)
def rmwModeRead (o : RmwMode) (fix : Fixup) (s : State) : Nat → Option ReadCycle :=
  match o with
  | .acc => impliedRead s
  | .mem m => modeRead m fix s (rmwRead s)

/-- The read of each cycle of an instruction's template; none for a write cycle, and none outside the template. -/
def readAt (i : Instr) (s : State) : Nat → Option ReadCycle :=
  match i with
  | .lda o | .ldx o | .ldy o | .ora o | .and o | .eor o | .adc o | .sbc o | .cmp o | .cpx o | .cpy o | .bit o =>
    readModeRead o s
  | .sta m | .stx m | .sty m | .stz m => modeRead m .always s fun _ => none
  | .tax | .tay | .txa | .tya | .tsx | .txs | .inx | .iny | .dex | .dey => impliedRead s
  | .asl o | .lsr o | .rol o | .ror o => rmwModeRead o .onCross s
  | .inc o | .dec o => rmwModeRead o .always s
  | .tsb m | .trb m => modeRead m .onCross s (rmwRead s)
  | .rmb0 | .rmb1 | .rmb2 | .rmb3 | .rmb4 | .rmb5 | .rmb6 | .rmb7 => modeRead .zp .onCross s (rmwRead s)
  | .smb0 | .smb1 | .smb2 | .smb3 | .smb4 | .smb5 | .smb6 | .smb7 => modeRead .zp .onCross s (rmwRead s)
  | .bpl | .bmi | .bvc | .bvs | .bcc | .bcs | .bne | .beq | .bra => relativeRead s
  | .bbr0 | .bbr1 | .bbr2 | .bbr3 | .bbr4 | .bbr5 | .bbr6 | .bbr7 => bitBranchRead s
  | .bbs0 | .bbs1 | .bbs2 | .bbs3 | .bbs4 | .bbs5 | .bbs6 | .bbs7 => bitBranchRead s
  | .jmp .abs => jmpAbsoluteRead s
  | .jmp .ind | .jmp .iax => jmpIndirectRead s
  | .jsr => jsrRead s
  | .rts => rtsRead s
  | .pha | .php | .phx | .phy => impliedRead s
  | .pla | .plp | .plx | .ply => pullRead s
  | .clc | .sec | .cli | .sei | .clv | .cld | .sed | .nop => impliedRead s
  | .brk => brkRead s
  | .rti => returnRead s
  | .wai | .stp => haltRead s
  | .reserved _ => fun _ => none

/-- The read of this cycle of an instruction; T1 is the fetch's (R93). -/
def readOf (i : Instr) (s : State) : Option ReadCycle :=
  match s.stepReg with
  | .executing (n + 1) => readAt i s (n + 2)
  | _ => none

/-- The read of cycle T of a sequence that no instruction begins (60_exceptions.md R249 to R251); `stack` for one whose
stack cycles are reads. -/
def sequenceRead (vector : Word) (stack : Bool) (t : Nat) (s : State) : Option ReadCycle :=
  match t with
  | 1 | 2 => some (.dummy s.pc)
  | 3 | 4 | 5 => if stack then some (.dummy (cat 0x01 s.s)) else none
  | 6 => some (.vec vector)
  | 7 => some (.vec (vector + 1))
  | _ => none

/-- The read of this cycle of the handler that `IR` selects. -/
def handlerRead (s : State) : Option ReadCycle :=
  match s.ir, s.stepReg with
  | .opcode b, _ => readOf (decodeOpcode b) s
  | .nmiOp, .executing n => sequenceRead 0xFFFA false (n + 1) s
  | .irqOp, .executing n => sequenceRead 0xFFFE false (n + 1) s
  | .rstOp, .executing n => sequenceRead 0xFFFC (decide (s.cfg.rstStackAccess = .read)) (n + 1) s
  | _, _ => none

/-- A fault of the bus (60_exceptions.md R260, R261). -/
def Fault.isBusFault : Fault → Bool
  | .busNoDevice _ _ | .busContention _ _ => true
  | _ => false

/-! ## Whole sequences over one RAM -/

/-- `step` is a value at which NMI and IRQ are looked at (40_engine.md R97). -/
def AtBoundary (st : State) : Prop :=
  st.stepReg = .awaitFetch ∨ st.stepReg = .awaitPipelinedFetch ∨ st.stepReg = .waitingForInterrupt

/-- A quiet machine over the RAM `mem`, about to fetch the opcode `op` at `PC`. -/
def FetchesOver (mem : Memory) (op : Byte) (st : State) : Prop :=
  OverRam mem st ∧ st.lines.quiet ∧ st.stepReg = .awaitFetch ∧ mem.load st.pc = op

/-- The RAM after a frame of three bytes has been pushed (60_exceptions.md R248): `PC[15:8]`, `PC[7:0]`, status. -/
def framed (mem : Memory) (s : Byte) (ret : Word) (status : Byte) : Memory :=
  ((mem.store (cat 0x01 s) (hiByte ret)).store (cat 0x01 (s - 1)) (loByte ret)).store (cat 0x01 (s - 2)) status

/-- What an NMI, IRQ or BRK entry leaves (60_exceptions.md R248, R252, R253): the frame on the stack, `S` three lower, `P.I` set
and `P.D` clear, `PC` the little-endian word at the vector, `A`, `X` and `Y` alone, and a fetch to come. -/
def Entered (mem : Memory) (st : State) (ret : Word) (b : Bool) (vector : Word) (t : State) : Prop :=
  let mem' := framed mem st.s ret (st.p.pByte b)
  OverRam mem' t ∧ t.stepReg = .awaitFetch ∧ t.s = st.s - 3 ∧ t.p = { st.p with i := true, d := false }
    ∧ t.pc = cat (mem'.load (vector + 1)) (mem'.load vector) ∧ t.a = st.a ∧ t.x = st.x ∧ t.y = st.y

end Sys2Proof.Machine
end

