-- ==== Sys2Proof/Certificates/Slice0/Obligations.lean ====
section
/-! DEFINITION. The statements for the provers, in the order of OBLIGATIONS.json. -/

open Sys2Proof Sys2Proof.Machine

/-! ## Encoding -/

/-- 30_encoding.md R70, R73 to R76: decoding the bytes of a well-formed instruction, whatever follows them, gives it back. -/
def Obligations.DecodeEncodeAgree : Prop :=
  ∀ (a : Asm) (rest : List Byte), a.wf = true →
    ∃ bytes, encode a = some bytes ∧ decode (bytes ++ rest) = .ok (a, rest)

/-- 30_encoding.md R70, R73 to R76: what the decoder accepts is well formed, and the bytes it took are its encoding. -/
def Obligations.DecodedBytesEncodeBack : Prop :=
  ∀ (bytes rest : List Byte) (a : Asm), decode bytes = .ok (a, rest) →
    a.wf = true ∧ ∃ taken, encode a = some taken ∧ bytes = taken ++ rest

/-- 30_encoding.md R73, R76: words written out from the opcode matrix, one of each family. -/
def Obligations.SampleWordsDecode : Prop :=
  decode [0xA9, 0x42] = .ok (⟨.lda .imm, .one 0x42⟩, [])
    ∧ decode [0x9D, 0xF8, 0x20] = .ok (⟨.sta .abx, .two 0xF8 0x20⟩, [])
    ∧ decode [0x71, 0x10] = .ok (⟨.adc (.mem .izy), .one 0x10⟩, [])
    ∧ decode [0xFE, 0x00, 0x30] = .ok (⟨.inc (.mem .abx), .two 0x00 0x30⟩, [])
    ∧ decode [0x37, 0x12] = .ok (⟨.rmb3, .one 0x12⟩, [])
    ∧ decode [0xFF, 0x10, 0xFD] = .ok (⟨.bbs7, .two 0x10 0xFD⟩, [])
    ∧ decode [0x7C, 0x00, 0x30] = .ok (⟨.jmp .iax, .two 0x00 0x30⟩, [])
    ∧ decode [0x28] = .ok (⟨.plp, .none⟩, [])
    ∧ decode [0x44] = .ok (⟨.reserved 0x44, .none⟩, [])
    ∧ decode [0x20, 0x00] = .error (.truncated 0x20)

/-- 30_encoding.md R74: bits 6:4 of the opcode are the bit number `n`, bit 7 tells set from reset, bits 3:0 tell the
memory-bit instructions from the branches. -/
def Obligations.BitNumberField : Prop :=
  ∀ (set : BitVec 1) (n : BitVec 3) (s : State),
    exec (decodeOpcode (set ++ n ++ 0x7#4)) s
        = rmwInstr .zp .onCross (if set = 1 then setBit n.toNat else resetBit n.toNat) s
      ∧ exec (decodeOpcode (set ++ n ++ 0xF#4)) s = handler (branchBitCycles n.toNat (decide (set = 1))) s

/-- 30_encoding.md R72, 44_control.md: the target of a relative branch at `B` is `B + 2 + sext(off)` and of a branch on bit
`B + 3 + sext(off)`, modulo 65536, `off` read as two's complement. -/
def Obligations.BranchTargetReach : Prop :=
  ∀ (b : Word) (zp off : Byte) (i : Instr),
    (i.mode = some .rel → (Asm.target ⟨i, .one off⟩ b).map (fun w => (w.toNat : Int))
      = some (((b.toNat : Int) + 2 + off.toInt) % 65536))
    ∧ (i.mode = some .zpr → (Asm.target ⟨i, .two zp off⟩ b).map (fun w => (w.toNat : Int))
      = some (((b.toNat : Int) + 3 + off.toInt) % 65536))

/-! ## The clock cycle -/

/-- 40_engine.md R93: when `step` is `AwaitFetch` and no line is taken, the byte answered at `PC` by the opcode fetch selects the
instruction the decoder reads there, and the cycle is T1 of its handler, with `IR` the opcode, `PC` one past it and `step`
`Executing(0)`; that does nothing further for a documented opcode, and is the fault of R258 for a reserved one. That the scratch
registers are kept from the instruction before is the model's choice (assumption 25). -/
def Obligations.StepRunsTheFetchedInstruction : Prop :=
  ∀ (s u : State) (b : Byte) (rest r : List Byte) (a : Asm),
    s.stepReg = .awaitFetch → pollRst s = false → (pollNmi s).1 = false → (pollIrq s && !s.p.i) = false →
    AnswersSync s.pc (pollNmi s).2 b u → decode (b :: rest) = .ok (a, r) → a.wf = true →
    let v := ((u.setIR (.opcode b)).setPC (s.pc + 1)).setStep (.executing 0)
    (b ∉ s.cfg.reservedOpcodes → step s = exec a.instr v)
      ∧ (b ∉ s.cfg.reservedOpcodes → b ∉ reservedOpcodes → step s = .next (v.setStep (.executing 1)))
      ∧ (b ∈ s.cfg.reservedOpcodes → step s = .fault (.reservedOpcode b s.pc v))

/-- 40_engine.md R91 item 3, R96: a cycle that begins inside a handler, RST not asserted, is one step of the handler that `IR`
selects, and samples no other line. The first clause takes in a documented opcode put in `RESERVED_OPCODES` and met inside its
template: the spec gives no template for it, and going on with the ordinary one is the model's choice (assumption 26). For an
opcode the table leaves reserved, the handler entered is the fault of assumptions 17, 18 and 19. -/
def Obligations.StepContinuesTheHandler : Prop :=
  ∀ (s : State) (n : Nat), s.stepReg = .executing n → pollRst s = false →
    (∀ b, s.ir = .opcode b → step s = exec (decodeOpcode b) s)
      ∧ (s.ir = .nmiOp → step s = nmiSequence s)
      ∧ (s.ir = .irqOp → step s = irqSequence s)
      ∧ (s.ir = .rstOp → step s = rstSequence s)

/-- 40_engine.md R94: the pipelined dispatch increments `PC` and enters the handler of the prefetched opcode at T2, with no bus
cycle of its own; a reserved opcode is fatal there. That the scratch registers are kept from the instruction before is the
model's choice (assumption 25). -/
def Obligations.PipelinedDispatchEntersAtT2 : Prop :=
  ∀ (s : State) (b : Byte),
    s.stepReg = .awaitPipelinedFetch → s.ir = .opcode b → pollRst s = false → (pollNmi s).1 = false →
    (pollIrq s && !s.p.i) = false →
    let v := ((pollNmi s).2.setPC (s.pc + 1)).setStep (.executing 1)
    (b ∉ s.cfg.reservedOpcodes → step s = exec (decodeOpcode b) v)
      ∧ (b ∈ s.cfg.reservedOpcodes → step s = .fault (.reservedOpcode b s.pc v))

/-- 40_engine.md R91 items 1, 4, 5, R97; 60_exceptions.md R245, R246: RST comes first and in any cycle; at a boundary NMI comes
before IRQ; IRQ is taken with `P.I` clear, or from `WaitingForInterrupt` whatever `P.I` is; the sequence taken runs its T1 in
the same cycle. What the scratch registers hold there is the model's choice (assumption 25): lost as free values when RST is
taken (10_state.md R17, R98), kept when NMI or IRQ is. -/
def Obligations.DispatchPriority : Prop :=
  ∀ s : State,
    (pollRst s = true → step s = rstSequence ((s.loseScratch.setIR .rstOp).setStep (.executing 0)))
      ∧ (pollRst s = false → AtBoundary s → (pollNmi s).1 = true →
        step s = nmiSequence (((pollNmi s).2.setIR .nmiOp).setStep (.executing 0)))
      ∧ (pollRst s = false → AtBoundary s → (pollNmi s).1 = false → pollIrq s = true →
        (s.p.i = false ∨ s.stepReg = .waitingForInterrupt) →
        step s = irqSequence (((pollNmi s).2.setIR .irqOp).setStep (.executing 0)))

/-- 40_engine.md R95; 60_exceptions.md R257, R275: `Stopped` is left by RST only, and a cycle in it changes nothing; so does a
cycle in `WaitingForInterrupt` in which no line is taken (the poll of NMI, `on_trigger`, finds no edge). -/
def Obligations.IdleCyclesChangeNothing : Prop :=
  ∀ s : State, pollRst s = false →
    (s.stepReg = .stopped → step s = .next s)
      ∧ (s.stepReg = .waitingForInterrupt → s.cfg.nmiEdgeCapture = .onTrigger → s.lines.nmi.edgeTriggered = true →
        s.lines.nmi.latchedSinceEdge = false → pollIrq s = false → step s = .next s)

/-- 40_engine.md R98; 70_reset_and_hazards.md R283: while RST is asserted every cycle, from whatever `step`, is T1 of the RST
sequence: one discarded read at `PC` and nothing else but `IR` and `step`; the scratch registers are lost (free values,
assumption 25). -/
def Obligations.RstAbandonsAnything : Prop :=
  ∀ s u : State, pollRst s = true → AnswersDummy s.pc ((s.loseScratch.setIR .rstOp).setStep (.executing 0)) u →
    step s = .next (u.setStep (.executing 1)) ∧ u.ir = .rstOp ∧ u.a = s.a ∧ u.x = s.x ∧ u.y = s.y ∧ u.s = s.s
      ∧ u.pc = s.pc ∧ u.p = s.p ∧ SameRam s u

/-! ## Interrupt lines -/

/-- 60_exceptions.md R243: `is_triggering` is membership, `triggered` is that the requester set is not empty, and clearing the
sole requester makes `triggered()` false immediately. Both are functions of the line and change nothing. -/
def Obligations.TriggeredMeansRequested : Prop :=
  ∀ (l : InterruptLine) (id : RequesterId),
    (l.isTriggering id = true ↔ id ∈ l.requesters)
      ∧ (l.triggered = true ↔ l.requesters ≠ [])
      ∧ (l.requesters = [id] → (l.clear id).2.triggered = false)

/-- 60_exceptions.md R240 to R242: trigger and clear add and remove one id and answer whether membership changed; a line is held
while any one requester remains, so a second requester is no new edge and its clear does not release the line. -/
def Obligations.LineIsWiredOr : Prop :=
  ∀ (capture : NmiEdgeCapture) (l : InterruptLine) (id other : RequesterId),
    ((l.trigger capture id).1 = true ↔ id ∉ l.requesters)
      ∧ (∀ j, j ∈ (l.trigger capture id).2.requesters ↔ j = id ∨ j ∈ l.requesters)
      ∧ ((l.clear id).1 = true ↔ id ∈ l.requesters)
      ∧ (∀ j, j ∈ (l.clear id).2.requesters ↔ j ∈ l.requesters ∧ j ≠ id)
      ∧ (l.clear id).2.latchedSinceEdge = l.latchedSinceEdge
      ∧ (l.triggered = true → (l.trigger capture id).2.latchedSinceEdge = l.latchedSinceEdge)
      ∧ (other ≠ id → other ∈ l.requesters → ((l.trigger capture id).2.clear id).2.triggered = true)

/-- 60_exceptions.md R244: on an edge line, assert then poll twice while still asserted answers true, then false; clear (seen by
a poll, under `on_poll`: assumption 24) and reassert answers true again. Under `on_trigger` a pulse released before the poll is still
reported, once. -/
def Obligations.EdgeFiresOncePerAssertion : Prop :=
  ∀ (capture : NmiEdgeCapture) (l : InterruptLine) (id : RequesterId),
    l.edgeTriggered = true → l.requesters = [] → (capture = .onPoll → l.latchedSinceEdge = false) →
    let first := (l.trigger capture id).2.shouldInterrupt capture
    let second := first.2.shouldInterrupt capture
    let released := (second.2.clear id).2
    let seen := if capture = .onPoll then (released.shouldInterrupt capture).2 else released
    let pulse := ((l.trigger capture id).2.clear id).2.shouldInterrupt capture
    first.1 = true ∧ second.1 = false ∧ second.2.triggered = true
      ∧ ((seen.trigger capture id).2.shouldInterrupt capture).1 = true
      ∧ (capture = .onTrigger → pulse.1 = true ∧ (pulse.2.shouldInterrupt capture).1 = false)

/-! ## The bus -/

/-- 20_memory.md R44; 60_exceptions.md R260, R261; 40_engine.md R127 (a): the result of a read by the number of devices that drove
`data`; a read cycle of any kind that ends in a fault, discarded or not, ends the cycle of the instruction, of the sequence
or of the fetch in that fault; and only such a read, only under `STRICT_BUS`, ends an instruction's cycle in one. -/
def Obligations.ReadResultByDriverCount : Prop :=
  (∀ (i : Instr) (s : State) (r : ReadCycle) (f : Fault), readOf i s = some r → r.perform s = .error f →
    exec i s = .fault f)
  ∧ (∀ (s : State) (r : ReadCycle) (f : Fault), handlerRead s = some r → r.perform s = .error f → runHandler s = .fault f)
  ∧ (∀ (s : State) (f : Fault), s.stepReg = .awaitFetch → pollRst s = false → (pollNmi s).1 = false →
    (pollIrq s && !s.p.i) = false → (ReadCycle.sync s.pc).perform (pollNmi s).2 = .error f → step s = .fault f)
  ∧ (∀ (i : Instr) (s : State) (f : Fault), exec i s = .fault f → f.isBusFault = true →
    s.cfg.strictBus = true ∧ ∃ r, readOf i s = some r ∧ r.perform s = .error f)
  ∧ ∀ s : State,
    (s.driven = 0 → s.cfg.strictBus = true → readResult s = .error (.busNoDevice s.bus.address s))
      ∧ (s.driven = 0 → s.cfg.strictBus = false →
        ∃ u, readResult s = .ok (s.cfg.undrivenValue, u) ∧ u.bus = { s.bus with data := s.cfg.undrivenValue })
      ∧ (2 ≤ s.driven → s.cfg.strictBus = true → readResult s = .error (.busContention s.bus.address s))
      ∧ (s.driven = 1 ∨ 2 ≤ s.driven ∧ s.cfg.strictBus = false → readResult s = .ok (s.bus.data, s))

/-- 20_memory.md R42, R44; 60_exceptions.md R261: with `STRICT_BUS = false` a contended read returns what the driving device
latest in registration order drove, whatever the devices before it did. -/
def Obligations.LastDriverWins : Prop :=
  ∀ (sync vec : Bool) (address : Word) (s : State) (before after : List Device) (d : Device) (v : Byte),
    s.cfg.strictBus = false → s.devices = before ++ d :: after →
    (∀ data, (d.onCycle ⟨address, data, true, sync, vec⟩).drive = some v) →
    (∀ e ∈ after, ∀ data, (e.onCycle ⟨address, data, true, sync, vec⟩).drive = none) →
    ∃ u, readCycle sync vec address s = .ok (v, u)

/-- 20_memory.md R40, R43, 60_exceptions.md R263: a bus cycle changes no register of the CPU; a read changes no RAM byte and
leaves the signals of its kind, with the byte read in `data`; a write never faults and leaves `sync` and `vector_pull` false. -/
def Obligations.BusCycleLeavesTheCpuAlone : Prop :=
  (∀ (sync vec : Bool) (address : Word) (s u : State) (v : Byte), readCycle sync vec address s = .ok (v, u) →
    SameCpu s u ∧ SameRam s u ∧ u.bus = ⟨address, v, true, sync, vec⟩)
  ∧ ∀ (address : Word) (v : Byte) (s : State),
    SameCpu s (busWrite address v s) ∧ (busWrite address v s).bus = ⟨address, v, false, false, false⟩

/-- 20_memory.md R45, R56; 95_test_vectors.md section 0: after a write cycle every RAM mapped at its address holds the byte, and
every other byte of every RAM is as before; a RAM that alone is mapped everywhere then answers a read there with it. -/
def Obligations.RamHoldsWhatTheBusWrites : Prop :=
  ∀ (address : Word) (v : Byte) (s : State), (∀ d ∈ s.devices, d.wf) →
    (∀ k old, s.ramByte k address = some old → (busWrite address v s).ramByte k address = some v)
      ∧ (∀ k a, a ≠ address → (busWrite address v s).ramByte k a = s.ramByte k a)
      ∧ (∀ mem, OverRam mem s → ∃ u, Answers address (busWrite address v s) v u)

/-! ## Arithmetic -/

/-- 40_engine.md R121, R122; 42_alu.md R169 (a) to (d): the pair of carry and result is the 9-bit sum; subtraction adds the
complement and its carry says that there is no borrow; `P.V` says that the signed result does not fit. -/
def Obligations.AddAndSubtractAreExact : Prop :=
  ∀ (a m : Byte) (c : Bool),
    (addWithCarry a m c).result.toNat + 256 * (addWithCarry a m c).carry.toNat = a.toNat + m.toNat + c.toNat
      ∧ subWithCarry a m c = addWithCarry a (~~~m) c
      ∧ (subWithCarry a m c).result = a - m - (if c then 0 else 1)
      ∧ ((subWithCarry a m c).carry = true ↔ m.toNat + (1 - c.toNat) ≤ a.toNat)
      ∧ ((addWithCarry a m c).overflow = true ↔
        a.toInt + m.toInt + c.toNat < -128 ∨ 127 < a.toInt + m.toInt + c.toNat)
      ∧ ((subWithCarry a m c).overflow = true ↔
        a.toInt - m.toInt - (1 - c.toNat : Int) < -128 ∨ 127 < a.toInt - m.toInt - (1 - c.toNat : Int))

/-- 42_alu.md R169 (e): the carry chains two bytes into a 16-bit sum and a 16-bit difference; after the last byte the carry and the
overflow are those of the whole. -/
def Obligations.CarryChainsTwoBytes : Prop :=
  ∀ ah al bh bl : Byte,
    (let low := addWithCarry al bl false
     let high := addWithCarry ah bh low.carry
     cat high.result low.result = cat ah al + cat bh bl
       ∧ (high.carry = true ↔ 65536 ≤ (cat ah al).toNat + (cat bh bl).toNat)
       ∧ (high.overflow = true ↔ (cat ah al).toInt + (cat bh bl).toInt < -32768
            ∨ 32767 < (cat ah al).toInt + (cat bh bl).toInt))
    ∧ (let low := subWithCarry al bl true
       let high := subWithCarry ah bh low.carry
       cat high.result low.result = cat ah al - cat bh bl
         ∧ (high.carry = true ↔ (cat bh bl).toNat ≤ (cat ah al).toNat)
         ∧ (high.overflow = true ↔ (cat ah al).toInt - (cat bh bl).toInt < -32768
              ∨ 32767 < (cat ah al).toInt - (cat bh bl).toInt))

/-- 42_alu.md R170: a subtract entered with the complement of the carry that entered the add restores the operand, and the other
way round; entered with the carry that came out it need not. -/
def Obligations.RoundTripLaw : Prop :=
  (∀ (a b : Byte) (cin : Bool), (subWithCarry (addWithCarry a b cin).result b (!cin)).result = a)
    ∧ (∀ (a b : Byte) (cin : Bool), (addWithCarry (subWithCarry a b cin).result b (!cin)).result = a)
    ∧ (∀ (a b : Byte) (cin : Bool),
      (subWithCarry (addWithCarry a b cin).result b (addWithCarry a b cin).carry).result = a
        ↔ cin ≠ (addWithCarry a b cin).carry)

/-- 40_engine.md R123, with the order relations of 42_alu.md R171: after `Compare(r, m)`, `Z` says equal, `C` says not below (unsigned), `N` is bit 7 of the difference, and a
signed comparison only when the true difference fits; N, Z and C are those `SEC; SBC m` would leave with `A = r`; V, D and
I are alone. -/
def Obligations.CompareMeansOrder : Prop :=
  ∀ (p : Flags) (r m : Byte),
    ((p.compare r m).z = true ↔ r = m)
      ∧ ((p.compare r m).c = true ↔ m.toNat ≤ r.toNat)
      ∧ (p.compare r m).n = (r - m).msb
      ∧ (-128 ≤ r.toInt - m.toInt → r.toInt - m.toInt ≤ 127 → ((p.compare r m).n = true ↔ r.toInt < m.toInt))
      ∧ (p.compare r m).c = (subWithCarry r m true).carry
      ∧ (p.compare r m).z = ((subWithCarry r m true).result == 0)
      ∧ (p.compare r m).n = (subWithCarry r m true).result.msb
      ∧ (p.compare r m).v = p.v ∧ (p.compare r m).d = p.d ∧ (p.compare r m).i = p.i

/-- 40_engine.md R124: bit by bit, what the four shifts and rotates return and shift out; N and Z are those of the result. -/
def Obligations.ShiftsBitByBit : Prop :=
  ∀ (a t : Byte) (p : Flags) (k : Nat), k < 8 →
    (asl a p t).1.getLsbD k = (decide (0 < k) && t.getLsbD (k - 1))
      ∧ (lsr a p t).1.getLsbD k = t.getLsbD (k + 1)
      ∧ (rol a p t).1.getLsbD k = (if k = 0 then p.c else t.getLsbD (k - 1))
      ∧ (ror a p t).1.getLsbD k = (if k = 7 then p.c else t.getLsbD (k + 1))
      ∧ (asl a p t).2 = { p with c := t.getLsbD 7, n := (asl a p t).1.msb, z := (asl a p t).1 == 0 }
      ∧ (lsr a p t).2 = { p with c := t.getLsbD 0, n := false, z := (lsr a p t).1 == 0 }
      ∧ (rol a p t).2 = { p with c := t.getLsbD 7, n := (rol a p t).1.msb, z := (rol a p t).1 == 0 }
      ∧ (ror a p t).2 = { p with c := t.getLsbD 0, n := p.c, z := (ror a p t).1 == 0 }

/-- 40_engine.md R124: the rotates are 9-bit rotations through the carry, so each undoes the other. -/
def Obligations.RotatesUndoEachOther : Prop :=
  ∀ (a t : Byte) (p : Flags),
    ((ror a (rol a p t).2 (rol a p t).1).1 = t ∧ (ror a (rol a p t).2 (rol a p t).1).2.c = p.c)
      ∧ ((rol a (ror a p t).2 (ror a p t).1).1 = t ∧ (rol a (ror a p t).2 (ror a p t).1).2.c = p.c)

/-- 10_state.md R13, 60_exceptions.md R252: the byte pushed has the six flags at their bits, bit 5 set and bit 4 as the push says;
pulling it restores the flags, whatever bits 5 and 4 are. -/
def Obligations.StatusByteRoundTrip : Prop :=
  (∀ (p : Flags) (b : Bool), Flags.ofByte (p.pByte b) = p ∧ (p.pByte b).getLsbD 5 = true ∧ (p.pByte b).getLsbD 4 = b)
    ∧ ∀ (v : Byte) (b : Bool), (Flags.ofByte v).pByte b = (v &&& 0xCF) ||| 0x20 ||| (if b then 0x10 else 0)

/-- 60_exceptions.md R274, 10_state.md R13: the debug field `p` shows the six flags at their masks, whatever its bits 5 and 4 are
(a free value, assumption 21); the other fields are the registers. -/
def Obligations.DebugViewShowsTheRegisters : Prop :=
  ∀ s : State, Flags.ofByte s.debugView.p = s.p ∧ s.debugView.a = s.a ∧ s.debugView.x = s.x ∧ s.debugView.y = s.y ∧ s.debugView.s = s.s
    ∧ s.debugView.pc = s.pc

/-! ## What each instruction does: the cycle of its effect -/

/-- 40_engine.md R92, R93: T1 of a documented instruction's handler does nothing further. -/
def Obligations.FirstCycleOnlyCounts : Prop :=
  ∀ (i : Instr) (s : State), (∀ b, i ≠ .reserved b) → s.stepReg = .executing 0 →
    exec i s = .next (s.setStep (.executing 1))

/-- 41_load_store_transfer.md R140 to R142: in its last cycle a load writes its register with the operand byte, and N and Z. -/
def Obligations.LoadsComplete : Prop :=
  ReadEnds .lda (fun _ m s u => (u.setA m).setP (nzOf s.p m))
    ∧ ReadEnds .ldx (fun _ m s u => (u.setX m).setP (nzOf s.p m))
    ∧ ReadEnds .ldy (fun _ m s u => (u.setY m).setP (nzOf s.p m))

/-- 42_alu.md R160 to R162: the logic operations write `A`, N and Z. -/
def Obligations.LogicCompletes : Prop :=
  ReadEnds .ora (fun _ m s u => (u.setA (s.a ||| m)).setP (nzOf s.p (s.a ||| m)))
    ∧ ReadEnds .and (fun _ m s u => (u.setA (s.a &&& m)).setP (nzOf s.p (s.a &&& m)))
    ∧ ReadEnds .eor (fun _ m s u => (u.setA (s.a ^^^ m)).setP (nzOf s.p (s.a ^^^ m)))

/-- 42_alu.md R163, R164; 40_engine.md R121, R122, R125: with `P.D` clear, or with `DECIMAL_POLICY = binary` (assumption 13), `ADC` and `SBC` write
`A`, N, V, Z and C as the binary sum and difference give them. -/
def Obligations.AdcSbcComplete : Prop :=
  ∀ (o : ReadMode) (s u : State) (m : Byte),
    s.p.d = false ∨ s.cfg.decimalPolicy = .binary → Answers (operandAddress o s) s m u →
    (AtT (readLast o s.loc) s →
      let sum := s.a.toNat + m.toNat + s.p.c.toNat
      let r := BitVec.ofNat 8 sum
      exec (.adc o) s = .next ((((afterOperand o u).setA r).setP
        { s.p with n := r.msb, v := ((~~~(s.a ^^^ m)) &&& (s.a ^^^ r)).msb, z := r == 0, c := decide (255 < sum) }).setStep
          .awaitFetch))
    ∧ (AtT (readLast o s.loc) s →
      let borrow := 1 - s.p.c.toNat
      let r := s.a - m - BitVec.ofNat 8 borrow
      exec (.sbc o) s = .next ((((afterOperand o u).setA r).setP
        { s.p with n := r.msb, v := ((s.a ^^^ m) &&& (s.a ^^^ r)).msb, z := r == 0,
                   c := decide (m.toNat + borrow ≤ s.a.toNat) }).setStep .awaitFetch))

/-- 40_engine.md R125, 60_exceptions.md R262: with `P.D` set and `DECIMAL_POLICY = refuse`, `ADC` and `SBC` end the run in the cycle
of their operation, after the operand read, with `A` and the flags unchanged; no other instruction ever does. -/
def Obligations.OnlyDecimalAdcSbcRefuse : Prop :=
  (∀ (o : ReadMode) (s u : State) (m : Byte),
    s.p.d = true → s.cfg.decimalPolicy = .refuse → AtT (readLast o s.loc) s → Answers (operandAddress o s) s m u →
    exec (.adc o) s = .refused (.decimalUnmodelled (afterOperand o u))
      ∧ exec (.sbc o) s = .refused (.decimalUnmodelled (afterOperand o u))
      ∧ (afterOperand o u).a = s.a ∧ (afterOperand o u).p = s.p)
  ∧ ∀ (i : Instr) (s : State) (r : Refusal), exec i s = .refused r →
    (∃ o, i = .adc o ∨ i = .sbc o) ∧ s.p.d = true ∧ s.cfg.decimalPolicy = .refuse
      ∧ ∃ left, r = .decimalUnmodelled left ∧ left.a = s.a ∧ left.p = s.p

/-- 42_alu.md R165 to R168: the compares write N, Z and C only; `BIT` in memory takes N and V from the operand itself, and its
immediate form writes Z only. -/
def Obligations.ComparesAndBitComplete : Prop :=
  ReadEnds .cmp (fun _ m s u => u.setP { s.p with n := (s.a - m).msb, z := s.a == m, c := decide (m.toNat ≤ s.a.toNat) })
    ∧ ReadEnds .cpx (fun _ m s u => u.setP { s.p with n := (s.x - m).msb, z := s.x == m, c := decide (m.toNat ≤ s.x.toNat) })
    ∧ ReadEnds .cpy (fun _ m s u => u.setP { s.p with n := (s.y - m).msb, z := s.y == m, c := decide (m.toNat ≤ s.y.toNat) })
    ∧ ReadEnds .bit (fun o m s u =>
        if o = .imm then u.setP { s.p with z := s.a &&& m == 0 }
        else u.setP { s.p with z := s.a &&& m == 0, n := m.getLsbD 7, v := m.getLsbD 6 })

/-- 41_load_store_transfer.md R143 to R146: a store ends in one write cycle at `EA` of the register's byte, or of zero; no
flag is written. -/
def Obligations.StoresComplete : Prop :=
  WriteEnds .sta (fun s => s.a) ∧ WriteEnds .stx (fun s => s.x) ∧ WriteEnds .sty (fun s => s.y)
    ∧ WriteEnds .stz (fun _ => 0x00)

/-- 41_load_store_transfer.md R147 to R152: the transfers write their register, N and Z; `TXS` writes `S` and no flag.
43_rmw_bit.md R181 to R184: the index registers count modulo 256; N and Z are those of the result. -/
def Obligations.TransfersAndIndexCountsComplete : Prop :=
  ImpliedEnds .tax (fun s u => (u.setX s.a).setP (nzOf s.p s.a))
    ∧ ImpliedEnds .tay (fun s u => (u.setY s.a).setP (nzOf s.p s.a))
    ∧ ImpliedEnds .txa (fun s u => (u.setA s.x).setP (nzOf s.p s.x))
    ∧ ImpliedEnds .tya (fun s u => (u.setA s.y).setP (nzOf s.p s.y))
    ∧ ImpliedEnds .tsx (fun s u => (u.setX s.s).setP (nzOf s.p s.s))
    ∧ ImpliedEnds .txs (fun s u => u.setS s.x)
    ∧ ImpliedEnds .inx (fun s u => (u.setX (s.x + 1)).setP (nzOf s.p (s.x + 1)))
    ∧ ImpliedEnds .iny (fun s u => (u.setY (s.y + 1)).setP (nzOf s.p (s.y + 1)))
    ∧ ImpliedEnds .dex (fun s u => (u.setX (s.x - 1)).setP (nzOf s.p (s.x - 1)))
    ∧ ImpliedEnds .dey (fun s u => (u.setY (s.y - 1)).setP (nzOf s.p (s.y - 1)))

/-- 43_rmw_bit.md R175 to R180, the accumulator forms: `A`, N, Z and the bit shifted out; `INC A` and `DEC A` leave the carry. -/
def Obligations.AccumulatorFormsComplete : Prop :=
  ImpliedEnds (.asl .acc) (fun s u => (u.setA (s.a <<< 1)).setP (nzOf { s.p with c := s.a.getLsbD 7 } (s.a <<< 1)))
    ∧ ImpliedEnds (.lsr .acc) (fun s u => (u.setA (s.a >>> 1)).setP (nzOf { s.p with c := s.a.getLsbD 0 } (s.a >>> 1)))
    ∧ ImpliedEnds (.rol .acc) (fun s u => (u.setA ((s.a <<< 1) ||| carryByte s.p.c)).setP
        (nzOf { s.p with c := s.a.getLsbD 7 } ((s.a <<< 1) ||| carryByte s.p.c)))
    ∧ ImpliedEnds (.ror .acc) (fun s u => (u.setA ((s.a >>> 1) ||| (carryByte s.p.c <<< 7))).setP
        (nzOf { s.p with c := s.a.getLsbD 0 } ((s.a >>> 1) ||| (carryByte s.p.c <<< 7))))
    ∧ ImpliedEnds (.inc .acc) (fun s u => (u.setA (s.a + 1)).setP (nzOf s.p (s.a + 1)))
    ∧ ImpliedEnds (.dec .acc) (fun s u => (u.setA (s.a - 1)).setP (nzOf s.p (s.a - 1)))

/-- 43_rmw_bit.md R175 to R180, the memory forms; 40_engine.md R106, R111: two reads and one write at `EA`, the transform and its
flags in the second cycle, applied to the byte of the first read. -/
def Obligations.ShiftsAndCountsInMemoryComplete : Prop :=
  ∀ m : AddrMode,
    RmwEnds (.asl (.mem m)) (fun s => dataCycle m .onCross s.loc)
        (fun _ p t => (t <<< 1, nzOf { p with c := t.getLsbD 7 } (t <<< 1)))
      ∧ RmwEnds (.lsr (.mem m)) (fun s => dataCycle m .onCross s.loc)
        (fun _ p t => (t >>> 1, nzOf { p with c := t.getLsbD 0 } (t >>> 1)))
      ∧ RmwEnds (.rol (.mem m)) (fun s => dataCycle m .onCross s.loc)
        (fun _ p t => ((t <<< 1) ||| carryByte p.c, nzOf { p with c := t.getLsbD 7 } ((t <<< 1) ||| carryByte p.c)))
      ∧ RmwEnds (.ror (.mem m)) (fun s => dataCycle m .onCross s.loc)
        (fun _ p t => ((t >>> 1) ||| (carryByte p.c <<< 7), nzOf { p with c := t.getLsbD 0 } ((t >>> 1) ||| (carryByte p.c <<< 7))))
      ∧ RmwEnds (.inc (.mem m)) (fun s => dataCycle m .always s.loc) (fun _ p t => (t + 1, nzOf p (t + 1)))
      ∧ RmwEnds (.dec (.mem m)) (fun s => dataCycle m .always s.loc) (fun _ p t => (t - 1, nzOf p (t - 1)))

/-- 43_rmw_bit.md R185, R186: `TSB` and `TRB` set and clear the bits of `A` in memory; only Z is written, from `A & t`. R187, R188:
`RMBn` clears and `SMBn` sets one bit of a zero-page byte, in five cycles; no flag is written. -/
def Obligations.MemoryBitsComplete : Prop :=
  (∀ m : AddrMode,
    RmwEnds (.tsb m) (fun s => dataCycle m .onCross s.loc) (fun a p t => (t ||| a, { p with z := a &&& t == 0 }))
      ∧ RmwEnds (.trb m) (fun s => dataCycle m .onCross s.loc)
        (fun a p t => (t &&& ~~~a, { p with z := a &&& t == 0 })))
    ∧ RmwEnds .rmb0 (fun _ => 3) (fun _ p t => (t &&& 0xFE, p)) ∧ RmwEnds .rmb1 (fun _ => 3) (fun _ p t => (t &&& 0xFD, p))
    ∧ RmwEnds .rmb2 (fun _ => 3) (fun _ p t => (t &&& 0xFB, p)) ∧ RmwEnds .rmb3 (fun _ => 3) (fun _ p t => (t &&& 0xF7, p))
    ∧ RmwEnds .rmb4 (fun _ => 3) (fun _ p t => (t &&& 0xEF, p)) ∧ RmwEnds .rmb5 (fun _ => 3) (fun _ p t => (t &&& 0xDF, p))
    ∧ RmwEnds .rmb6 (fun _ => 3) (fun _ p t => (t &&& 0xBF, p)) ∧ RmwEnds .rmb7 (fun _ => 3) (fun _ p t => (t &&& 0x7F, p))
    ∧ RmwEnds .smb0 (fun _ => 3) (fun _ p t => (t ||| 0x01, p)) ∧ RmwEnds .smb1 (fun _ => 3) (fun _ p t => (t ||| 0x02, p))
    ∧ RmwEnds .smb2 (fun _ => 3) (fun _ p t => (t ||| 0x04, p)) ∧ RmwEnds .smb3 (fun _ => 3) (fun _ p t => (t ||| 0x08, p))
    ∧ RmwEnds .smb4 (fun _ => 3) (fun _ p t => (t ||| 0x10, p)) ∧ RmwEnds .smb5 (fun _ => 3) (fun _ p t => (t ||| 0x20, p))
    ∧ RmwEnds .smb6 (fun _ => 3) (fun _ p t => (t ||| 0x40, p)) ∧ RmwEnds .smb7 (fun _ => 3) (fun _ p t => (t ||| 0x80, p))

/-- 44_control.md R195 to R203, 40_engine.md R115: the nine relative branches, taken and not, with their conditions. -/
def Obligations.RelativeBranchesRun : Prop :=
  BranchRuns .bpl (fun p => !p.n) ∧ BranchRuns .bmi (fun p => p.n) ∧ BranchRuns .bvc (fun p => !p.v)
    ∧ BranchRuns .bvs (fun p => p.v) ∧ BranchRuns .bcc (fun p => !p.c) ∧ BranchRuns .bcs (fun p => p.c)
    ∧ BranchRuns .bne (fun p => !p.z) ∧ BranchRuns .beq (fun p => p.z) ∧ BranchRuns .bra (fun _ => true)

/-- 44_control.md R204, R205, 40_engine.md R116: the sixteen branches on a bit of a zero-page byte, taken and not. -/
def Obligations.BitBranchesRun : Prop :=
  BitBranchRuns .bbr0 0 false ∧ BitBranchRuns .bbr1 1 false ∧ BitBranchRuns .bbr2 2 false ∧ BitBranchRuns .bbr3 3 false
    ∧ BitBranchRuns .bbr4 4 false ∧ BitBranchRuns .bbr5 5 false ∧ BitBranchRuns .bbr6 6 false
    ∧ BitBranchRuns .bbr7 7 false
    ∧ BitBranchRuns .bbs0 0 true ∧ BitBranchRuns .bbs1 1 true ∧ BitBranchRuns .bbs2 2 true ∧ BitBranchRuns .bbs3 3 true
    ∧ BitBranchRuns .bbs4 4 true ∧ BitBranchRuns .bbs5 5 true ∧ BitBranchRuns .bbs6 6 true ∧ BitBranchRuns .bbs7 7 true

/-- 44_control.md R206 to R208: T2 reads the low byte of the operand; `JMP abs` ends at T3; the indirect forms form their pointer
at T3 (plus `X`, a 16-bit add), read at `PC` for nothing at T4, and read its two bytes at T5 and T6, the increment carrying
into the high byte. -/
def Obligations.JumpsComplete : Prop :=
  ∀ (s u : State) (v : Byte),
    (∀ m, AtT 2 s → Answers s.pc s v u →
      exec (.jmp m) s = .next (((u.setLoc { s.loc with lo := v }).setPC (s.pc + 1)).setStep (.executing 2)))
    ∧ (AtT 3 s → Answers s.pc s v u →
      exec (.jmp .abs) s = .next ((u.setPC (cat v s.loc.lo)).setStep .awaitFetch)
        ∧ exec (.jmp .ind) s = .next (((u.setLoc { s.loc with hi := v, ptr := cat v s.loc.lo }).setPC
            (s.pc + 1)).setStep (.executing 3))
        ∧ exec (.jmp .iax) s = .next (((u.setLoc { s.loc with hi := v, ptr := cat v s.loc.lo + zext16 s.x }).setPC
            (s.pc + 1)).setStep (.executing 3)))
    ∧ ∀ m, m ≠ .abs →
      (AtT 4 s → AnswersDummy s.pc s u → exec (.jmp m) s = .next (u.setStep (.executing 4)))
      ∧ (AtT 5 s → Answers s.loc.ptr s v u →
        exec (.jmp m) s = .next ((u.setLoc { s.loc with lo := v }).setStep (.executing 5)))
      ∧ (AtT 6 s → Answers (s.loc.ptr + 1) s v u →
        exec (.jmp m) s = .next ((u.setPC (cat v s.loc.lo)).setStep .awaitFetch))

/-- 44_control.md R209, R210: `JSR` reads the target's low byte, pushes the address of its last byte, high byte first, and reads the
target's high byte after the pushes; `RTS` pulls a word, and its last cycle adds one. -/
def Obligations.SubroutinesComplete : Prop :=
  ∀ (s u : State) (v : Byte),
    (AtT 2 s → Answers s.pc s v u →
      exec .jsr s = .next (((u.setLoc { s.loc with lo := v }).setPC (s.pc + 1)).setStep (.executing 2)))
      ∧ (AtT 3 s → AnswersDummy (cat 0x01 s.s) s u → exec .jsr s = .next (u.setStep (.executing 3)))
      ∧ SecondCycleDiscards .rts
      ∧ (AtT 3 s → AnswersDummy (cat 0x01 s.s) s u → exec .rts s = .next ((u.setS (s.s + 1)).setStep (.executing 3)))
      ∧ (AtT 4 s → exec .jsr s = .next (((busWrite (cat 0x01 s.s) (hiByte s.pc) s).setS (s.s - 1)).setStep (.executing 4)))
      ∧ (AtT 5 s → exec .jsr s = .next (((busWrite (cat 0x01 s.s) (loByte s.pc) s).setS (s.s - 1)).setStep (.executing 5)))
      ∧ (AtT 6 s → Answers s.pc s v u → exec .jsr s = .next ((u.setPC (cat v s.loc.lo)).setStep .awaitFetch))
      ∧ (AtT 4 s → Answers (cat 0x01 s.s) s v u →
        exec .rts s = .next (((u.setLoc { s.loc with lo := v }).setS (s.s + 1)).setStep (.executing 4)))
      ∧ (AtT 5 s → Answers (cat 0x01 s.s) s v u →
        exec .rts s = .next ((u.setPC (cat v s.loc.lo)).setStep (.executing 5)))
      ∧ (AtT 6 s → AnswersDummy s.pc s u → exec .rts s = .next ((u.setPC (s.pc + 1)).setStep .awaitFetch))

/-- 45_stack_flags_system.md R215 to R218: a push writes at `{0x01, S}` and then decrements `S` modulo 256; `PHP` pushes the flags
with bits 5 and 4 set. R219 to R222: a pull increments `S` modulo 256 and then reads at `{0x01, S}`; `PLP` loads the six
flags and ignores bits 5 and 4. 40_engine.md R113, R114: T2 of each is a discarded read at `PC`, which stays. -/
def Obligations.PushesAndPullsComplete : Prop :=
  PushRuns .pha (fun s => s.a) ∧ PushRuns .php (fun s => s.p.pByte true) ∧ PushRuns .phx (fun s => s.x)
    ∧ PushRuns .phy (fun s => s.y)
    ∧ PullRuns .pla (fun v s u => (u.setA v).setP (nzOf s.p v))
    ∧ PullRuns .plx (fun v s u => (u.setX v).setP (nzOf s.p v))
    ∧ PullRuns .ply (fun v s u => (u.setY v).setP (nzOf s.p v))
    ∧ PullRuns .plp (fun v _ u => u.setP
        { n := v.getLsbD 7, v := v.getLsbD 6, d := v.getLsbD 3, i := v.getLsbD 2, z := v.getLsbD 1, c := v.getLsbD 0 })

/-- 45_stack_flags_system.md R223 to R230: each flag instruction writes its one flag; `NOP` writes nothing. -/
def Obligations.FlagInstructionsComplete : Prop :=
  ImpliedEnds .clc (fun s u => u.setP { s.p with c := false }) ∧ ImpliedEnds .sec (fun s u => u.setP { s.p with c := true })
    ∧ ImpliedEnds .cli (fun s u => u.setP { s.p with i := false })
    ∧ ImpliedEnds .sei (fun s u => u.setP { s.p with i := true })
    ∧ ImpliedEnds .clv (fun s u => u.setP { s.p with v := false })
    ∧ ImpliedEnds .cld (fun s u => u.setP { s.p with d := false })
    ∧ ImpliedEnds .sed (fun s u => u.setP { s.p with d := true }) ∧ ImpliedEnds .nop (fun _ u => u)

/-- 45_stack_flags_system.md R231; 60_exceptions.md R248, R253: `BRK` reads and skips the signature, pushes `PC` and the status with
bit 4 set, then sets `P.I` and clears `P.D`, then loads `PC` from `$FFFE`, low byte first. -/
def Obligations.BreakTakesItsException : Prop :=
  ∀ (s u : State) (v : Byte),
    (AtT 2 s → Answers s.pc s v u → exec .brk s = .next ((u.setPC (s.pc + 1)).setStep (.executing 2)))
      ∧ (AtT 3 s → exec .brk s = .next (((busWrite (cat 0x01 s.s) (hiByte s.pc) s).setS (s.s - 1)).setStep (.executing 3)))
      ∧ (AtT 4 s → exec .brk s = .next (((busWrite (cat 0x01 s.s) (loByte s.pc) s).setS (s.s - 1)).setStep (.executing 4)))
      ∧ (AtT 5 s → exec .brk s = .next ((((busWrite (cat 0x01 s.s) (s.p.pByte true) s).setS (s.s - 1)).setP
          { s.p with i := true, d := false }).setStep (.executing 5)))
      ∧ (AtT 6 s → AnswersVec 0xFFFE s v u →
        exec .brk s = .next ((u.setPC (cat (hiByte s.pc) v)).setStep (.executing 6)))
      ∧ (AtT 7 s → AnswersVec 0xFFFF s v u →
        exec .brk s = .next ((u.setPC (cat v (loByte s.pc))).setStep .awaitFetch))

/-- 45_stack_flags_system.md R232, 40_engine.md R119; 60_exceptions.md R256: every cycle of `RTI`: a discarded read at `PC`, one at
`{0x01, S}`, then it pulls the status byte (in T4, the cycle whose line names `P`: assumption 28) and `PC`, to which nothing is
added. Over one RAM the six cycles leave the flags of the byte pulled, `PC` from the two bytes above it, and a fetch to come. -/
def Obligations.ReturnFromInterrupt : Prop :=
  (∀ (s u : State) (v : Byte),
    SecondCycleDiscards .rti
      ∧ (AtT 3 s → AnswersDummy (cat 0x01 s.s) s u → exec .rti s = .next ((u.setS (s.s + 1)).setStep (.executing 3)))
      ∧ (AtT 4 s → Answers (cat 0x01 s.s) s v u → exec .rti s = .next (((u.setP
          { n := v.getLsbD 7, v := v.getLsbD 6, d := v.getLsbD 3, i := v.getLsbD 2, z := v.getLsbD 1,
            c := v.getLsbD 0 }).setS (s.s + 1)).setStep (.executing 4)))
      ∧ (AtT 5 s → Answers (cat 0x01 s.s) s v u →
        exec .rti s = .next (((u.setLoc { s.loc with lo := v }).setS (s.s + 1)).setStep (.executing 5)))
      ∧ (AtT 6 s → Answers (cat 0x01 s.s) s v u → exec .rti s = .next ((u.setPC (cat v s.loc.lo)).setStep .awaitFetch)))
  ∧ ∀ (mem : Memory) (s : State), FetchesOver mem 0x40 s →
    let v := mem.load (cat 0x01 (s.s + 1))
    RunsTo 6 s fun t => FetchesOver mem (mem.load t.pc) t ∧ t.s = s.s + 3
      ∧ t.pc = cat (mem.load (cat 0x01 (s.s + 3))) (mem.load (cat 0x01 (s.s + 2)))
      ∧ t.p = { n := v.getLsbD 7, v := v.getLsbD 6, d := v.getLsbD 3, i := v.getLsbD 2, z := v.getLsbD 1, c := v.getLsbD 0 }
      ∧ t.a = s.a ∧ t.x = s.x ∧ t.y = s.y

/-- 45_stack_flags_system.md R233, R234: after two discarded reads at `PC`, `WAI` waits for an interrupt and `STP` stops. -/
def Obligations.WaitAndStopComplete : Prop :=
  ∀ s u : State,
    (AtT 2 s → AnswersDummy s.pc s u →
      exec .wai s = .next (u.setStep (.executing 2)) ∧ exec .stp s = .next (u.setStep (.executing 2)))
    ∧ (AtT 3 s → AnswersDummy s.pc s u →
      exec .wai s = .next (u.setStep .waitingForInterrupt) ∧ exec .stp s = .next (u.setStep .stopped))

/-- 60_exceptions.md R258, 30_encoding.md R75: a reserved opcode never answers a next state; in the cycle that first enters its
handler it is the fault that names the opcode and its address. `step` comes here only for an opcode left out of
`RESERVED_OPCODES` or at a step an inspector wrote; that the instruction is the same fault there is the model's choice
(assumptions 17, 18 and 19). -/
def Obligations.ReservedOpcodeIsFatal : Prop :=
  ∀ (b : Byte) (s : State),
    (s.stepReg = .executing 0 ∨ s.stepReg = .executing 1 →
      exec (.reserved b) s = .fault (.reservedOpcode b (s.pc - 1) s))
    ∧ ∀ t, exec (.reserved b) s ≠ .next t

/-! ## Addresses and cycle counts -/

/-- 40_engine.md R101 to R110, R117, R118; 20_memory.md R49, R54: over one RAM and quiet lines, every instruction of class R, W or
M in memory forms its effective address in the documented cycles: at its data cycle `EA` is that address, `PC` is past the
operand bytes, and no register, flag or byte of memory has changed. -/
def Obligations.AddressCyclesFormTheEffectiveAddress : Prop :=
  ∀ (i : Instr) (m : AddrMode) (fix : Fixup) (mem : Memory) (op : Byte) (s : State),
    memoryForm i = some (m, fix) → i.wf = true → opcodeOf i = some op → FetchesOver mem op s →
    let b1 := mem.load (s.pc + 1)
    let b2 := mem.load (s.pc + 2)
    let k := dataCycleOf m fix (crossesPage mem m s.x s.y b1 b2)
    RunsTo (k - 1) s fun t =>
      AtT k t ∧ dataCycle m fix t.loc = k ∧ t.ir = .opcode op ∧ t.ea = effectiveAddress mem m s.x s.y b1 b2
        ∧ t.pc = s.pc + 1 + BitVec.ofNat 16 i.operandCount
        ∧ t.a = s.a ∧ t.x = s.x ∧ t.y = s.y ∧ t.s = s.s ∧ t.p = s.p ∧ OverRam mem t ∧ t.lines.quiet

/-- 40_engine.md R92, R126: an instruction's handler advances `step` by one in every cycle but the last, and leaves `Executing`
in its last cycle, the one R126 counts (given the page cross and the branch decision found so far). -/
def Obligations.EveryInstructionTakesItsCycles : Prop :=
  ∀ (i : Instr) (n : Nat) (s t : State), s.stepReg = .executing n → exec i s = .next t →
    (n + 1 < lastCycle i t.loc → t.stepReg = .executing (n + 1))
      ∧ (lastCycle i t.loc ≤ n + 1 → ∀ k, t.stepReg ≠ .executing k)

/-- 40_engine.md R96, 60_exceptions.md R259: from a state of the invariant no cycle is a step outside its domain. -/
def Obligations.NoStepOutOfDomain : Prop :=
  ∀ (s left : State) (ir : IReg) (n : StepReg), Inv s → step s ≠ .fault (.stepOutOfDomain ir n left)

/-! ## Interrupts and reset over one RAM -/

/-- 60_exceptions.md R248 to R250, R252, R253: seven cycles after an NMI or an IRQ is taken at a boundary, the machine stands at
the handler: frame, flags, stack pointer and vector as those rules say, pushed bit 4 clear. 45_stack_flags_system.md R231,
Scenario C: a `BRK` fetched at `B` has after seven cycles pushed `B + 2` and the status with bit 4 set, and stands at the IRQ
and BRK vector. -/
def Obligations.InterruptEntryOverRam : Prop :=
  (∀ (mem : Memory) (s : State), FetchesOver mem 0x00 s → RunsTo 7 s (Entered mem s (s.pc + 2) true 0xFFFE))
  ∧ ∀ (mem : Memory) (s : State), OverRam mem s → AtBoundary s → pollRst s = false →
    ((pollNmi s).1 = true → RunsTo 7 s (Entered mem s s.pc false 0xFFFA))
      ∧ ((pollNmi s).1 = false → pollIrq s = true → s.p.i = false ∨ s.stepReg = .waitingForInterrupt →
        RunsTo 7 s (Entered mem s s.pc false 0xFFFE))

/-- 60_exceptions.md R251, 10_state.md R24, Scenario A: from any state at all over one RAM, with RST asserted by one requester and
cleared after exactly one cycle, seven cycles in all leave what R24 says, and write nothing to memory. Over any devices, with
`RST_STACK_ACCESS = read`, no cycle of the sequence writes memory. With `RST_STACK_ACCESS = write` T3 to T5 are three pushes,
`PC` high, `PC` low and the status with bit 4 clear, and over one RAM the seven cycles leave that frame. -/
def Obligations.ResetFromAnyState : Prop :=
  (∀ s : State, s.cfg.rstStackAccess = .write →
    (AtT 3 s → rstSequence s =
        .next (((busWrite (cat 0x01 s.s) (hiByte s.pc) s).setS (s.s - 1)).setStep (.executing 3)))
      ∧ (AtT 4 s → rstSequence s =
        .next (((busWrite (cat 0x01 s.s) (loByte s.pc) s).setS (s.s - 1)).setStep (.executing 4)))
      ∧ (AtT 5 s → rstSequence s = .next ((((busWrite (cat 0x01 s.s) (s.p.pByte false) s).setS (s.s - 1)).setP
          { s.p with i := true, d := false }).setStep (.executing 5))))
  ∧ (∀ (mem : Memory) (s : State) (id : RequesterId), s.devices = [.fullRam mem] →
    s.cfg = { Params.default with rstStackAccess := .write } → s.lines.wf → s.lines.rst.requesters = [] →
    let mem' := framed mem s.s s.pc (s.p.pByte false)
    ∃ t, runEvents ([.host (.line (.trigger .rst id)), .cycle, .host (.line (.clear .rst id))]
        ++ List.replicate 6 .cycle) s = .next t
      ∧ t.devices = [.fullRam mem'] ∧ t.stepReg = .awaitFetch ∧ t.ir = .rstOp
      ∧ t.pc = cat (mem'.load 0xFFFD) (mem'.load 0xFFFC) ∧ t.s = s.s - 3
      ∧ t.p = { s.p with i := true, d := false } ∧ t.a = s.a ∧ t.x = s.x ∧ t.y = s.y ∧ t.lines = s.lines)
  ∧ (∀ s t : State, s.cfg.rstStackAccess = .read → rstSequence s = .next t → SameRam s t)
  ∧ ∀ (mem : Memory) (s : State) (id : RequesterId), OverRam mem s → s.lines.rst.requesters = [] →
    ∃ t, runEvents ([.host (.line (.trigger .rst id)), .cycle, .host (.line (.clear .rst id))]
        ++ List.replicate 6 .cycle) s = .next t
      ∧ OverRam mem t ∧ t.stepReg = .awaitFetch ∧ t.ir = .rstOp
      ∧ t.pc = cat (mem.load 0xFFFD) (mem.load 0xFFFC) ∧ t.s = s.s - 3
      ∧ t.p = { s.p with i := true, d := false } ∧ t.a = s.a ∧ t.x = s.x ∧ t.y = s.y ∧ t.lines = s.lines
      ∧ t.bus.address = 0xFFFD ∧ t.bus.readWrite = true ∧ t.bus.vectorPull = true

/-- 44_control.md R209, R210: over one RAM a `JSR` leaves the address of its third byte on the stack and stands at its target;
an `RTS` that pulls that frame resumes at the byte after the `JSR` with `S` as before. -/
def Obligations.SubroutineOverRam : Prop :=
  (∀ (mem : Memory) (s : State), FetchesOver mem 0x20 s →
    let mem' := (mem.store (cat 0x01 s.s) (hiByte (s.pc + 2))).store (cat 0x01 (s.s - 1)) (loByte (s.pc + 2))
    RunsTo 6 s fun t => FetchesOver mem' (mem'.load t.pc) t ∧ t.s = s.s - 2
      ∧ t.pc = cat (mem'.load (s.pc + 2)) (mem.load (s.pc + 1)) ∧ t.p = s.p ∧ t.a = s.a ∧ t.x = s.x ∧ t.y = s.y)
  ∧ ∀ (mem : Memory) (s : State) (ret : Word), FetchesOver mem 0x60 s →
    mem.load (cat 0x01 (s.s + 1)) = loByte ret → mem.load (cat 0x01 (s.s + 2)) = hiByte ret →
    RunsTo 6 s fun t => FetchesOver mem (mem.load t.pc) t ∧ t.s = s.s + 2 ∧ t.pc = ret + 1 ∧ t.p = s.p
      ∧ t.a = s.a ∧ t.x = s.x ∧ t.y = s.y

/-! ## Frames -/

/-- 10_state.md R10, R11: the registers each instruction may write in a cycle; every other register is unchanged. -/
def Obligations.RegisterFrame : Prop :=
  ∀ (i : Instr) (s t : State), exec i s = .next t →
    (writesA i = false → t.a = s.a) ∧ (writesX i = false → t.x = s.x) ∧ (writesY i = false → t.y = s.y)
      ∧ (writesS i = false → t.s = s.s)

/-- 10_state.md R14: the flags each instruction may write in a cycle; every other flag is unchanged. -/
def Obligations.FlagFrame : Prop :=
  ∀ (i : Instr) (s t : State), exec i s = .next t →
    (writesN i = false → t.p.n = s.p.n) ∧ (writesV i = false → t.p.v = s.p.v) ∧ (writesD i = false → t.p.d = s.p.d)
      ∧ (writesI i = false → t.p.i = s.p.i) ∧ (writesZ i = false → t.p.z = s.p.z) ∧ (writesC i = false → t.p.c = s.p.c)

/-- 20_memory.md R45; 41_load_store_transfer.md, 43_rmw_bit.md, 44_control.md R209, 45_stack_flags_system.md R215 to R218, R231: a
cycle changes at most the one byte `storeOf` computes (the store address is `EA` or `{0x01, S}`); every RAM mapped there holds
the byte stored; every other byte of every RAM reads as before. -/
def Obligations.MemoryFrame : Prop :=
  ∀ (i : Instr) (s t : State), exec i s = .next t →
    (∀ k a, (∀ w v, storeOf i s = some (w, v) → a ≠ w) → t.ramByte k a = s.ramByte k a)
      ∧ ∀ w v, storeOf i s = some (w, v) → (∀ d ∈ s.devices, d.wf) →
        ∀ k old, s.ramByte k w = some old → t.ramByte k w = some v

/-- 10_state.md R15, R19, R20; 20_memory.md R40, R46: no instruction changes the parameters, the number of devices or their ranges;
none but an untaken relative branch writes `IR`; and no line changes but by a device's request. -/
def Obligations.SurroundingsFrame : Prop :=
  ∀ (i : Instr) (s t : State), exec i s = .next t →
    t.cfg = s.cfg ∧ t.devices.map (fun d => (d.base, d.length)) = s.devices.map (fun d => (d.base, d.length))
      ∧ (prefetches i = false → t.ir = s.ir) ∧ ((∀ d ∈ s.devices, d.linesQuiet = true) → t.lines = s.lines)

/-! ## The invariant -/

/-- 40_engine.md R92, R96; 20_memory.md R43; 60_exceptions.md R240: every plain memory stays canonical, the lines stay lines, the
bus markers stay as R43 says, and a running handler stays inside its domain. -/
def Obligations.InvStep : Prop :=
  ∀ s t : State, Inv s → step s = .next t → Inv t

/-- The invariant holds right after reset. -/
def Obligations.InvReset : Prop := Inv State.reset

/-- 10_state.md R24, the column "after the RST sequence": the values the rule gives to `P.I`, `P.D`, `IR`, `step` and the bus
signals. `PC` is the word at the vector, read from the RAM of assumptions 9 and 10; the lines as created and the parameters at
their defaults are the model's choice (assumption 5). -/
def Obligations.ResetValues : Prop :=
  State.reset.p.i = true ∧ State.reset.p.d = false ∧ State.reset.ir = .rstOp ∧ State.reset.stepReg = .awaitFetch
    ∧ State.reset.bus.address = 0xFFFD ∧ State.reset.bus.readWrite = true ∧ State.reset.bus.vectorPull = true
    ∧ State.reset.lines = Lines.created ∧ State.reset.cfg = Params.default
    ∧ State.reset.ramByte 0 0xFFFC = some (loByte State.reset.pc)
    ∧ State.reset.ramByte 0 0xFFFD = some (hiByte State.reset.pc)
end

