-- ==== Sys2Proof/Laws/Lines.lean ====
section
/-! SUPPORT. The interrupt lines: a requester set stays a set, and every operation keeps a line well formed. -/

namespace Sys2Proof.Machine

theorem mem_insertId (id j : RequesterId) (ids : List RequesterId) :
    j ∈ insertId id ids ↔ j = id ∨ j ∈ ids := by
  induction ids with
  | nil => simp [insertId]
  | cons k rest ih =>
    simp only [insertId]
    split
    · simp
    · split
      · next h => subst h; simp
      · simp only [List.mem_cons, ih]; tauto

theorem insertId_pairwise (id : RequesterId) (ids : List RequesterId) (h : ids.Pairwise (· < ·)) :
    (insertId id ids).Pairwise (· < ·) := by
  induction ids with
  | nil => simp [insertId]
  | cons k rest ih =>
    have hk := List.pairwise_cons.1 h
    simp only [insertId]
    split
    · next hlt =>
      refine List.pairwise_cons.2 ⟨fun j hj => ?_, h⟩
      rcases List.mem_cons.1 hj with rfl | hj
      · exact hlt
      · exact Nat.lt_trans hlt (hk.1 j hj)
    · next hnlt =>
      split
      · exact h
      · next hne =>
        refine List.pairwise_cons.2 ⟨fun j hj => ?_, ih hk.2⟩
        rcases (mem_insertId id j rest).1 hj with rfl | hj
        · exact Nat.lt_of_le_of_ne (Nat.le_of_not_lt hnlt) (Ne.symm hne)
        · exact hk.1 j hj

theorem mem_removeId (id j : RequesterId) (ids : List RequesterId) :
    j ∈ removeId id ids ↔ j ∈ ids ∧ j ≠ id := by simp [removeId]

namespace InterruptLine

theorem trigger_wf {l : InterruptLine} (h : l.wf) (cap : NmiEdgeCapture) (id : RequesterId) :
    (l.trigger cap id).2.wf := by
  refine ⟨insertId_pairwise id _ h.1, fun he => ?_⟩
  have he' : l.edgeTriggered = false := he
  simp [trigger, he', h.2 he']

theorem clear_wf {l : InterruptLine} (h : l.wf) (id : RequesterId) : (l.clear id).2.wf :=
  ⟨h.1.filter _, h.2⟩

theorem shouldInterrupt_wf {l : InterruptLine} (h : l.wf) (cap : NmiEdgeCapture) :
    (l.shouldInterrupt cap).2.wf := by
  unfold shouldInterrupt
  split
  · exact h
  · next he =>
    have he' : l.edgeTriggered = true := by simpa using he
    split
    · exact ⟨h.1, fun _ => rfl⟩
    · split
      · exact ⟨h.1, fun _ => rfl⟩
      · split
        · exact h
        · exact ⟨h.1, fun he2 => by simp_all⟩

@[simp] theorem trigger_edge (l : InterruptLine) (cap : NmiEdgeCapture) (id : RequesterId) :
    (l.trigger cap id).2.edgeTriggered = l.edgeTriggered := rfl

@[simp] theorem clear_edge (l : InterruptLine) (id : RequesterId) :
    (l.clear id).2.edgeTriggered = l.edgeTriggered := rfl

@[simp] theorem shouldInterrupt_edge (l : InterruptLine) (cap : NmiEdgeCapture) :
    (l.shouldInterrupt cap).2.edgeTriggered = l.edgeTriggered := by
  unfold shouldInterrupt; (repeat' split) <;> rfl

/-- A level line's poll is `triggered()` and changes nothing (60_exceptions.md R244). -/
theorem shouldInterrupt_level {l : InterruptLine} (h : l.edgeTriggered = false) (cap : NmiEdgeCapture) :
    l.shouldInterrupt cap = (l.triggered, l) := by simp [shouldInterrupt, h]

end InterruptLine

namespace Lines

theorem act_wf {ls : Lines} (h : ls.wf) (cap : NmiEdgeCapture) (action : LineAction) : (ls.act cap action).wf := by
  obtain ⟨h1, h2, h3, h4, h5, h6⟩ := h
  cases action with
  | trigger name id =>
    cases name with
    | nmi => exact ⟨InterruptLine.trigger_wf h1 cap id, h2, h3, h4, h5, h6⟩
    | irq => exact ⟨h1, InterruptLine.trigger_wf h2 cap id, h3, h4, h5, h6⟩
    | rst => exact ⟨h1, h2, InterruptLine.trigger_wf h3 cap id, h4, h5, h6⟩
  | clear name id =>
    cases name with
    | nmi => exact ⟨InterruptLine.clear_wf h1 id, h2, h3, h4, h5, h6⟩
    | irq => exact ⟨h1, InterruptLine.clear_wf h2 id, h3, h4, h5, h6⟩
    | rst => exact ⟨h1, h2, InterruptLine.clear_wf h3 id, h4, h5, h6⟩

theorem actAll_wf {ls : Lines} (h : ls.wf) (cap : NmiEdgeCapture) (actions : List LineAction) :
    (ls.actAll cap actions).wf := by
  unfold actAll
  induction actions generalizing ls with
  | nil => exact h
  | cons a rest ih => exact ih (act_wf h cap a)

theorem created_wf : Lines.created.wf := by
  simp [Lines.wf, Lines.created, InterruptLine.wf, InterruptLine.created]

end Lines

end Sys2Proof.Machine
end

