-- ==== Sys2Proof/Laws/Memory.lean ====
section
/-! SUPPORT. Plain memory: a read after a write, and that every operation keeps the canonical form. -/

namespace Sys2Proof.Machine.Memory

theorem read_place_other (rest : Memory) (a b : Nat) (v : Byte) (h : b ≠ a) :
    read (place a v rest) b = read rest b := by
  unfold place; split
  · rfl
  · simp [read, h]

/-- A write leaves every other address alone. -/
theorem read_write_other (m : Memory) (a b : Nat) (v : Byte) (h : b ≠ a) : read (write m a v) b = read m b := by
  induction m with
  | nil => exact read_place_other [] a b v h
  | cons c rest ih =>
    obtain ⟨k, w⟩ := c
    simp only [write]
    split
    · exact read_place_other _ a b v h
    · split
      · next hk => subst hk; rw [read_place_other _ _ _ _ h]; simp [read, h]
      · simp only [read]; split
        · rfl
        · exact ih

/-- Below every listed address memory reads as unlisted. -/
theorem read_below (m : Memory) (a : Nat) (h : ∀ c ∈ m, a < c.1) : read m a = unlisted := by
  induction m with
  | nil => rfl
  | cons c rest ih =>
    obtain ⟨k, w⟩ := c
    have hk : a < k := h (k, w) (by simp)
    simp only [read]
    rw [if_neg (by omega)]
    exact ih fun c hc => h c (by simp [hc])

theorem read_place_same (rest : Memory) (a : Nat) (v : Byte) (h : ∀ c ∈ rest, a < c.1) :
    read (place a v rest) a = v := by
  unfold place; split
  · next hv => rw [read_below _ _ h, hv]
  · simp [read]

theorem wf_tail {c : Host.Cell} {rest : Memory} (h : wf (c :: rest)) : wf rest :=
  ⟨(List.pairwise_cons.1 h.1).2, fun d hd => h.2 d (by simp [hd])⟩

/-- A read after a write to the same address gives the byte written. -/
theorem read_write_same (m : Memory) (a : Nat) (v : Byte) (h : wf m) : read (write m a v) a = v := by
  induction m with
  | nil => exact read_place_same [] a v (by simp)
  | cons c rest ih =>
    obtain ⟨k, w⟩ := c
    have hlt := (List.pairwise_cons.1 h.1).1
    simp only [write]
    split
    · next hak =>
      refine read_place_same _ a v fun c hc => ?_
      rcases List.mem_cons.1 hc with rfl | hc
      · exact hak
      · exact Nat.lt_trans hak (hlt c hc)
    · split
      · next hk => subst hk; exact read_place_same _ _ v hlt
      · next hk => simp only [read]; rw [if_neg hk]; exact ih (wf_tail h)

theorem mem_place {a : Nat} {v : Byte} {rest : Memory} {c : Host.Cell} (h : c ∈ place a v rest) :
    (c = (a, v) ∧ v ≠ unlisted) ∨ c ∈ rest := by
  unfold place at h; split at h
  · exact .inr h
  · next hv => rcases List.mem_cons.1 h with rfl | h
               · exact .inl ⟨rfl, hv⟩
               · exact .inr h

/-- Every cell after a write is the cell written or was there before. -/
theorem mem_write (m : Memory) (a : Nat) (v : Byte) (c : Host.Cell) (h : c ∈ write m a v) :
    (c = (a, v) ∧ v ≠ unlisted) ∨ c ∈ m := by
  induction m with
  | nil => exact mem_place h
  | cons d rest ih =>
    obtain ⟨k, w⟩ := d
    simp only [write] at h
    split at h
    · exact mem_place h
    · split at h
      · rcases mem_place h with h | h
        · exact .inl h
        · exact .inr (by simp [h])
      · rcases List.mem_cons.1 h with rfl | h
        · exact .inr (by simp)
        · rcases ih h with h | h
          · exact .inl h
          · exact .inr (by simp [h])

theorem place_pairwise (a : Nat) (v : Byte) (rest : Memory) (h : ∀ c ∈ rest, a < c.1)
    (hp : rest.Pairwise (fun p q => p.1 < q.1)) : (place a v rest).Pairwise (fun p q => p.1 < q.1) := by
  unfold place; split
  · exact hp
  · exact List.pairwise_cons.2 ⟨h, hp⟩

theorem write_pairwise (m : Memory) (a : Nat) (v : Byte) (h : m.Pairwise (fun p q => p.1 < q.1)) :
    (write m a v).Pairwise (fun p q => p.1 < q.1) := by
  induction m with
  | nil => exact place_pairwise a v [] (by simp) h
  | cons d rest ih =>
    obtain ⟨k, w⟩ := d
    have hd := List.pairwise_cons.1 h
    simp only [write]
    split
    · next hak =>
      refine place_pairwise a v _ (fun c hc => ?_) h
      rcases List.mem_cons.1 hc with rfl | hc
      · exact hak
      · exact Nat.lt_trans hak (hd.1 c hc)
    · split
      · next hk => subst hk; exact place_pairwise _ v _ hd.1 hd.2
      · refine List.pairwise_cons.2 ⟨fun c hc => ?_, ih hd.2⟩
        rcases mem_write rest a v c hc with ⟨rfl, -⟩ | hc
        · show k < a; omega
        · exact hd.1 c hc

/-- A write inside the address space keeps the canonical form. -/
theorem write_wf (m : Memory) (a : Nat) (v : Byte) (ha : a < 65536) (h : wf m) : wf (write m a v) := by
  refine ⟨write_pairwise m a v h.1, fun c hc => ?_⟩
  rcases mem_write m a v c hc with ⟨rfl, hv⟩ | hc
  · exact ⟨ha, hv⟩
  · exact h.2 c hc

/-- Two canonical memories that read alike are equal: equal memories are equal data. -/
theorem ext_of_read {m m' : Memory} (h : wf m) (h' : wf m') (hr : ∀ a, read m a = read m' a) : m = m' := by
  induction m generalizing m' with
  | nil =>
    cases m' with
    | nil => rfl
    | cons c rest => exact absurd (by simpa [read] using (hr c.1).symm) (h'.2 c (by simp)).2
  | cons c rest ih =>
    cases m' with
    | nil => exact absurd (by simpa [read] using hr c.1) (h.2 c (by simp)).2
    | cons d rest' =>
      obtain ⟨k, v⟩ := c
      obtain ⟨k', v'⟩ := d
      have hb := (List.pairwise_cons.1 h.1).1
      have hb' := (List.pairwise_cons.1 h'.1).1
      have hkk : k = k' := by
        rcases Nat.lt_trichotomy k k' with hlt | heq | hgt
        · have := hr k
          rw [read_below ((k', v') :: rest') k (fun c hc => by
            rcases List.mem_cons.1 hc with rfl | hc
            · exact hlt
            · exact Nat.lt_trans hlt (hb' c hc))] at this
          exact absurd (by simpa [read] using this) (h.2 (k, v) (by simp)).2
        · exact heq
        · have := hr k'
          rw [read_below ((k, v) :: rest) k' (fun c hc => by
            rcases List.mem_cons.1 hc with rfl | hc
            · exact hgt
            · exact Nat.lt_trans hgt (hb c hc))] at this
          exact absurd (by simpa [read] using this.symm) (h'.2 (k', v') (by simp)).2
      subst hkk
      have hv : v = v' := by simpa [read] using hr k
      subst hv
      have : rest = rest' := ih (wf_tail h) (wf_tail h') fun a => by
        by_cases hak : a = k
        · rw [hak, read_below _ _ hb, read_below _ _ hb']
        · simpa [read, hak] using hr a
      rw [this]

end Sys2Proof.Machine.Memory
end

