-- ==== Sys2Proof/Laws/Devices.lean ====
section
/-! SUPPORT. One notification of one device, and of the whole list: what it keeps, and what a RAM holds after it. -/

namespace Sys2Proof.Machine

theorem Device.inRange_withBody (d : Device) (body : DeviceBody) (a : Word) :
    (d.withBody body).inRange a = d.inRange a := rfl

theorem Device.ramByte_of_ram {d : Device} {mem : Memory} (hb : d.body = .ram mem) (a : Word) :
    d.ramByte a = if d.inRange a then some (mem.read a.toNat) else none := by
  unfold Device.ramByte; rw [hb]

theorem Device.ramByte_withBody (d : Device) (mem : Memory) (a : Word) :
    (d.withBody (.ram mem)).ramByte a = if d.inRange a then some (mem.read a.toNat) else none := rfl

/-- A notification keeps a device's plain memory canonical. -/
theorem Device.onCycle_wf {d : Device} (h : d.wf) (bus : BusSignals) : (d.onCycle bus).device.wf := by
  unfold Device.onCycle
  cases hb : d.body with
  | ram mem =>
    have hm : Memory.wf mem := by simpa [Device.wf, hb] using h
    dsimp only; split
    · exact Memory.write_wf mem _ _ bus.address.isLt hm
    · exact h
  | rom mem => exact h
  | constant v => exact h
  | lineClearer l id => exact h
  | open_ k st => trivial

/-- A byte of RAM is changed by nothing but a write cycle at its own address. -/
theorem Device.onCycle_ramByte_other (d : Device) (bus : BusSignals) (a : Word)
    (h : bus.readWrite = true ∨ a ≠ bus.address) : (d.onCycle bus).device.ramByte a = d.ramByte a := by
  unfold Device.onCycle
  cases hb : d.body with
  | ram mem =>
    dsimp only; split
    · next hw =>
      have ha : a ≠ bus.address := by
        rcases h with h | h
        · simp [h] at hw
        · exact h
      have hn : a.toNat ≠ bus.address.toNat := fun e => ha (BitVec.eq_of_toNat_eq e)
      rw [Device.ramByte_withBody, Device.ramByte_of_ram hb, Memory.read_write_other _ _ _ _ hn]
    · rfl
  | rom mem => rfl
  | constant v => rfl
  | lineClearer l id => rfl
  | open_ k st => simp [Device.ramByte, Device.withBody, hb]

/-- A RAM mapped at the address of a write cycle holds the byte written (20_memory.md R45). -/
theorem Device.onCycle_ramByte_written {d : Device} (hd : d.wf) (bus : BusSignals) (old : Byte)
    (hw : bus.readWrite = false) (h : d.ramByte bus.address = some old) :
    (d.onCycle bus).device.ramByte bus.address = some bus.data := by
  unfold Device.onCycle
  cases hb : d.body with
  | ram mem =>
    have hm : Memory.wf mem := by simpa [Device.wf, hb] using hd
    have hr : d.inRange bus.address = true := by
      by_contra hn; simp [Device.ramByte, hb, hn] at h
    simp only [hr, hw, Bool.not_false, Bool.and_self, if_true]
    rw [Device.ramByte_withBody, if_pos hr, Memory.read_write_same _ _ _ hm]
  | rom mem => simp [Device.ramByte, hb] at h
  | constant v => simp [Device.ramByte, hb] at h
  | lineClearer l id => simp [Device.ramByte, hb] at h
  | open_ k st => simp [Device.ramByte, hb] at h

section
variable (cap : NmiEdgeCapture) (bus : BusSignals) (n : Nat) (ls : Lines) (ds : List Device)

theorem driveBus_fields (drive : Option Byte) :
    (driveBus bus n drive).1.address = bus.address ∧ (driveBus bus n drive).1.readWrite = bus.readWrite
      ∧ (driveBus bus n drive).1.sync = bus.sync ∧ (driveBus bus n drive).1.vectorPull = bus.vectorPull := by
  cases drive <;> exact ⟨rfl, rfl, rfl, rfl⟩

/-- A notification round changes no signal but `data`. -/
theorem notifyAll_bus :
    (notifyAll cap bus n ls ds).bus.address = bus.address
      ∧ (notifyAll cap bus n ls ds).bus.readWrite = bus.readWrite
      ∧ (notifyAll cap bus n ls ds).bus.sync = bus.sync
      ∧ (notifyAll cap bus n ls ds).bus.vectorPull = bus.vectorPull := by
  induction ds generalizing bus n ls with
  | nil => exact ⟨rfl, rfl, rfl, rfl⟩
  | cons d rest ih =>
    have hd := driveBus_fields bus n (d.onCycle bus).drive
    have := ih (driveBus bus n (d.onCycle bus).drive).1 (driveBus bus n (d.onCycle bus).drive).2
      (ls.actAll cap (d.onCycle bus).actions)
    rw [hd.1, hd.2.1, hd.2.2.1, hd.2.2.2] at this
    exact this

theorem notifyAll_length : (notifyAll cap bus n ls ds).devices.length = ds.length := by
  induction ds generalizing bus n ls with
  | nil => rfl
  | cons d rest ih => simp [notifyAll, ih]

theorem notifyAll_wf (h : ∀ d ∈ ds, d.wf) : ∀ d ∈ (notifyAll cap bus n ls ds).devices, d.wf := by
  induction ds generalizing bus n ls with
  | nil => simp [notifyAll]
  | cons d rest ih =>
    intro e he
    rcases List.mem_cons.1 he with rfl | he
    · exact Device.onCycle_wf (h d (by simp)) bus
    · exact ih _ _ _ (fun d hd => h d (by simp [hd])) e he

theorem notifyAll_lines_wf (h : ls.wf) : (notifyAll cap bus n ls ds).lines.wf := by
  induction ds generalizing bus n ls with
  | nil => exact h
  | cons d rest ih => exact ih _ _ _ (Lines.actAll_wf h cap _)

/-- After a notification round every RAM byte is as before, but at the address of a write. -/
theorem notifyAll_ramByte_other (a : Word) (h : bus.readWrite = true ∨ a ≠ bus.address) (k : Nat) :
    ((notifyAll cap bus n ls ds).devices[k]?).bind (·.ramByte a) = (ds[k]?).bind (·.ramByte a) := by
  induction ds generalizing bus n ls k with
  | nil => rfl
  | cons d rest ih =>
    cases k with
    | zero => simpa [notifyAll] using Device.onCycle_ramByte_other d bus a h
    | succ k =>
      have hd := driveBus_fields bus n (d.onCycle bus).drive
      simpa [notifyAll] using ih _ _ _ (by rw [hd.1, hd.2.1]; exact h) k

theorem driveBus_write (d : Device) (hw : bus.readWrite = false) :
    driveBus bus n (d.onCycle bus).drive = (bus, n) := by
  have : (d.onCycle bus).drive = none := by
    unfold Device.onCycle
    cases d.body <;> simp only [hw, Bool.and_false, Bool.not_false, Bool.and_true]
    case ram => split <;> rfl
    all_goals rfl
  rw [this]; rfl

/-- On a write no device drives: the signals and the driver count stay (20_memory.md R45). -/
theorem notifyAll_write (hw : bus.readWrite = false) :
    (notifyAll cap bus n ls ds).bus = bus ∧ (notifyAll cap bus n ls ds).driven = n := by
  induction ds generalizing ls with
  | nil => exact ⟨rfl, rfl⟩
  | cons d rest ih => simp only [notifyAll, driveBus_write bus n d hw]; exact ih _

/-- After a write cycle every RAM mapped at its address holds the byte written. -/
theorem notifyAll_ramByte_written (hd : ∀ d ∈ ds, d.wf) (hw : bus.readWrite = false) (k : Nat) (old : Byte)
    (h : (ds[k]?).bind (·.ramByte bus.address) = some old) :
    ((notifyAll cap bus n ls ds).devices[k]?).bind (·.ramByte bus.address) = some bus.data := by
  induction ds generalizing ls k with
  | nil => simp at h
  | cons d rest ih =>
    simp only [notifyAll, driveBus_write bus n d hw]
    cases k with
    | zero => simpa using Device.onCycle_ramByte_written (hd d (by simp)) bus old hw (by simpa using h)
    | succ k => simpa using ih _ (fun d h => hd d (by simp [h])) k (by simpa using h)

/-- A notification leaves a device's range alone. -/
theorem Device.onCycle_range (d : Device) : ((d.onCycle bus).device.base, (d.onCycle bus).device.length) = (d.base, d.length) := by
  unfold Device.onCycle
  cases d.body <;> dsimp only <;> first | rfl | (split <;> rfl)

theorem notifyAll_ranges :
    (notifyAll cap bus n ls ds).devices.map (fun d => (d.base, d.length)) = ds.map (fun d => (d.base, d.length)) := by
  induction ds generalizing bus n ls with
  | nil => rfl
  | cons d rest ih => simp [notifyAll, ih, d.onCycle_range bus |> Prod.mk.inj |>.1, d.onCycle_range bus |> Prod.mk.inj |>.2]

/-- Devices that request nothing leave the lines alone. -/
theorem notifyAll_linesQuiet (h : ∀ d ∈ ds, d.linesQuiet = true) : (notifyAll cap bus n ls ds).lines = ls := by
  induction ds generalizing bus n ls with
  | nil => rfl
  | cons d rest ih =>
    have hd := h d (by simp)
    have ha : (d.onCycle bus).actions = [] := by
      unfold Device.linesQuiet at hd
      unfold Device.onCycle
      cases hb : d.body <;> simp [hb] at hd ⊢
      split <;> rfl
    simp only [notifyAll, ha]
    exact ih _ _ _ (fun e he => h e (by simp [he]))

end

end Sys2Proof.Machine
end

