-- ==== Sys2Proof/Laws/State.lean ====
section
/-! SUPPORT. One lemma per field per named update of State (Machine/State.lean), and for the step-register, register and
flag operations built from them, so that no proof unfolds a record update. -/

namespace Sys2Proof.Machine.State

variable (st : State)

section
variable (v : Byte)
@[simp] theorem setA_a : (st.setA v).a = v := rfl
@[simp] theorem setA_x : (st.setA v).x = st.x := rfl
@[simp] theorem setA_y : (st.setA v).y = st.y := rfl
@[simp] theorem setA_s : (st.setA v).s = st.s := rfl
@[simp] theorem setA_pc : (st.setA v).pc = st.pc := rfl
@[simp] theorem setA_p : (st.setA v).p = st.p := rfl
@[simp] theorem setA_ir : (st.setA v).ir = st.ir := rfl
@[simp] theorem setA_stepReg : (st.setA v).stepReg = st.stepReg := rfl
@[simp] theorem setA_ea : (st.setA v).ea = st.ea := rfl
@[simp] theorem setA_iab : (st.setA v).iab = st.iab := rfl
@[simp] theorem setA_tmp : (st.setA v).tmp = st.tmp := rfl
@[simp] theorem setA_loc : (st.setA v).loc = st.loc := rfl
@[simp] theorem setA_bus : (st.setA v).bus = st.bus := rfl
@[simp] theorem setA_driven : (st.setA v).driven = st.driven := rfl
@[simp] theorem setA_lines : (st.setA v).lines = st.lines := rfl
@[simp] theorem setA_devices : (st.setA v).devices = st.devices := rfl
@[simp] theorem setA_cfg : (st.setA v).cfg = st.cfg := rfl
@[simp] theorem setA_freeIdx : (st.setA v).freeIdx = st.freeIdx := rfl
end

section
variable (v : Byte)
@[simp] theorem setX_a : (st.setX v).a = st.a := rfl
@[simp] theorem setX_x : (st.setX v).x = v := rfl
@[simp] theorem setX_y : (st.setX v).y = st.y := rfl
@[simp] theorem setX_s : (st.setX v).s = st.s := rfl
@[simp] theorem setX_pc : (st.setX v).pc = st.pc := rfl
@[simp] theorem setX_p : (st.setX v).p = st.p := rfl
@[simp] theorem setX_ir : (st.setX v).ir = st.ir := rfl
@[simp] theorem setX_stepReg : (st.setX v).stepReg = st.stepReg := rfl
@[simp] theorem setX_ea : (st.setX v).ea = st.ea := rfl
@[simp] theorem setX_iab : (st.setX v).iab = st.iab := rfl
@[simp] theorem setX_tmp : (st.setX v).tmp = st.tmp := rfl
@[simp] theorem setX_loc : (st.setX v).loc = st.loc := rfl
@[simp] theorem setX_bus : (st.setX v).bus = st.bus := rfl
@[simp] theorem setX_driven : (st.setX v).driven = st.driven := rfl
@[simp] theorem setX_lines : (st.setX v).lines = st.lines := rfl
@[simp] theorem setX_devices : (st.setX v).devices = st.devices := rfl
@[simp] theorem setX_cfg : (st.setX v).cfg = st.cfg := rfl
@[simp] theorem setX_freeIdx : (st.setX v).freeIdx = st.freeIdx := rfl
end

section
variable (v : Byte)
@[simp] theorem setY_a : (st.setY v).a = st.a := rfl
@[simp] theorem setY_x : (st.setY v).x = st.x := rfl
@[simp] theorem setY_y : (st.setY v).y = v := rfl
@[simp] theorem setY_s : (st.setY v).s = st.s := rfl
@[simp] theorem setY_pc : (st.setY v).pc = st.pc := rfl
@[simp] theorem setY_p : (st.setY v).p = st.p := rfl
@[simp] theorem setY_ir : (st.setY v).ir = st.ir := rfl
@[simp] theorem setY_stepReg : (st.setY v).stepReg = st.stepReg := rfl
@[simp] theorem setY_ea : (st.setY v).ea = st.ea := rfl
@[simp] theorem setY_iab : (st.setY v).iab = st.iab := rfl
@[simp] theorem setY_tmp : (st.setY v).tmp = st.tmp := rfl
@[simp] theorem setY_loc : (st.setY v).loc = st.loc := rfl
@[simp] theorem setY_bus : (st.setY v).bus = st.bus := rfl
@[simp] theorem setY_driven : (st.setY v).driven = st.driven := rfl
@[simp] theorem setY_lines : (st.setY v).lines = st.lines := rfl
@[simp] theorem setY_devices : (st.setY v).devices = st.devices := rfl
@[simp] theorem setY_cfg : (st.setY v).cfg = st.cfg := rfl
@[simp] theorem setY_freeIdx : (st.setY v).freeIdx = st.freeIdx := rfl
end

section
variable (v : Byte)
@[simp] theorem setS_a : (st.setS v).a = st.a := rfl
@[simp] theorem setS_x : (st.setS v).x = st.x := rfl
@[simp] theorem setS_y : (st.setS v).y = st.y := rfl
@[simp] theorem setS_s : (st.setS v).s = v := rfl
@[simp] theorem setS_pc : (st.setS v).pc = st.pc := rfl
@[simp] theorem setS_p : (st.setS v).p = st.p := rfl
@[simp] theorem setS_ir : (st.setS v).ir = st.ir := rfl
@[simp] theorem setS_stepReg : (st.setS v).stepReg = st.stepReg := rfl
@[simp] theorem setS_ea : (st.setS v).ea = st.ea := rfl
@[simp] theorem setS_iab : (st.setS v).iab = st.iab := rfl
@[simp] theorem setS_tmp : (st.setS v).tmp = st.tmp := rfl
@[simp] theorem setS_loc : (st.setS v).loc = st.loc := rfl
@[simp] theorem setS_bus : (st.setS v).bus = st.bus := rfl
@[simp] theorem setS_driven : (st.setS v).driven = st.driven := rfl
@[simp] theorem setS_lines : (st.setS v).lines = st.lines := rfl
@[simp] theorem setS_devices : (st.setS v).devices = st.devices := rfl
@[simp] theorem setS_cfg : (st.setS v).cfg = st.cfg := rfl
@[simp] theorem setS_freeIdx : (st.setS v).freeIdx = st.freeIdx := rfl
end

section
variable (v : Word)
@[simp] theorem setPC_a : (st.setPC v).a = st.a := rfl
@[simp] theorem setPC_x : (st.setPC v).x = st.x := rfl
@[simp] theorem setPC_y : (st.setPC v).y = st.y := rfl
@[simp] theorem setPC_s : (st.setPC v).s = st.s := rfl
@[simp] theorem setPC_pc : (st.setPC v).pc = v := rfl
@[simp] theorem setPC_p : (st.setPC v).p = st.p := rfl
@[simp] theorem setPC_ir : (st.setPC v).ir = st.ir := rfl
@[simp] theorem setPC_stepReg : (st.setPC v).stepReg = st.stepReg := rfl
@[simp] theorem setPC_ea : (st.setPC v).ea = st.ea := rfl
@[simp] theorem setPC_iab : (st.setPC v).iab = st.iab := rfl
@[simp] theorem setPC_tmp : (st.setPC v).tmp = st.tmp := rfl
@[simp] theorem setPC_loc : (st.setPC v).loc = st.loc := rfl
@[simp] theorem setPC_bus : (st.setPC v).bus = st.bus := rfl
@[simp] theorem setPC_driven : (st.setPC v).driven = st.driven := rfl
@[simp] theorem setPC_lines : (st.setPC v).lines = st.lines := rfl
@[simp] theorem setPC_devices : (st.setPC v).devices = st.devices := rfl
@[simp] theorem setPC_cfg : (st.setPC v).cfg = st.cfg := rfl
@[simp] theorem setPC_freeIdx : (st.setPC v).freeIdx = st.freeIdx := rfl
end

section
variable (v : Flags)
@[simp] theorem setP_a : (st.setP v).a = st.a := rfl
@[simp] theorem setP_x : (st.setP v).x = st.x := rfl
@[simp] theorem setP_y : (st.setP v).y = st.y := rfl
@[simp] theorem setP_s : (st.setP v).s = st.s := rfl
@[simp] theorem setP_pc : (st.setP v).pc = st.pc := rfl
@[simp] theorem setP_p : (st.setP v).p = v := rfl
@[simp] theorem setP_ir : (st.setP v).ir = st.ir := rfl
@[simp] theorem setP_stepReg : (st.setP v).stepReg = st.stepReg := rfl
@[simp] theorem setP_ea : (st.setP v).ea = st.ea := rfl
@[simp] theorem setP_iab : (st.setP v).iab = st.iab := rfl
@[simp] theorem setP_tmp : (st.setP v).tmp = st.tmp := rfl
@[simp] theorem setP_loc : (st.setP v).loc = st.loc := rfl
@[simp] theorem setP_bus : (st.setP v).bus = st.bus := rfl
@[simp] theorem setP_driven : (st.setP v).driven = st.driven := rfl
@[simp] theorem setP_lines : (st.setP v).lines = st.lines := rfl
@[simp] theorem setP_devices : (st.setP v).devices = st.devices := rfl
@[simp] theorem setP_cfg : (st.setP v).cfg = st.cfg := rfl
@[simp] theorem setP_freeIdx : (st.setP v).freeIdx = st.freeIdx := rfl
end

section
variable (v : IReg)
@[simp] theorem setIR_a : (st.setIR v).a = st.a := rfl
@[simp] theorem setIR_x : (st.setIR v).x = st.x := rfl
@[simp] theorem setIR_y : (st.setIR v).y = st.y := rfl
@[simp] theorem setIR_s : (st.setIR v).s = st.s := rfl
@[simp] theorem setIR_pc : (st.setIR v).pc = st.pc := rfl
@[simp] theorem setIR_p : (st.setIR v).p = st.p := rfl
@[simp] theorem setIR_ir : (st.setIR v).ir = v := rfl
@[simp] theorem setIR_stepReg : (st.setIR v).stepReg = st.stepReg := rfl
@[simp] theorem setIR_ea : (st.setIR v).ea = st.ea := rfl
@[simp] theorem setIR_iab : (st.setIR v).iab = st.iab := rfl
@[simp] theorem setIR_tmp : (st.setIR v).tmp = st.tmp := rfl
@[simp] theorem setIR_loc : (st.setIR v).loc = st.loc := rfl
@[simp] theorem setIR_bus : (st.setIR v).bus = st.bus := rfl
@[simp] theorem setIR_driven : (st.setIR v).driven = st.driven := rfl
@[simp] theorem setIR_lines : (st.setIR v).lines = st.lines := rfl
@[simp] theorem setIR_devices : (st.setIR v).devices = st.devices := rfl
@[simp] theorem setIR_cfg : (st.setIR v).cfg = st.cfg := rfl
@[simp] theorem setIR_freeIdx : (st.setIR v).freeIdx = st.freeIdx := rfl
end

section
variable (v : StepReg)
@[simp] theorem setStep_a : (st.setStep v).a = st.a := rfl
@[simp] theorem setStep_x : (st.setStep v).x = st.x := rfl
@[simp] theorem setStep_y : (st.setStep v).y = st.y := rfl
@[simp] theorem setStep_s : (st.setStep v).s = st.s := rfl
@[simp] theorem setStep_pc : (st.setStep v).pc = st.pc := rfl
@[simp] theorem setStep_p : (st.setStep v).p = st.p := rfl
@[simp] theorem setStep_ir : (st.setStep v).ir = st.ir := rfl
@[simp] theorem setStep_stepReg : (st.setStep v).stepReg = v := rfl
@[simp] theorem setStep_ea : (st.setStep v).ea = st.ea := rfl
@[simp] theorem setStep_iab : (st.setStep v).iab = st.iab := rfl
@[simp] theorem setStep_tmp : (st.setStep v).tmp = st.tmp := rfl
@[simp] theorem setStep_loc : (st.setStep v).loc = st.loc := rfl
@[simp] theorem setStep_bus : (st.setStep v).bus = st.bus := rfl
@[simp] theorem setStep_driven : (st.setStep v).driven = st.driven := rfl
@[simp] theorem setStep_lines : (st.setStep v).lines = st.lines := rfl
@[simp] theorem setStep_devices : (st.setStep v).devices = st.devices := rfl
@[simp] theorem setStep_cfg : (st.setStep v).cfg = st.cfg := rfl
@[simp] theorem setStep_freeIdx : (st.setStep v).freeIdx = st.freeIdx := rfl
end

section
variable (v : Word)
@[simp] theorem setEA_a : (st.setEA v).a = st.a := rfl
@[simp] theorem setEA_x : (st.setEA v).x = st.x := rfl
@[simp] theorem setEA_y : (st.setEA v).y = st.y := rfl
@[simp] theorem setEA_s : (st.setEA v).s = st.s := rfl
@[simp] theorem setEA_pc : (st.setEA v).pc = st.pc := rfl
@[simp] theorem setEA_p : (st.setEA v).p = st.p := rfl
@[simp] theorem setEA_ir : (st.setEA v).ir = st.ir := rfl
@[simp] theorem setEA_stepReg : (st.setEA v).stepReg = st.stepReg := rfl
@[simp] theorem setEA_ea : (st.setEA v).ea = v := rfl
@[simp] theorem setEA_iab : (st.setEA v).iab = st.iab := rfl
@[simp] theorem setEA_tmp : (st.setEA v).tmp = st.tmp := rfl
@[simp] theorem setEA_loc : (st.setEA v).loc = st.loc := rfl
@[simp] theorem setEA_bus : (st.setEA v).bus = st.bus := rfl
@[simp] theorem setEA_driven : (st.setEA v).driven = st.driven := rfl
@[simp] theorem setEA_lines : (st.setEA v).lines = st.lines := rfl
@[simp] theorem setEA_devices : (st.setEA v).devices = st.devices := rfl
@[simp] theorem setEA_cfg : (st.setEA v).cfg = st.cfg := rfl
@[simp] theorem setEA_freeIdx : (st.setEA v).freeIdx = st.freeIdx := rfl
end

section
variable (v : Byte)
@[simp] theorem setIAB_a : (st.setIAB v).a = st.a := rfl
@[simp] theorem setIAB_x : (st.setIAB v).x = st.x := rfl
@[simp] theorem setIAB_y : (st.setIAB v).y = st.y := rfl
@[simp] theorem setIAB_s : (st.setIAB v).s = st.s := rfl
@[simp] theorem setIAB_pc : (st.setIAB v).pc = st.pc := rfl
@[simp] theorem setIAB_p : (st.setIAB v).p = st.p := rfl
@[simp] theorem setIAB_ir : (st.setIAB v).ir = st.ir := rfl
@[simp] theorem setIAB_stepReg : (st.setIAB v).stepReg = st.stepReg := rfl
@[simp] theorem setIAB_ea : (st.setIAB v).ea = st.ea := rfl
@[simp] theorem setIAB_iab : (st.setIAB v).iab = v := rfl
@[simp] theorem setIAB_tmp : (st.setIAB v).tmp = st.tmp := rfl
@[simp] theorem setIAB_loc : (st.setIAB v).loc = st.loc := rfl
@[simp] theorem setIAB_bus : (st.setIAB v).bus = st.bus := rfl
@[simp] theorem setIAB_driven : (st.setIAB v).driven = st.driven := rfl
@[simp] theorem setIAB_lines : (st.setIAB v).lines = st.lines := rfl
@[simp] theorem setIAB_devices : (st.setIAB v).devices = st.devices := rfl
@[simp] theorem setIAB_cfg : (st.setIAB v).cfg = st.cfg := rfl
@[simp] theorem setIAB_freeIdx : (st.setIAB v).freeIdx = st.freeIdx := rfl
end

section
variable (v : Byte)
@[simp] theorem setTMP_a : (st.setTMP v).a = st.a := rfl
@[simp] theorem setTMP_x : (st.setTMP v).x = st.x := rfl
@[simp] theorem setTMP_y : (st.setTMP v).y = st.y := rfl
@[simp] theorem setTMP_s : (st.setTMP v).s = st.s := rfl
@[simp] theorem setTMP_pc : (st.setTMP v).pc = st.pc := rfl
@[simp] theorem setTMP_p : (st.setTMP v).p = st.p := rfl
@[simp] theorem setTMP_ir : (st.setTMP v).ir = st.ir := rfl
@[simp] theorem setTMP_stepReg : (st.setTMP v).stepReg = st.stepReg := rfl
@[simp] theorem setTMP_ea : (st.setTMP v).ea = st.ea := rfl
@[simp] theorem setTMP_iab : (st.setTMP v).iab = st.iab := rfl
@[simp] theorem setTMP_tmp : (st.setTMP v).tmp = v := rfl
@[simp] theorem setTMP_loc : (st.setTMP v).loc = st.loc := rfl
@[simp] theorem setTMP_bus : (st.setTMP v).bus = st.bus := rfl
@[simp] theorem setTMP_driven : (st.setTMP v).driven = st.driven := rfl
@[simp] theorem setTMP_lines : (st.setTMP v).lines = st.lines := rfl
@[simp] theorem setTMP_devices : (st.setTMP v).devices = st.devices := rfl
@[simp] theorem setTMP_cfg : (st.setTMP v).cfg = st.cfg := rfl
@[simp] theorem setTMP_freeIdx : (st.setTMP v).freeIdx = st.freeIdx := rfl
end

section
variable (v : Locals)
@[simp] theorem setLoc_a : (st.setLoc v).a = st.a := rfl
@[simp] theorem setLoc_x : (st.setLoc v).x = st.x := rfl
@[simp] theorem setLoc_y : (st.setLoc v).y = st.y := rfl
@[simp] theorem setLoc_s : (st.setLoc v).s = st.s := rfl
@[simp] theorem setLoc_pc : (st.setLoc v).pc = st.pc := rfl
@[simp] theorem setLoc_p : (st.setLoc v).p = st.p := rfl
@[simp] theorem setLoc_ir : (st.setLoc v).ir = st.ir := rfl
@[simp] theorem setLoc_stepReg : (st.setLoc v).stepReg = st.stepReg := rfl
@[simp] theorem setLoc_ea : (st.setLoc v).ea = st.ea := rfl
@[simp] theorem setLoc_iab : (st.setLoc v).iab = st.iab := rfl
@[simp] theorem setLoc_tmp : (st.setLoc v).tmp = st.tmp := rfl
@[simp] theorem setLoc_loc : (st.setLoc v).loc = v := rfl
@[simp] theorem setLoc_bus : (st.setLoc v).bus = st.bus := rfl
@[simp] theorem setLoc_driven : (st.setLoc v).driven = st.driven := rfl
@[simp] theorem setLoc_lines : (st.setLoc v).lines = st.lines := rfl
@[simp] theorem setLoc_devices : (st.setLoc v).devices = st.devices := rfl
@[simp] theorem setLoc_cfg : (st.setLoc v).cfg = st.cfg := rfl
@[simp] theorem setLoc_freeIdx : (st.setLoc v).freeIdx = st.freeIdx := rfl
end

section
variable (v : Lines)
@[simp] theorem setLines_a : (st.setLines v).a = st.a := rfl
@[simp] theorem setLines_x : (st.setLines v).x = st.x := rfl
@[simp] theorem setLines_y : (st.setLines v).y = st.y := rfl
@[simp] theorem setLines_s : (st.setLines v).s = st.s := rfl
@[simp] theorem setLines_pc : (st.setLines v).pc = st.pc := rfl
@[simp] theorem setLines_p : (st.setLines v).p = st.p := rfl
@[simp] theorem setLines_ir : (st.setLines v).ir = st.ir := rfl
@[simp] theorem setLines_stepReg : (st.setLines v).stepReg = st.stepReg := rfl
@[simp] theorem setLines_ea : (st.setLines v).ea = st.ea := rfl
@[simp] theorem setLines_iab : (st.setLines v).iab = st.iab := rfl
@[simp] theorem setLines_tmp : (st.setLines v).tmp = st.tmp := rfl
@[simp] theorem setLines_loc : (st.setLines v).loc = st.loc := rfl
@[simp] theorem setLines_bus : (st.setLines v).bus = st.bus := rfl
@[simp] theorem setLines_driven : (st.setLines v).driven = st.driven := rfl
@[simp] theorem setLines_lines : (st.setLines v).lines = v := rfl
@[simp] theorem setLines_devices : (st.setLines v).devices = st.devices := rfl
@[simp] theorem setLines_cfg : (st.setLines v).cfg = st.cfg := rfl
@[simp] theorem setLines_freeIdx : (st.setLines v).freeIdx = st.freeIdx := rfl
end

section
variable (v : List Device)
@[simp] theorem setDevices_a : (st.setDevices v).a = st.a := rfl
@[simp] theorem setDevices_x : (st.setDevices v).x = st.x := rfl
@[simp] theorem setDevices_y : (st.setDevices v).y = st.y := rfl
@[simp] theorem setDevices_s : (st.setDevices v).s = st.s := rfl
@[simp] theorem setDevices_pc : (st.setDevices v).pc = st.pc := rfl
@[simp] theorem setDevices_p : (st.setDevices v).p = st.p := rfl
@[simp] theorem setDevices_ir : (st.setDevices v).ir = st.ir := rfl
@[simp] theorem setDevices_stepReg : (st.setDevices v).stepReg = st.stepReg := rfl
@[simp] theorem setDevices_ea : (st.setDevices v).ea = st.ea := rfl
@[simp] theorem setDevices_iab : (st.setDevices v).iab = st.iab := rfl
@[simp] theorem setDevices_tmp : (st.setDevices v).tmp = st.tmp := rfl
@[simp] theorem setDevices_loc : (st.setDevices v).loc = st.loc := rfl
@[simp] theorem setDevices_bus : (st.setDevices v).bus = st.bus := rfl
@[simp] theorem setDevices_driven : (st.setDevices v).driven = st.driven := rfl
@[simp] theorem setDevices_lines : (st.setDevices v).lines = st.lines := rfl
@[simp] theorem setDevices_devices : (st.setDevices v).devices = v := rfl
@[simp] theorem setDevices_cfg : (st.setDevices v).cfg = st.cfg := rfl
@[simp] theorem setDevices_freeIdx : (st.setDevices v).freeIdx = st.freeIdx := rfl
end

section
variable (v : Nat)
@[simp] theorem setFreeIdx_a : (st.setFreeIdx v).a = st.a := rfl
@[simp] theorem setFreeIdx_x : (st.setFreeIdx v).x = st.x := rfl
@[simp] theorem setFreeIdx_y : (st.setFreeIdx v).y = st.y := rfl
@[simp] theorem setFreeIdx_s : (st.setFreeIdx v).s = st.s := rfl
@[simp] theorem setFreeIdx_pc : (st.setFreeIdx v).pc = st.pc := rfl
@[simp] theorem setFreeIdx_p : (st.setFreeIdx v).p = st.p := rfl
@[simp] theorem setFreeIdx_ir : (st.setFreeIdx v).ir = st.ir := rfl
@[simp] theorem setFreeIdx_stepReg : (st.setFreeIdx v).stepReg = st.stepReg := rfl
@[simp] theorem setFreeIdx_ea : (st.setFreeIdx v).ea = st.ea := rfl
@[simp] theorem setFreeIdx_iab : (st.setFreeIdx v).iab = st.iab := rfl
@[simp] theorem setFreeIdx_tmp : (st.setFreeIdx v).tmp = st.tmp := rfl
@[simp] theorem setFreeIdx_loc : (st.setFreeIdx v).loc = st.loc := rfl
@[simp] theorem setFreeIdx_bus : (st.setFreeIdx v).bus = st.bus := rfl
@[simp] theorem setFreeIdx_driven : (st.setFreeIdx v).driven = st.driven := rfl
@[simp] theorem setFreeIdx_lines : (st.setFreeIdx v).lines = st.lines := rfl
@[simp] theorem setFreeIdx_devices : (st.setFreeIdx v).devices = st.devices := rfl
@[simp] theorem setFreeIdx_cfg : (st.setFreeIdx v).cfg = st.cfg := rfl
@[simp] theorem setFreeIdx_freeIdx : (st.setFreeIdx v).freeIdx = v := rfl
end

section
variable (b : BusSignals) (n : Nat) (ls : Lines) (ds : List Device)
@[simp] theorem setBusSide_a : (st.setBusSide b n ls ds).a = st.a := rfl
@[simp] theorem setBusSide_x : (st.setBusSide b n ls ds).x = st.x := rfl
@[simp] theorem setBusSide_y : (st.setBusSide b n ls ds).y = st.y := rfl
@[simp] theorem setBusSide_s : (st.setBusSide b n ls ds).s = st.s := rfl
@[simp] theorem setBusSide_pc : (st.setBusSide b n ls ds).pc = st.pc := rfl
@[simp] theorem setBusSide_p : (st.setBusSide b n ls ds).p = st.p := rfl
@[simp] theorem setBusSide_ir : (st.setBusSide b n ls ds).ir = st.ir := rfl
@[simp] theorem setBusSide_stepReg : (st.setBusSide b n ls ds).stepReg = st.stepReg := rfl
@[simp] theorem setBusSide_ea : (st.setBusSide b n ls ds).ea = st.ea := rfl
@[simp] theorem setBusSide_iab : (st.setBusSide b n ls ds).iab = st.iab := rfl
@[simp] theorem setBusSide_tmp : (st.setBusSide b n ls ds).tmp = st.tmp := rfl
@[simp] theorem setBusSide_loc : (st.setBusSide b n ls ds).loc = st.loc := rfl
@[simp] theorem setBusSide_bus : (st.setBusSide b n ls ds).bus = b := rfl
@[simp] theorem setBusSide_driven : (st.setBusSide b n ls ds).driven = n := rfl
@[simp] theorem setBusSide_lines : (st.setBusSide b n ls ds).lines = ls := rfl
@[simp] theorem setBusSide_devices : (st.setBusSide b n ls ds).devices = ds := rfl
@[simp] theorem setBusSide_cfg : (st.setBusSide b n ls ds).cfg = st.cfg := rfl
@[simp] theorem setBusSide_freeIdx : (st.setBusSide b n ls ds).freeIdx = st.freeIdx := rfl
end

@[simp] theorem done_a : st.done.a = st.a := rfl
@[simp] theorem done_x : st.done.x = st.x := rfl
@[simp] theorem done_y : st.done.y = st.y := rfl
@[simp] theorem done_s : st.done.s = st.s := rfl
@[simp] theorem done_pc : st.done.pc = st.pc := rfl
@[simp] theorem done_p : st.done.p = st.p := rfl
@[simp] theorem done_ir : st.done.ir = st.ir := rfl
@[simp] theorem done_stepReg : st.done.stepReg = .awaitFetch := rfl
@[simp] theorem done_ea : st.done.ea = st.ea := rfl
@[simp] theorem done_iab : st.done.iab = st.iab := rfl
@[simp] theorem done_tmp : st.done.tmp = st.tmp := rfl
@[simp] theorem done_loc : st.done.loc = st.loc := rfl
@[simp] theorem done_bus : st.done.bus = st.bus := rfl
@[simp] theorem done_driven : st.done.driven = st.driven := rfl
@[simp] theorem done_lines : st.done.lines = st.lines := rfl
@[simp] theorem done_devices : st.done.devices = st.devices := rfl
@[simp] theorem done_cfg : st.done.cfg = st.cfg := rfl
@[simp] theorem done_freeIdx : st.done.freeIdx = st.freeIdx := rfl

@[simp] theorem incPC_a : st.incPC.a = st.a := rfl
@[simp] theorem incPC_x : st.incPC.x = st.x := rfl
@[simp] theorem incPC_y : st.incPC.y = st.y := rfl
@[simp] theorem incPC_s : st.incPC.s = st.s := rfl
@[simp] theorem incPC_pc : st.incPC.pc = st.pc + 1 := rfl
@[simp] theorem incPC_p : st.incPC.p = st.p := rfl
@[simp] theorem incPC_ir : st.incPC.ir = st.ir := rfl
@[simp] theorem incPC_stepReg : st.incPC.stepReg = st.stepReg := rfl
@[simp] theorem incPC_ea : st.incPC.ea = st.ea := rfl
@[simp] theorem incPC_iab : st.incPC.iab = st.iab := rfl
@[simp] theorem incPC_tmp : st.incPC.tmp = st.tmp := rfl
@[simp] theorem incPC_loc : st.incPC.loc = st.loc := rfl
@[simp] theorem incPC_bus : st.incPC.bus = st.bus := rfl
@[simp] theorem incPC_driven : st.incPC.driven = st.driven := rfl
@[simp] theorem incPC_lines : st.incPC.lines = st.lines := rfl
@[simp] theorem incPC_devices : st.incPC.devices = st.devices := rfl
@[simp] theorem incPC_cfg : st.incPC.cfg = st.cfg := rfl
@[simp] theorem incPC_freeIdx : st.incPC.freeIdx = st.freeIdx := rfl

@[simp] theorem incS_a : st.incS.a = st.a := rfl
@[simp] theorem incS_x : st.incS.x = st.x := rfl
@[simp] theorem incS_y : st.incS.y = st.y := rfl
@[simp] theorem incS_s : st.incS.s = st.s + 1 := rfl
@[simp] theorem incS_pc : st.incS.pc = st.pc := rfl
@[simp] theorem incS_p : st.incS.p = st.p := rfl
@[simp] theorem incS_ir : st.incS.ir = st.ir := rfl
@[simp] theorem incS_stepReg : st.incS.stepReg = st.stepReg := rfl
@[simp] theorem incS_ea : st.incS.ea = st.ea := rfl
@[simp] theorem incS_iab : st.incS.iab = st.iab := rfl
@[simp] theorem incS_tmp : st.incS.tmp = st.tmp := rfl
@[simp] theorem incS_loc : st.incS.loc = st.loc := rfl
@[simp] theorem incS_bus : st.incS.bus = st.bus := rfl
@[simp] theorem incS_driven : st.incS.driven = st.driven := rfl
@[simp] theorem incS_lines : st.incS.lines = st.lines := rfl
@[simp] theorem incS_devices : st.incS.devices = st.devices := rfl
@[simp] theorem incS_cfg : st.incS.cfg = st.cfg := rfl
@[simp] theorem incS_freeIdx : st.incS.freeIdx = st.freeIdx := rfl

@[simp] theorem decS_a : st.decS.a = st.a := rfl
@[simp] theorem decS_x : st.decS.x = st.x := rfl
@[simp] theorem decS_y : st.decS.y = st.y := rfl
@[simp] theorem decS_s : st.decS.s = st.s - 1 := rfl
@[simp] theorem decS_pc : st.decS.pc = st.pc := rfl
@[simp] theorem decS_p : st.decS.p = st.p := rfl
@[simp] theorem decS_ir : st.decS.ir = st.ir := rfl
@[simp] theorem decS_stepReg : st.decS.stepReg = st.stepReg := rfl
@[simp] theorem decS_ea : st.decS.ea = st.ea := rfl
@[simp] theorem decS_iab : st.decS.iab = st.iab := rfl
@[simp] theorem decS_tmp : st.decS.tmp = st.tmp := rfl
@[simp] theorem decS_loc : st.decS.loc = st.loc := rfl
@[simp] theorem decS_bus : st.decS.bus = st.bus := rfl
@[simp] theorem decS_driven : st.decS.driven = st.driven := rfl
@[simp] theorem decS_lines : st.decS.lines = st.lines := rfl
@[simp] theorem decS_devices : st.decS.devices = st.devices := rfl
@[simp] theorem decS_cfg : st.decS.cfg = st.cfg := rfl
@[simp] theorem decS_freeIdx : st.decS.freeIdx = st.freeIdx := rfl

@[simp] theorem loseScratch_a : st.loseScratch.a = st.a := rfl
@[simp] theorem loseScratch_x : st.loseScratch.x = st.x := rfl
@[simp] theorem loseScratch_y : st.loseScratch.y = st.y := rfl
@[simp] theorem loseScratch_s : st.loseScratch.s = st.s := rfl
@[simp] theorem loseScratch_pc : st.loseScratch.pc = st.pc := rfl
@[simp] theorem loseScratch_p : st.loseScratch.p = st.p := rfl
@[simp] theorem loseScratch_ir : st.loseScratch.ir = st.ir := rfl
@[simp] theorem loseScratch_stepReg : st.loseScratch.stepReg = st.stepReg := rfl
@[simp] theorem loseScratch_ea : st.loseScratch.ea = (Config.lostScratch st.freeIdx).1 := rfl
@[simp] theorem loseScratch_iab : st.loseScratch.iab = (Config.lostScratch st.freeIdx).2.1 := rfl
@[simp] theorem loseScratch_tmp : st.loseScratch.tmp = (Config.lostScratch st.freeIdx).2.2 := rfl
@[simp] theorem loseScratch_loc : st.loseScratch.loc = st.loc := rfl
@[simp] theorem loseScratch_bus : st.loseScratch.bus = st.bus := rfl
@[simp] theorem loseScratch_driven : st.loseScratch.driven = st.driven := rfl
@[simp] theorem loseScratch_lines : st.loseScratch.lines = st.lines := rfl
@[simp] theorem loseScratch_devices : st.loseScratch.devices = st.devices := rfl
@[simp] theorem loseScratch_cfg : st.loseScratch.cfg = st.cfg := rfl
@[simp] theorem loseScratch_freeIdx : st.loseScratch.freeIdx = st.freeIdx + 1 := rfl

@[simp] theorem nextCycle_a : st.nextCycle.a = st.a := by unfold nextCycle; split <;> rfl
@[simp] theorem nextCycle_x : st.nextCycle.x = st.x := by unfold nextCycle; split <;> rfl
@[simp] theorem nextCycle_y : st.nextCycle.y = st.y := by unfold nextCycle; split <;> rfl
@[simp] theorem nextCycle_s : st.nextCycle.s = st.s := by unfold nextCycle; split <;> rfl
@[simp] theorem nextCycle_pc : st.nextCycle.pc = st.pc := by unfold nextCycle; split <;> rfl
@[simp] theorem nextCycle_p : st.nextCycle.p = st.p := by unfold nextCycle; split <;> rfl
@[simp] theorem nextCycle_ir : st.nextCycle.ir = st.ir := by unfold nextCycle; split <;> rfl
@[simp] theorem nextCycle_ea : st.nextCycle.ea = st.ea := by unfold nextCycle; split <;> rfl
@[simp] theorem nextCycle_iab : st.nextCycle.iab = st.iab := by unfold nextCycle; split <;> rfl
@[simp] theorem nextCycle_tmp : st.nextCycle.tmp = st.tmp := by unfold nextCycle; split <;> rfl
@[simp] theorem nextCycle_loc : st.nextCycle.loc = st.loc := by unfold nextCycle; split <;> rfl
@[simp] theorem nextCycle_bus : st.nextCycle.bus = st.bus := by unfold nextCycle; split <;> rfl
@[simp] theorem nextCycle_driven : st.nextCycle.driven = st.driven := by unfold nextCycle; split <;> rfl
@[simp] theorem nextCycle_lines : st.nextCycle.lines = st.lines := by unfold nextCycle; split <;> rfl
@[simp] theorem nextCycle_devices : st.nextCycle.devices = st.devices := by unfold nextCycle; split <;> rfl
@[simp] theorem nextCycle_cfg : st.nextCycle.cfg = st.cfg := by unfold nextCycle; split <;> rfl
@[simp] theorem nextCycle_freeIdx : st.nextCycle.freeIdx = st.freeIdx := by unfold nextCycle; split <;> rfl

/-- At `Executing(n)` a non-final cycle ends with `Executing(n + 1)` (40_engine.md R92). -/
@[simp] theorem nextCycle_eq (n : Nat) (h : st.stepReg = .executing n) :
    st.nextCycle = st.setStep (.executing (n + 1)) := by
  unfold nextCycle; rw [h]

end Sys2Proof.Machine.State
end

