-- ==== Sys2Proof/Laws/Bus.lean ====
section
/-! SUPPORT. The bus operations: what a read cycle, a write cycle, a discarded read and a push can do. Provers cite these in
place of unfolding the operations. -/

namespace Sys2Proof.Machine

namespace SameCpu

theorem refl (st : State) : SameCpu st st := ⟨rfl, rfl, rfl, rfl, rfl, rfl, rfl, rfl, rfl, rfl, rfl, rfl, rfl⟩

theorem trans {s t u : State} (h : SameCpu s t) (h' : SameCpu t u) : SameCpu s u where
  a := h'.a.trans h.a
  x := h'.x.trans h.x
  y := h'.y.trans h.y
  s := h'.s.trans h.s
  pc := h'.pc.trans h.pc
  p := h'.p.trans h.p
  ir := h'.ir.trans h.ir
  stepReg := h'.stepReg.trans h.stepReg
  ea := h'.ea.trans h.ea
  iab := h'.iab.trans h.iab
  tmp := h'.tmp.trans h.tmp
  loc := h'.loc.trans h.loc
  cfg := h'.cfg.trans h.cfg

end SameCpu

theorem SameRam.refl (st : State) : SameRam st st := fun _ _ => rfl

theorem SameRam.trans {s t u : State} (h : SameRam s t) (h' : SameRam t u) : SameRam s u :=
  fun k a => (h' k a).trans (h k a)

section
variable (bus : BusSignals) (n : Nat) (st : State)

/-- A broadcast leaves the CPU alone. -/
theorem broadcast_sameCpu : SameCpu st (broadcast bus n st) :=
  ⟨rfl, rfl, rfl, rfl, rfl, rfl, rfl, rfl, rfl, rfl, rfl, rfl, rfl⟩

@[simp] theorem broadcast_freeIdx : (broadcast bus n st).freeIdx = st.freeIdx := rfl

theorem broadcast_bus :
    (broadcast bus n st).bus.address = bus.address ∧ (broadcast bus n st).bus.readWrite = bus.readWrite
      ∧ (broadcast bus n st).bus.sync = bus.sync ∧ (broadcast bus n st).bus.vectorPull = bus.vectorPull :=
  notifyAll_bus _ _ _ _ _

theorem broadcast_ranges :
    (broadcast bus n st).devices.map (fun d => (d.base, d.length)) = st.devices.map (fun d => (d.base, d.length)) :=
  notifyAll_ranges _ _ _ _ _

theorem broadcast_lines (h : ∀ d ∈ st.devices, d.linesQuiet = true) : (broadcast bus n st).lines = st.lines :=
  notifyAll_linesQuiet _ _ _ _ _ h

theorem broadcast_ramByte_other (a : Word) (h : bus.readWrite = true ∨ a ≠ bus.address) (k : Nat) :
    (broadcast bus n st).ramByte k a = st.ramByte k a :=
  notifyAll_ramByte_other _ _ _ _ _ a h k

/-- A broadcast keeps the devices and the lines well formed, and its signals are those given but for `data`. -/
theorem broadcast_wf (hb : bus.wf) (h : (∀ d ∈ st.devices, d.wf) ∧ st.lines.wf) :
    SurroundingsWf (broadcast bus n st) := by
  refine ⟨notifyAll_wf _ _ _ _ _ h.1, notifyAll_lines_wf _ _ _ _ _ h.2, ?_⟩
  have hs := broadcast_bus bus n st
  unfold BusSignals.wf
  rw [hs.2.1, hs.2.2.1, hs.2.2.2]
  exact hb

end

/-- Everything outside the CPU that every bus cycle keeps: the devices' ranges, and the lines unless a device requests. -/
structure SameMap (st st' : State) : Prop where
  ranges : st'.devices.map (fun d => (d.base, d.length)) = st.devices.map (fun d => (d.base, d.length))
  lines : (∀ d ∈ st.devices, d.linesQuiet = true) → st'.lines = st.lines

theorem SameMap.refl (st : State) : SameMap st st := ⟨rfl, fun _ => rfl⟩

theorem broadcast_sameMap (bus : BusSignals) (n : Nat) (st : State) : SameMap st (broadcast bus n st) :=
  ⟨broadcast_ranges bus n st, broadcast_lines bus n st⟩

/-- What a read cycle that is answered can do: the CPU is as before, every RAM byte is as before, the signals are those of the
cycle, `data` holds the value read, and the surroundings stay well formed. -/
structure ReadEffect (sync vectorPull : Bool) (address : Word) (st : State) (v : Byte) (st' : State) : Prop where
  cpu : SameCpu st st'
  freeIdx : st'.freeIdx = st.freeIdx
  ram : SameRam st st'
  bus : st'.bus = ⟨address, v, true, sync, vectorPull⟩
  map : SameMap st st'
  wf : ¬(sync = true ∧ vectorPull = true) → (∀ d ∈ st.devices, d.wf) ∧ st.lines.wf → SurroundingsWf st'

/-- Everything an answered read cycle can do. -/
theorem readCycle_ok {sync vec : Bool} {address : Word} {st st' : State} {v : Byte}
    (h : readCycle sync vec address st = .ok (v, st')) : ReadEffect sync vec address st v st' := by
  unfold readCycle at h
  generalize hb : (⟨address, st.bus.data, true, sync, vec⟩ : BusSignals) = bus at h
  have hsig := broadcast_bus bus 0 st
  have hcpu := broadcast_sameCpu bus 0 st
  have hram : SameRam st (broadcast bus 0 st) := fun k a =>
    broadcast_ramByte_other bus 0 st a (.inl (by rw [← hb])) k
  have hmap := broadcast_sameMap bus 0 st
  have hwf : ¬(sync = true ∧ vec = true) → (∀ d ∈ st.devices, d.wf) ∧ st.lines.wf →
      SurroundingsWf (broadcast bus 0 st) := fun hm hw =>
    broadcast_wf bus 0 st (by rw [← hb]; exact ⟨hm, fun h => by simp at h⟩) hw
  have hfree : (broadcast bus 0 st).freeIdx = st.freeIdx := rfl
  generalize broadcast bus 0 st = u at *
  have hbus : ∀ d, (⟨u.bus.address, d, u.bus.readWrite, u.bus.sync, u.bus.vectorPull⟩ : BusSignals)
      = ⟨address, d, true, sync, vec⟩ := by
    intro d
    rw [hsig.1, hsig.2.1, hsig.2.2.1, hsig.2.2.2, ← hb]
  unfold readResult at h
  split at h
  · split at h
    · cases h
    · cases h
      refine ⟨⟨hcpu.1, hcpu.2, hcpu.3, hcpu.4, hcpu.5, hcpu.6, hcpu.7, hcpu.8, hcpu.9, hcpu.10, hcpu.11,
        hcpu.12, hcpu.13⟩, hfree, hram, hbus _, ⟨hmap.1, hmap.2⟩, fun hm hw => ?_⟩
      exact hwf hm hw
  · split at h
    · cases h
    · cases h
      exact ⟨hcpu, hfree, hram, hbus _, hmap, hwf⟩

/-- A read that answers a next state read a byte and went on with it. -/
theorem onRead_next {r : Except Fault (Byte × State)} {k : Byte → State → Result} {t : State}
    (h : onRead r k = .next t) : ∃ v u, r = .ok (v, u) ∧ k v u = .next t := by
  cases r with
  | ok p => exact ⟨p.1, p.2, rfl, h⟩
  | error f => cases h

theorem busRead_next {address : Word} {st t : State} {k : Byte → State → Result}
    (h : busRead address st k = .next t) :
    ∃ v u, readCycle false false address st = .ok (v, u) ∧ k v u = .next t := onRead_next h

theorem busSync_next {address : Word} {st t : State} {k : Byte → State → Result}
    (h : busSync address st k = .next t) :
    ∃ v u, readCycle true false address st = .ok (v, u) ∧ k v u = .next t := onRead_next h

theorem busVec_next {address : Word} {st t : State} {k : Byte → State → Result}
    (h : busVec address st k = .next t) :
    ∃ v u, readCycle false true address st = .ok (v, u) ∧ k v u = .next t := onRead_next h

theorem busRead_ok {address : Word} {st u : State} {v : Byte} (h : readCycle false false address st = .ok (v, u))
    (k : Byte → State → Result) : busRead address st k = k v u := by simp [busRead, h, onRead]

theorem busSync_ok {address : Word} {st u : State} {v : Byte} (h : readCycle true false address st = .ok (v, u))
    (k : Byte → State → Result) : busSync address st k = k v u := by simp [busSync, h, onRead]

theorem busVec_ok {address : Word} {st u : State} {v : Byte} (h : readCycle false true address st = .ok (v, u))
    (k : Byte → State → Result) : busVec address st k = k v u := by simp [busVec, h, onRead]

/-- What a discarded read can do, wherever its address is. -/
structure DummyEffect (st st' : State) : Prop where
  cpu : SameCpu st st'
  ram : SameRam st st'
  wf : (∀ d ∈ st.devices, d.wf) ∧ st.lines.wf → SurroundingsWf st'
  map : SameMap st st'
  bus : st'.bus.readWrite = true ∧ st'.bus.sync = false ∧ st'.bus.vectorPull = false

theorem dummyAddress_state (decided : Word) (st : State) :
    (dummyAddress decided st).2 = st ∨ (dummyAddress decided st).2 = st.setFreeIdx (st.freeIdx + 1) := by
  unfold dummyAddress; split
  · exact .inl rfl
  · exact .inr rfl

/-- A discarded read that answers a next state changed the surroundings only. -/
theorem dummyRead_next {decided : Word} {st t : State} {k : State → Result}
    (h : dummyRead decided st k = .next t) : ∃ u, DummyEffect st u ∧ k u = .next t := by
  obtain ⟨v, u, hr, hk⟩ := busRead_next h
  have e := readCycle_ok hr
  have hb : u.bus.readWrite = true ∧ u.bus.sync = false ∧ u.bus.vectorPull = false := by rw [e.bus]; simp
  refine ⟨u, ?_, hk⟩
  rcases dummyAddress_state decided st with hd | hd <;> rw [hd] at e
  · exact ⟨e.cpu, e.ram, e.wf (by simp), e.map, hb⟩
  · refine ⟨⟨e.cpu.1, e.cpu.2, e.cpu.3, e.cpu.4, e.cpu.5, e.cpu.6, e.cpu.7, e.cpu.8, e.cpu.9, e.cpu.10, e.cpu.11,
      e.cpu.12, e.cpu.13⟩, e.ram, e.wf (by simp), ⟨e.map.1, e.map.2⟩, hb⟩

/-- A discarded read at its decided address (`DUMMY_ADDRESS = decided`). -/
theorem dummyRead_ok {decided : Word} {st u : State} {v : Byte} (hd : st.cfg.dummyAddress = .decided)
    (h : readCycle false false decided st = .ok (v, u)) (k : State → Result) : dummyRead decided st k = k u := by
  simp [dummyRead, dummyAddress, hd, busRead_ok h]

/-- What a write cycle can do: the CPU is as before, every RAM byte but those at its address is as before, every RAM mapped
there holds the byte, the signals are those of the cycle, and the surroundings stay well formed. -/
structure WriteEffect (address : Word) (v : Byte) (st st' : State) : Prop where
  cpu : SameCpu st st'
  freeIdx : st'.freeIdx = st.freeIdx
  other : ∀ k a, a ≠ address → st'.ramByte k a = st.ramByte k a
  written : (∀ d ∈ st.devices, d.wf) → ∀ k old, st.ramByte k address = some old → st'.ramByte k address = some v
  bus : st'.bus = ⟨address, v, false, false, false⟩
  driven : st'.driven = st.driven
  map : SameMap st st'
  wf : (∀ d ∈ st.devices, d.wf) ∧ st.lines.wf → SurroundingsWf st'

/-- Everything a write cycle can do. -/
theorem busWrite_effect (address : Word) (v : Byte) (st : State) :
    WriteEffect address v st (busWrite address v st) where
  cpu := broadcast_sameCpu _ _ st
  freeIdx := rfl
  other := fun k a h => broadcast_ramByte_other _ _ st a (.inr h) k
  written := fun hd k old h => notifyAll_ramByte_written _ _ _ _ _ hd rfl k old h
  bus := (notifyAll_write _ _ _ _ _ rfl).1
  driven := (notifyAll_write _ _ _ _ _ rfl).2
  map := broadcast_sameMap _ _ st
  wf := fun h => broadcast_wf _ _ st ⟨by simp, fun _ => ⟨rfl, rfl⟩⟩ h

/-- A push is a write cycle at the stack address, then the decrement of `S` (00_scope.md R6). -/
theorem push_eq (v : Byte) (st : State) : push v st = (busWrite st.stackAddress v st).setS (st.s - 1) := rfl

/-- "done" after an operation answers a next state only where the operation did. -/
theorem finish_next {r : Result} {t : State} (h : finish r = .next t) : ∃ u, r = .next u ∧ t = u.done := by
  cases r with
  | next u => cases h; exact ⟨u, rfl, rfl⟩
  | fault f => cases h
  | refused f => cases h

/-- A handler that answers a next state ran the first cycle, which only counts itself, or a line of its template. -/
theorem handler_next {template : Nat → State → Result} {st t : State} (h : handler template st = .next t) :
    (st.stepReg = .executing 0 ∧ t = st.setStep (.executing 1))
      ∨ ∃ n, st.stepReg = .executing (n + 1) ∧ template (n + 2) st = .next t := by
  unfold handler at h
  split at h
  · next hs => cases h; exact .inl ⟨hs, State.nextCycle_eq st 0 hs⟩
  · next n hs => exact .inr ⟨n, hs, h⟩
  · cases h

/-- A handler at `Executing(n + 1)` runs line T = n + 2 of its template. -/
theorem handler_at {template : Nat → State → Result} {st : State} {n : Nat} (hs : st.stepReg = .executing (n + 1)) :
    handler template st = template (n + 2) st := by simp [handler, hs]

/-- A sequence that answers a next state ran a line of its template. -/
theorem pseudoHandler_next {template : Nat → State → Result} {st t : State} (h : pseudoHandler template st = .next t) :
    ∃ n, st.stepReg = .executing n ∧ template (n + 1) st = .next t := by
  unfold pseudoHandler at h
  split at h
  · next n hs => exact ⟨n, hs, h⟩
  · cases h

end Sys2Proof.Machine
end

