-- ==== Sys2Proof/Laws/BusFaults.lean ====
section
/-! SUPPORT. When a cycle ends in a fault of the bus: exactly when the read it performs does (40_engine.md R127 (a)). One lemma
per shared operation; what an instruction's cycle does follows by naming its template. -/

namespace Sys2Proof.Machine

/-- The result of a cycle is a fault of the bus exactly when the cycle's read, if it has one, ends in that fault. -/
structure FaultsAsItsRead (result : Result) (read : Option ReadCycle) (st : State) : Prop where
  faults : ∀ r f, read = some r → r.perform st = .error f → result = .fault f
  only : ∀ f, result = .fault f → f.isBusFault = true → ∃ r, read = some r ∧ r.perform st = .error f

namespace FaultsAsItsRead

variable {st : State} {address : Word}

/-- A read that goes on with something that faults on the bus no more. -/
theorem onRead {r : ReadCycle} {k : Byte → State → Result} (hk : ∀ v u f, k v u = .fault f → f.isBusFault = false) :
    FaultsAsItsRead (onRead (r.perform st) k) (some r) st where
  faults r' f h he := by cases h; rw [he]; rfl
  only f h hb := by
    cases hp : r.perform st with
    | error g => rw [hp] at h; cases h; exact ⟨r, rfl, hp⟩
    | ok p => rw [hp] at h; rw [hk _ _ _ h] at hb; cases hb

theorem busRead {k : Byte → State → Result} (hk : ∀ v u f, k v u = .fault f → f.isBusFault = false) :
    FaultsAsItsRead (busRead address st k) (some (.plain address)) st := onRead (r := .plain address) hk

theorem busSync {k : Byte → State → Result} (hk : ∀ v u f, k v u = .fault f → f.isBusFault = false) :
    FaultsAsItsRead (busSync address st k) (some (.sync address)) st := onRead (r := .sync address) hk

theorem busVec {k : Byte → State → Result} (hk : ∀ v u f, k v u = .fault f → f.isBusFault = false) :
    FaultsAsItsRead (busVec address st k) (some (.vec address)) st := onRead (r := .vec address) hk

theorem dummyRead {k : State → Result} (hk : ∀ u f, k u = .fault f → f.isBusFault = false) :
    FaultsAsItsRead (dummyRead address st k) (some (.dummy address)) st :=
  onRead (r := .dummy address) fun _ u f => hk u f

/-- A cycle without a read that goes on. -/
theorem next {t : State} : FaultsAsItsRead (.next t) none st where
  faults _ _ h := by cases h
  only _ h := by cases h

/-- A step outside the template is no fault of the bus. -/
theorem outOfDomain {t : State} : FaultsAsItsRead (outOfDomain t) none st where
  faults _ _ h := by cases h
  only _ h hb := by cases h; cases hb

/-- From the lines of a template to its handler. -/
theorem handler {template : Nat → State → Result} {read : Nat → Option ReadCycle}
    (h : ∀ n, FaultsAsItsRead (template (n + 2) st) (read (n + 2)) st) :
    FaultsAsItsRead (handler template st)
      (match st.stepReg with
        | .executing (n + 1) => read (n + 2)
        | _ => none) st := by
  unfold Machine.handler
  split
  · next h0 => simp only [h0]; exact next
  · next n hn => simp only [hn]; exact h n
  · next h0 hn =>
    split
    · next n he => exact absurd he (hn n)
    · exact outOfDomain

variable {tail : Nat → State → Result} {read : Nat → Option ReadCycle}

/-- The fix-up cycle of an indexed mode, or the tail's first cycle in its place. -/
theorem indexed_first {fix : Fixup} {idx : Byte} (h : ∀ j, FaultsAsItsRead (tail j st) (read j) st) :
    FaultsAsItsRead (if fixes fix st.loc then fixupCycle idx st else tail 0 st) (indexedReads fix idx st read 0) st := by
  simp only [indexedReads]
  split
  · exact dummyRead (by intro _ _ h; cases h)
  · exact h 0

/-- The cycles after it. -/
theorem indexed_after {fix : Fixup} {idx : Byte} (h : ∀ j, FaultsAsItsRead (tail j st) (read j) st) (j : Nat) :
    FaultsAsItsRead (if fixes fix st.loc then tail j st else tail (j + 1) st)
      (indexedReads fix idx st read (j + 1)) st := by
  simp only [indexedReads]
  split
  · exact h j
  · exact h (j + 1)

/-- The address cycles of a mode and the tail behind them. -/
theorem addressCycles {m : AddrMode} {fix : Fixup} (h : ∀ j, FaultsAsItsRead (tail j st) (read j) st) (n : Nat) :
    FaultsAsItsRead (addressCycles m fix tail (n + 2) st) (modeRead m fix st read (n + 2)) st := by
  cases m with
  | zp => match n with
    | 0 => exact busRead (by intro _ _ _ h; cases h)
    | j + 1 => exact h j
  | zpx | zpy => match n with
    | 0 => exact busRead (by intro _ _ _ h; cases h)
    | 1 => exact dummyRead (by intro _ _ h; cases h)
    | j + 2 => exact h j
  | abs => match n with
    | 0 | 1 => exact busRead (by intro _ _ _ h; cases h)
    | j + 2 => exact h j
  | abx => match n with
    | 0 | 1 => exact busRead (by intro _ _ _ h; cases h)
    | 2 => exact indexed_first (idx := st.x) h
    | j + 3 => exact indexed_after (idx := st.x) h j
  | aby => match n with
    | 0 | 1 => exact busRead (by intro _ _ _ h; cases h)
    | 2 => exact indexed_first (idx := st.y) h
    | j + 3 => exact indexed_after (idx := st.y) h j
  | izx => match n with
    | 1 => exact dummyRead (by intro _ _ h; cases h)
    | 0 | 2 | 3 => exact busRead (by intro _ _ _ h; cases h)
    | j + 4 => exact h j
  | izy => match n with
    | 0 | 1 | 2 => exact busRead (by intro _ _ _ h; cases h)
    | 3 => exact indexed_first (idx := st.y) h
    | j + 4 => exact indexed_after (idx := st.y) h j
  | izp => match n with
    | 0 | 1 | 2 => exact busRead (by intro _ _ _ h; cases h)
    | j + 3 => exact h j

end FaultsAsItsRead

/-- A read cycle faults under `STRICT_BUS` only, and with a fault of the bus (20_memory.md R44). -/
theorem readCycle_error {sync vec : Bool} {address : Word} {st : State} {f : Fault}
    (h : readCycle sync vec address st = .error f) : f.isBusFault = true ∧ st.cfg.strictBus = true := by
  have hc : (broadcast ⟨address, st.bus.data, true, sync, vec⟩ 0 st).cfg = st.cfg := (broadcast_sameCpu _ _ _).cfg
  simp only [readCycle, readResult, hc] at h
  split at h
  · split at h
    · next hs => cases h; exact ⟨rfl, hs⟩
    · cases h
  · split at h
    · next hs => cases h; exact ⟨rfl, (Bool.and_eq_true _ _ ▸ hs).2⟩
    · cases h

end Sys2Proof.Machine
end

