-- ==== Sys2Proof/Laws/Templates.lean ====
section
/-! SUPPORT. The cycle templates: which line a handler runs at a cycle, and what a bus cycle that is answered comes to. -/

namespace Sys2Proof.Machine

/-! ## A handler at a cycle -/

theorem AtT.stepReg {k : Nat} {st : State} (h : AtT k st) : st.stepReg = .executing (k - 1) := h.2

theorem AtT.mk {k : Nat} {st : State} (hk : 2 ≤ k) (h : st.stepReg = .executing (k - 1)) : AtT k st := ⟨hk, h⟩

/-- At Tk, k at least 2, a handler runs line Tk of its template. -/
theorem AtT.handler {k : Nat} {st : State} (h : AtT k st) (template : Nat → State → Result) :
    handler template st = template k st := by
  obtain ⟨hk, hs⟩ := h
  obtain ⟨n, rfl⟩ : ∃ n, k = n + 2 := ⟨k - 2, by omega⟩
  exact handler_at hs

theorem State.nextCycle_at {k : Nat} {st u : State} (h : AtT k st) (hu : u.stepReg = st.stepReg) :
    u.nextCycle = u.setStep (.executing k) := by
  obtain ⟨hk, hs⟩ := h
  rw [State.nextCycle_eq u (k - 1) (by rw [hu, hs])]
  congr 2; omega

/-! ## Answered bus cycles -/

section
variable {address decided : Word} {st u : State} {v : Byte}

theorem Answers.effect (h : Answers address st v u) : ReadEffect false false address st v u := readCycle_ok h

theorem AnswersSync.effect (h : AnswersSync address st v u) : ReadEffect true false address st v u := readCycle_ok h

theorem AnswersVec.effect (h : AnswersVec address st v u) : ReadEffect false true address st v u := readCycle_ok h

theorem Answers.busRead (h : Answers address st v u) (k : Byte → State → Result) : busRead address st k = k v u :=
  busRead_ok h k

theorem AnswersSync.busSync (h : AnswersSync address st v u) (k : Byte → State → Result) : busSync address st k = k v u :=
  busSync_ok h k

theorem AnswersVec.busVec (h : AnswersVec address st v u) (k : Byte → State → Result) : busVec address st k = k v u :=
  busVec_ok h k

theorem AnswersDummy.dummyRead (h : AnswersDummy decided st u) (k : State → Result) : dummyRead decided st k = k u := by
  obtain ⟨v, hv⟩ := h
  exact busRead_ok hv _

/-- Everything an answered discarded read can do. -/
theorem AnswersDummy.effect (h : AnswersDummy decided st u) : DummyEffect st u := by
  obtain ⟨u', hu', hk⟩ := dummyRead_next (k := .next) (h.dummyRead .next)
  cases hk
  exact hu'

end

/-- With no device fault possible (`STRICT_BUS = false`) every read is answered (20_memory.md R44). -/
theorem readCycle_lenient (sync vec : Bool) (address : Word) (st : State) (h : st.cfg.strictBus = false) :
    ∃ v u, readCycle sync vec address st = .ok (v, u) := by
  unfold readCycle readResult
  have hc : (broadcast ⟨address, st.bus.data, true, sync, vec⟩ 0 st).cfg = st.cfg := rfl
  rw [hc, h]
  split
  · exact ⟨_, _, rfl⟩
  · simp

/-! ## The address cycles, then the tail -/

/-- `j` cycles after the address cycles of a mode, its template runs line `j` of the tail. -/
theorem addressCycles_tail (m : AddrMode) (fix : Fixup) (tail : Nat → State → Result) (j : Nat) (st : State) :
    addressCycles m fix tail (dataCycle m fix st.loc + j) st = tail j st := by
  cases m with
  | zp => rw [show dataCycle .zp fix st.loc + j = j + 3 from Nat.add_comm ..]; rfl
  | zpx => rw [show dataCycle .zpx fix st.loc + j = j + 4 from Nat.add_comm ..]; rfl
  | zpy => rw [show dataCycle .zpy fix st.loc + j = j + 4 from Nat.add_comm ..]; rfl
  | abs => rw [show dataCycle .abs fix st.loc + j = j + 4 from Nat.add_comm ..]; rfl
  | izx => rw [show dataCycle .izx fix st.loc + j = j + 6 from Nat.add_comm ..]; rfl
  | izp => rw [show dataCycle .izp fix st.loc + j = j + 5 from Nat.add_comm ..]; rfl
  | abx | aby =>
    cases hf : fixes fix st.loc with
    | true =>
      simp only [dataCycle, fixCycles, hf, if_true, addressCycles]
      rw [show 4 + 1 + j = j + 5 by omega]
      simp [absIndexedCycles, hf]
    | false =>
      cases j with
      | zero => simp [dataCycle, fixCycles, hf, addressCycles, absIndexedCycles]
      | succ j =>
        simp only [dataCycle, fixCycles, hf, addressCycles]
        rw [show 4 + (if false = true then 1 else 0) + (j + 1) = j + 5 by simp; omega]
        simp [absIndexedCycles, hf]
  | izy =>
    cases hf : fixes fix st.loc with
    | true =>
      simp only [dataCycle, fixCycles, hf, if_true, addressCycles]
      rw [show 5 + 1 + j = j + 6 by omega]
      simp [izyCycles, hf]
    | false =>
      cases j with
      | zero => simp [dataCycle, fixCycles, hf, addressCycles, izyCycles]
      | succ j =>
        simp only [dataCycle, fixCycles, hf, addressCycles]
        rw [show 5 + (if false = true then 1 else 0) + (j + 1) = j + 6 by simp; omega]
        simp [izyCycles, hf]

theorem dataCycle_ge (m : AddrMode) (fix : Fixup) (loc : Locals) : 3 ≤ dataCycle m fix loc := by
  cases m <;> simp [dataCycle] <;> omega

end Sys2Proof.Machine
end

