-- ==== Sys2Proof/Laws/Completion.lean ====
section
/-! SUPPORT. What the last cycles of the shared templates answer, given that their bus cycle is answered (40_engine.md R100 to
R114). The lemmas about a single instruction follow from these by naming its operation. -/

namespace Sys2Proof.Machine

/-- The tail's first cycle is the one after the address cycles. -/
theorem addressCycles_first (m : AddrMode) (fix : Fixup) (tail : Nat → State → Result) (st : State) :
    addressCycles m fix tail (dataCycle m fix st.loc) st = tail 0 st := addressCycles_tail m fix tail 0 st

/-- Class R: the operand byte is read, then the operation is applied. -/
theorem readInstr_end {o : ReadMode} {op : Byte → State → Result} {st u : State} {m : Byte}
    (h : AtT (readLast o st.loc) st) (ha : Answers (operandAddress o st) st m u) :
    readInstr o op st = finish (op m (afterOperand o u)) := by
  cases o with
  | imm =>
    have hu : u.incPC = afterOperand .imm u := rfl
    simp only [readInstr, readLast, operandAddress] at *
    rw [h.handler, immediateCycles, ha.busRead, hu]
  | mem md =>
    simp only [readInstr, readLast, operandAddress] at *
    rw [h.handler, addressCycles_first, readTail, ha.busRead, afterOperand]

/-- Reading an operand changes no register and no flag but `PC`. -/
theorem afterOperand_same {o : ReadMode} {st u : State} {m : Byte} (ha : Answers (operandAddress o st) st m u) :
    (afterOperand o u).a = st.a ∧ (afterOperand o u).x = st.x ∧ (afterOperand o u).y = st.y
      ∧ (afterOperand o u).s = st.s ∧ (afterOperand o u).p = st.p ∧ (afterOperand o u).cfg = st.cfg := by
  have c := ha.effect.cpu
  cases o <;> exact ⟨c.a, c.x, c.y, c.s, c.p, c.cfg⟩

/-- Class W: one write cycle at `EA`. -/
theorem writeInstr_end {m : AddrMode} {val : State → Byte} {st : State} (h : AtT (writeLast m st.loc) st) :
    writeInstr m val st = .next (busWrite st.ea (val st) st).done := by
  simp only [writeInstr, writeLast] at *
  rw [h.handler, addressCycles_first, writeTail]

/-- Implied and accumulator: the effect after the discarded read. -/
theorem impliedCycles_end {effect : State → State} {st u : State} (h : AtT 2 st) (ha : AnswersDummy st.pc st u) :
    handler (impliedCycles effect) st = .next (effect u).done := by
  rw [h.handler, impliedCycles, ha.dummyRead]

/-- The first cycle of the RMW tail: the byte into `TMP`. -/
theorem rmwInstr_read {m : AddrMode} {fix : Fixup} {f : Transform} {st u : State} {v : Byte}
    (h : AtT (dataCycle m fix st.loc) st) (ha : Answers st.ea st v u) :
    rmwInstr m fix f st = .next ((u.setTMP v).setStep (.executing (dataCycle m fix st.loc))) := by
  rw [rmwInstr, h.handler, addressCycles_first, rmwTail, ha.busRead,
    State.nextCycle_at h (by simp [ha.effect.cpu.stepReg])]

/-- The second: the transform. -/
theorem rmwInstr_transform {m : AddrMode} {fix : Fixup} {f : Transform} {st u : State} {v : Byte}
    (h : AtT (dataCycle m fix st.loc + 1) st) (ha : Answers st.ea st v u) :
    rmwInstr m fix f st = .next ((transformTmp f u).setStep (.executing (dataCycle m fix st.loc + 1))) := by
  rw [rmwInstr, h.handler, addressCycles_tail, rmwTail, ha.busRead,
    State.nextCycle_at h (by simp [transformTmp, ha.effect.cpu.stepReg])]

/-- The third: the write. -/
theorem rmwInstr_write {m : AddrMode} {fix : Fixup} {f : Transform} {st : State} (h : AtT (dataCycle m fix st.loc + 2) st) :
    rmwInstr m fix f st = .next (busWrite st.ea st.tmp st).done := by
  rw [rmwInstr, h.handler, addressCycles_tail, rmwTail]

/-- A push ends in its write and the decrement. -/
theorem pushCycles_end {val : State → Byte} {st : State} (h : AtT 3 st) :
    handler (pushCycles val) st = .next (push (val st) st).done := by
  rw [h.handler, pushCycles]

/-- A pull ends in its read and its effect. -/
theorem pullCycles_end {effect : Byte → State → State} {st u : State} {v : Byte} (h : AtT 4 st)
    (ha : Answers st.stackAddress st v u) : handler (pullCycles effect) st = .next (effect v u).done := by
  rw [h.handler, pullCycles, ha.busRead]

end Sys2Proof.Machine
end

