-- ==== Sys2Proof/Laws/Inversion.lean ====
section
/-! SUPPORT. Inversion: everything one cycle of a template can do when it answers a next state. Provers derive frames and
invariants from these in place of unfolding the templates. -/

namespace Sys2Proof.Machine

/-- What holds after at most one read cycle: the CPU, every RAM byte, the devices' ranges are as before, no line changes but by a
device's request, and the surroundings stay well formed. -/
structure Observed (st u : State) : Prop where
  cpu : SameCpu st u
  ram : SameRam st u
  map : SameMap st u
  wf : (∀ d ∈ st.devices, d.wf) ∧ st.lines.wf → SurroundingsWf u

theorem ReadEffect.observed {sync vec : Bool} {address : Word} {st u : State} {v : Byte}
    (e : ReadEffect sync vec address st v u) (h : ¬(sync = true ∧ vec = true)) : Observed st u :=
  ⟨e.cpu, e.ram, e.map, e.wf h⟩

theorem DummyEffect.observed {st u : State} (e : DummyEffect st u) : Observed st u := ⟨e.cpu, e.ram, e.map, e.wf⟩

theorem observed_busRead {address : Word} {st t : State} {k : Byte → State → Result} (h : busRead address st k = .next t) :
    ∃ v u, Observed st u ∧ k v u = .next t := by
  obtain ⟨v, u, hr, hk⟩ := busRead_next h
  exact ⟨v, u, (readCycle_ok hr).observed (by simp), hk⟩

theorem observed_busSync {address : Word} {st t : State} {k : Byte → State → Result} (h : busSync address st k = .next t) :
    ∃ v u, Observed st u ∧ k v u = .next t := by
  obtain ⟨v, u, hr, hk⟩ := busSync_next h
  exact ⟨v, u, (readCycle_ok hr).observed (by simp), hk⟩

theorem observed_busVec {address : Word} {st t : State} {k : Byte → State → Result} (h : busVec address st k = .next t) :
    ∃ v u, Observed st u ∧ k v u = .next t := by
  obtain ⟨v, u, hr, hk⟩ := busVec_next h
  exact ⟨v, u, (readCycle_ok hr).observed (by simp), hk⟩

theorem observed_dummyRead {decided : Word} {st t : State} {k : State → Result} (h : dummyRead decided st k = .next t) :
    ∃ u, Observed st u ∧ k u = .next t := by
  obtain ⟨u, e, hk⟩ := dummyRead_next h
  exact ⟨u, e.observed, hk⟩

/-- The step register after a cycle that only counts itself. -/
theorem State.nextCycle_stepReg {u : State} {n : Nat} (h : u.stepReg = .executing n) :
    u.nextCycle.stepReg = .executing (n + 1) := by rw [State.nextCycle_eq u n h]; rfl

/-! ## The address cycles -/

/-- The two states differ in `EA`, `IAB`, the template's intermediates and `PC` at most. -/
structure SameButAddress (u w : State) : Prop where
  a : w.a = u.a
  x : w.x = u.x
  y : w.y = u.y
  s : w.s = u.s
  p : w.p = u.p
  ir : w.ir = u.ir
  stepReg : w.stepReg = u.stepReg
  tmp : w.tmp = u.tmp
  bus : w.bus = u.bus
  lines : w.lines = u.lines
  devices : w.devices = u.devices
  cfg : w.cfg = u.cfg

/-- A cycle that forms an address: a read, then new values of `EA`, `IAB`, the template's intermediates and `PC` at most. -/
def FormsAddress (st : State) (bound : Locals → Nat) (k : Nat) (t : State) : Prop :=
  ∃ u w, t = w.nextCycle ∧ Observed st u ∧ SameButAddress u w ∧ k < bound st.loc ∧ k + 1 ≤ bound w.loc

theorem fixCycles_le (fix : Fixup) (loc : Locals) : fixCycles fix loc ≤ 1 := by unfold fixCycles; split <;> omega

/-- A cycle of a form that addresses memory is an address cycle, or a cycle of its class's tail. -/
theorem addressCycles_next {m : AddrMode} {fix : Fixup} {tail : Nat → State → Result} {k : Nat} {st t : State}
    (h : addressCycles m fix tail k st = .next t) :
    FormsAddress st (dataCycle m fix) k t ∨ ∃ j, k = dataCycle m fix st.loc + j ∧ tail j st = .next t := by
  by_cases hk : dataCycle m fix st.loc ≤ k
  · obtain ⟨j, rfl⟩ := Nat.exists_eq_add_of_le hk
    rw [addressCycles_tail] at h
    exact .inr ⟨j, rfl, h⟩
  · refine .inl ?_
    have hlt : k < dataCycle m fix st.loc := Nat.lt_of_not_le hk
    cases m with
    | zp =>
      match k, hlt, hk, h with
      | 2, hlt, _, h =>
        obtain ⟨v, u, e, hk⟩ := observed_busRead h
        cases hk; exact ⟨u, _, rfl, e, ⟨rfl, rfl, rfl, rfl, rfl, rfl, rfl, rfl, rfl, rfl, rfl, rfl⟩, hlt, by simp [dataCycle]⟩
      | 0, hlt, _, h => cases h
      | 1, hlt, _, h => cases h
      | k + 3, hlt, hk, _ => simp [dataCycle] at hk
    | zpx | zpy =>
      match k, hlt, hk, h with
      | 2, hlt, _, h =>
        obtain ⟨v, u, e, hk⟩ := observed_busRead h
        cases hk; exact ⟨u, _, rfl, e, ⟨rfl, rfl, rfl, rfl, rfl, rfl, rfl, rfl, rfl, rfl, rfl, rfl⟩, hlt, by simp [dataCycle]⟩
      | 3, hlt, _, h =>
        obtain ⟨u, e, hk⟩ := observed_dummyRead h
        cases hk; exact ⟨u, _, rfl, e, ⟨rfl, rfl, rfl, rfl, rfl, rfl, rfl, rfl, rfl, rfl, rfl, rfl⟩, hlt, by simp [dataCycle]⟩
      | 0, hlt, _, h => cases h
      | 1, hlt, _, h => cases h
      | k + 4, hlt, hk, _ => simp [dataCycle] at hk
    | abs =>
      match k, hlt, hk, h with
      | 2, hlt, _, h =>
        obtain ⟨v, u, e, hk⟩ := observed_busRead h
        cases hk; exact ⟨u, _, rfl, e, ⟨rfl, rfl, rfl, rfl, rfl, rfl, rfl, rfl, rfl, rfl, rfl, rfl⟩, hlt, by simp [dataCycle]⟩
      | 3, hlt, _, h =>
        obtain ⟨v, u, e, hk⟩ := observed_busRead h
        cases hk; exact ⟨u, _, rfl, e, ⟨rfl, rfl, rfl, rfl, rfl, rfl, rfl, rfl, rfl, rfl, rfl, rfl⟩, hlt, by simp [dataCycle]⟩
      | 0, hlt, _, h => cases h
      | 1, hlt, _, h => cases h
      | k + 4, hlt, hk, _ => simp [dataCycle] at hk
    | abx | aby =>
      match k, hlt, hk, h with
      | 2, hlt, _, h =>
        obtain ⟨v, u, e, hk⟩ := observed_busRead h
        cases hk; exact ⟨u, _, rfl, e, ⟨rfl, rfl, rfl, rfl, rfl, rfl, rfl, rfl, rfl, rfl, rfl, rfl⟩, hlt, by simp [dataCycle]; omega⟩
      | 3, hlt, _, h =>
        obtain ⟨v, u, e, hk⟩ := observed_busRead h
        cases hk; exact ⟨u, _, rfl, e, ⟨rfl, rfl, rfl, rfl, rfl, rfl, rfl, rfl, rfl, rfl, rfl, rfl⟩, hlt, by simp [dataCycle]⟩
      | 4, hlt, hk, h =>
        have hf : fixes fix st.loc = true := by
          by_contra hf; simp [dataCycle, fixCycles, hf] at hk
        simp only [addressCycles, absIndexedCycles, hf, if_true, fixupCycle] at h
        obtain ⟨u, e, hk⟩ := observed_dummyRead h
        cases hk
        exact ⟨u, _, rfl, e, ⟨rfl, rfl, rfl, rfl, rfl, rfl, rfl, rfl, rfl, rfl, rfl, rfl⟩, hlt, by simp [dataCycle, fixCycles, e.cpu.loc, hf]⟩
      | 0, hlt, _, h => cases h
      | 1, hlt, _, h => cases h
      | k + 5, hlt, hk, _ => have := fixCycles_le fix st.loc; simp [dataCycle] at hk; omega
    | izx =>
      match k, hlt, hk, h with
      | 2, hlt, _, h =>
        obtain ⟨v, u, e, hk⟩ := observed_busRead h
        cases hk; exact ⟨u, _, rfl, e, ⟨rfl, rfl, rfl, rfl, rfl, rfl, rfl, rfl, rfl, rfl, rfl, rfl⟩, hlt, by simp [dataCycle]⟩
      | 3, hlt, _, h =>
        obtain ⟨u, e, hk⟩ := observed_dummyRead h
        cases hk; exact ⟨u, _, rfl, e, ⟨rfl, rfl, rfl, rfl, rfl, rfl, rfl, rfl, rfl, rfl, rfl, rfl⟩, hlt, by simp [dataCycle]⟩
      | 4, hlt, _, h =>
        obtain ⟨v, u, e, hk⟩ := observed_busRead h
        cases hk; exact ⟨u, _, rfl, e, ⟨rfl, rfl, rfl, rfl, rfl, rfl, rfl, rfl, rfl, rfl, rfl, rfl⟩, hlt, by simp [dataCycle]⟩
      | 5, hlt, _, h =>
        obtain ⟨v, u, e, hk⟩ := observed_busRead h
        cases hk; exact ⟨u, _, rfl, e, ⟨rfl, rfl, rfl, rfl, rfl, rfl, rfl, rfl, rfl, rfl, rfl, rfl⟩, hlt, by simp [dataCycle]⟩
      | 0, hlt, _, h => cases h
      | 1, hlt, _, h => cases h
      | k + 6, hlt, hk, _ => simp [dataCycle] at hk
    | izy =>
      match k, hlt, hk, h with
      | 2, hlt, _, h =>
        obtain ⟨v, u, e, hk⟩ := observed_busRead h
        cases hk; exact ⟨u, _, rfl, e, ⟨rfl, rfl, rfl, rfl, rfl, rfl, rfl, rfl, rfl, rfl, rfl, rfl⟩, hlt, by simp [dataCycle]; omega⟩
      | 3, hlt, _, h =>
        obtain ⟨v, u, e, hk⟩ := observed_busRead h
        cases hk; exact ⟨u, _, rfl, e, ⟨rfl, rfl, rfl, rfl, rfl, rfl, rfl, rfl, rfl, rfl, rfl, rfl⟩, hlt, by simp [dataCycle]; omega⟩
      | 4, hlt, _, h =>
        obtain ⟨v, u, e, hk⟩ := observed_busRead h
        cases hk; exact ⟨u, _, rfl, e, ⟨rfl, rfl, rfl, rfl, rfl, rfl, rfl, rfl, rfl, rfl, rfl, rfl⟩, hlt, by simp [dataCycle]⟩
      | 5, hlt, hk, h =>
        have hf : fixes fix st.loc = true := by
          by_contra hf; simp [dataCycle, fixCycles, hf] at hk
        simp only [addressCycles, izyCycles, hf, if_true, fixupCycle] at h
        obtain ⟨u, e, hk⟩ := observed_dummyRead h
        cases hk
        exact ⟨u, _, rfl, e, ⟨rfl, rfl, rfl, rfl, rfl, rfl, rfl, rfl, rfl, rfl, rfl, rfl⟩, hlt, by simp [dataCycle, fixCycles, e.cpu.loc, hf]⟩
      | 0, hlt, _, h => cases h
      | 1, hlt, _, h => cases h
      | k + 6, hlt, hk, _ => have := fixCycles_le fix st.loc; simp [dataCycle] at hk; omega
    | izp =>
      match k, hlt, hk, h with
      | 2, hlt, _, h =>
        obtain ⟨v, u, e, hk⟩ := observed_busRead h
        cases hk; exact ⟨u, _, rfl, e, ⟨rfl, rfl, rfl, rfl, rfl, rfl, rfl, rfl, rfl, rfl, rfl, rfl⟩, hlt, by simp [dataCycle]⟩
      | 3, hlt, _, h =>
        obtain ⟨v, u, e, hk⟩ := observed_busRead h
        cases hk; exact ⟨u, _, rfl, e, ⟨rfl, rfl, rfl, rfl, rfl, rfl, rfl, rfl, rfl, rfl, rfl, rfl⟩, hlt, by simp [dataCycle]⟩
      | 4, hlt, _, h =>
        obtain ⟨v, u, e, hk⟩ := observed_busRead h
        cases hk; exact ⟨u, _, rfl, e, ⟨rfl, rfl, rfl, rfl, rfl, rfl, rfl, rfl, rfl, rfl, rfl, rfl⟩, hlt, by simp [dataCycle]⟩
      | 0, hlt, _, h => cases h
      | 1, hlt, _, h => cases h
      | k + 5, hlt, hk, _ => simp [dataCycle] at hk

/-! ## The classes -/

/-- The first cycle of a handler only counts itself. -/
def Begins (st t : State) : Prop := st.stepReg = .executing 0 ∧ t = st.setStep (.executing 1)

/-- A later cycle of a handler runs its template's line. -/
theorem handler_next_at {template : Nat → State → Result} {st t : State} (h : handler template st = .next t) :
    Begins st t ∨ ∃ k, AtT k st ∧ template k st = .next t := by
  rcases handler_next h with h | ⟨n, hs, h⟩
  · exact .inl h
  · exact .inr ⟨n + 2, ⟨by omega, hs⟩, h⟩

/-- A class R cycle: the first, an address cycle, or the operation on the operand byte and then "done". -/
theorem readInstr_next {o : ReadMode} {op : Byte → State → Result} {st t : State} (h : readInstr o op st = .next t) :
    Begins st t ∨ (∃ k, AtT k st ∧ FormsAddress st (readLast o) k t)
      ∨ (AtT (readLast o st.loc) st ∧ ∃ m u v, Observed st u ∧ op m (afterOperand o u) = .next v ∧ t = v.done) := by
  cases o with
  | imm =>
    rcases handler_next_at h with h | ⟨k, hk, h⟩
    · exact .inl h
    · match k, hk, h with
      | 2, hk, h =>
        obtain ⟨m, u, e, h⟩ := observed_busRead h
        obtain ⟨v, hv, rfl⟩ := finish_next h
        exact .inr (.inr ⟨hk, m, u, v, e, hv, rfl⟩)
      | 0, _, h => cases h
      | 1, _, h => cases h
      | k + 3, _, h => cases h
  | mem md =>
    rcases handler_next_at h with h | ⟨k, hk, h⟩
    · exact .inl h
    · rcases addressCycles_next h with h | ⟨j, rfl, hj⟩
      · exact .inr (.inl ⟨k, hk, h⟩)
      · match j, hk, hj with
        | 0, hk, hj =>
          obtain ⟨m, u, e, hj⟩ := observed_busRead hj
          obtain ⟨v, hv, rfl⟩ := finish_next hj
          exact .inr (.inr ⟨hk, m, u, v, e, hv, rfl⟩)
        | j + 1, _, hj => cases hj

/-- A class W cycle: the first, an address cycle, or the write cycle at `EA` and then "done". -/
theorem writeInstr_next {m : AddrMode} {val : State → Byte} {st t : State} (h : writeInstr m val st = .next t) :
    Begins st t ∨ (∃ k, AtT k st ∧ FormsAddress st (writeLast m) k t)
      ∨ (AtT (writeLast m st.loc) st ∧ t = (busWrite st.ea (val st) st).done) := by
  rcases handler_next_at h with h | ⟨k, hk, h⟩
  · exact .inl h
  · rcases addressCycles_next h with h | ⟨j, rfl, hj⟩
    · exact .inr (.inl ⟨k, hk, h⟩)
    · match j, hk, hj with
      | 0, hk, hj => cases hj; exact .inr (.inr ⟨hk, rfl⟩)
      | j + 1, _, hj => cases hj

/-- A class M cycle in memory: the first, an address cycle, or one of the three cycles of the tail. -/
theorem rmwInstr_next {m : AddrMode} {fix : Fixup} {f : Transform} {st t : State} (h : rmwInstr m fix f st = .next t) :
    Begins st t ∨ (∃ k, AtT k st ∧ FormsAddress st (dataCycle m fix) k t)
      ∨ (AtT (dataCycle m fix st.loc) st ∧ ∃ v u, Observed st u ∧ t = (u.setTMP v).nextCycle)
      ∨ (AtT (dataCycle m fix st.loc + 1) st ∧ ∃ u, Observed st u ∧ t = (transformTmp f u).nextCycle)
      ∨ (AtT (dataCycle m fix st.loc + 2) st ∧ t = (busWrite st.ea st.tmp st).done) := by
  rcases handler_next_at h with h | ⟨k, hk, h⟩
  · exact .inl h
  · rcases addressCycles_next h with h | ⟨j, rfl, hj⟩
    · exact .inr (.inl ⟨k, hk, h⟩)
    · match j, hk, hj with
      | 0, hk, hj =>
        obtain ⟨v, u, e, hj⟩ := observed_busRead hj
        cases hj; exact .inr (.inr (.inl ⟨hk, v, u, e, rfl⟩))
      | 1, hk, hj =>
        obtain ⟨v, u, e, hj⟩ := observed_busRead hj
        cases hj; exact .inr (.inr (.inr (.inl ⟨hk, u, e, rfl⟩)))
      | 2, hk, hj => cases hj; exact .inr (.inr (.inr (.inr ⟨hk, rfl⟩)))
      | j + 3, _, hj => cases hj

/-- An implied or accumulator cycle: the first, or the effect after a discarded read. -/
theorem impliedCycles_next {effect : State → State} {st t : State} (h : handler (impliedCycles effect) st = .next t) :
    Begins st t ∨ (AtT 2 st ∧ ∃ u, Observed st u ∧ t = (effect u).done) := by
  rcases handler_next_at h with h | ⟨k, hk, h⟩
  · exact .inl h
  · match k, hk, h with
    | 2, hk, h =>
      obtain ⟨u, e, h⟩ := observed_dummyRead h
      cases h; exact .inr ⟨hk, u, e, rfl⟩
    | 0, _, h => cases h
    | 1, _, h => cases h
    | k + 3, _, h => cases h

theorem pushCycles_next {val : State → Byte} {st t : State} (h : handler (pushCycles val) st = .next t) :
    Begins st t ∨ (AtT 2 st ∧ ∃ u, Observed st u ∧ t = u.nextCycle) ∨ (AtT 3 st ∧ t = (push (val st) st).done) := by
  rcases handler_next_at h with h | ⟨k, hk, h⟩
  · exact .inl h
  · match k, hk, h with
    | 2, hk, h =>
      obtain ⟨u, e, h⟩ := observed_dummyRead h
      cases h; exact .inr (.inl ⟨hk, u, e, rfl⟩)
    | 3, hk, h => cases h; exact .inr (.inr ⟨hk, rfl⟩)
    | 0, _, h => cases h
    | 1, _, h => cases h
    | k + 4, _, h => cases h

theorem pullCycles_next {effect : Byte → State → State} {st t : State} (h : handler (pullCycles effect) st = .next t) :
    Begins st t ∨ (AtT 2 st ∧ ∃ u, Observed st u ∧ t = u.nextCycle)
      ∨ (AtT 3 st ∧ ∃ u, Observed st u ∧ t = u.incS.nextCycle)
      ∨ (AtT 4 st ∧ ∃ v u, Observed st u ∧ t = (effect v u).done) := by
  rcases handler_next_at h with h | ⟨k, hk, h⟩
  · exact .inl h
  · match k, hk, h with
    | 2, hk, h =>
      obtain ⟨u, e, h⟩ := observed_dummyRead h
      cases h; exact .inr (.inl ⟨hk, u, e, rfl⟩)
    | 3, hk, h =>
      obtain ⟨u, e, h⟩ := observed_dummyRead h
      cases h; exact .inr (.inr (.inl ⟨hk, u, e, rfl⟩))
    | 4, hk, h =>
      obtain ⟨v, u, e, h⟩ := observed_busRead h
      cases h; exact .inr (.inr (.inr ⟨hk, v, u, e, rfl⟩))
    | 0, _, h => cases h
    | 1, _, h => cases h
    | k + 5, _, h => cases h

theorem haltCycles_next {into : StepReg} {st t : State} (h : handler (haltCycles into) st = .next t) :
    Begins st t ∨ (AtT 2 st ∧ ∃ u, Observed st u ∧ t = u.nextCycle)
      ∨ (AtT 3 st ∧ ∃ u, Observed st u ∧ t = u.setStep into) := by
  rcases handler_next_at h with h | ⟨k, hk, h⟩
  · exact .inl h
  · match k, hk, h with
    | 2, hk, h =>
      obtain ⟨u, e, h⟩ := observed_dummyRead h
      cases h; exact .inr (.inl ⟨hk, u, e, rfl⟩)
    | 3, hk, h =>
      obtain ⟨u, e, h⟩ := observed_dummyRead h
      cases h; exact .inr (.inr ⟨hk, u, e, rfl⟩)
    | 0, _, h => cases h
    | 1, _, h => cases h
    | k + 4, _, h => cases h

/-- A relative branch's cycle. -/
theorem relativeCycles_next {cond : Flags → Bool} {st t : State} (h : handler (relativeCycles cond) st = .next t) :
    Begins st t
      ∨ (AtT 2 st ∧ ∃ v u, Observed st u
          ∧ t = (u.setLoc { u.loc with off := v, taken := cond u.p }).incPC.nextCycle)
      ∨ (AtT 3 st ∧ st.loc.taken = true ∧ ∃ u, Observed st u ∧ t = (u.branchTo u.loc.off).branchEnd)
      ∨ (AtT 3 st ∧ st.loc.taken = false ∧ ∃ v u, Observed st u
          ∧ t = (u.setIR (.opcode v)).setStep .awaitPipelinedFetch)
      ∨ (AtT 4 st ∧ st.loc.taken = true ∧ st.loc.crossed = true ∧ ∃ u, Observed st u ∧ t = u.done) := by
  rcases handler_next_at h with h | ⟨k, hk, h⟩
  · exact .inl h
  · match k, hk, h with
    | 2, hk, h =>
      obtain ⟨v, u, e, h⟩ := observed_busRead h
      cases h; exact .inr (.inl ⟨hk, v, u, e, rfl⟩)
    | 3, hk, h =>
      simp only [relativeCycles] at h
      split at h
      · next ht =>
        obtain ⟨u, e, h⟩ := observed_dummyRead h
        cases h; exact .inr (.inr (.inl ⟨hk, ht, u, e, rfl⟩))
      · next ht =>
        obtain ⟨v, u, e, h⟩ := observed_busSync h
        cases h; exact .inr (.inr (.inr (.inl ⟨hk, by simpa using ht, v, u, e, rfl⟩)))
    | 4, hk, h =>
      simp only [relativeCycles] at h
      split at h
      · next ht =>
        obtain ⟨u, e, h⟩ := observed_dummyRead h
        simp only [Bool.and_eq_true] at ht
        cases h; exact .inr (.inr (.inr (.inr ⟨hk, ht.1, ht.2, u, e, rfl⟩)))
      · cases h
    | 0, _, h => cases h
    | 1, _, h => cases h
    | k + 5, _, h => cases h

/-- A cycle of a branch on bit. -/
theorem branchBitCycles_next {n : Nat} {want : Bool} {st t : State} (h : handler (branchBitCycles n want) st = .next t) :
    Begins st t
      ∨ (AtT 2 st ∧ ∃ v u, Observed st u ∧ t = (u.setEA (zext16 v)).incPC.nextCycle)
      ∨ (AtT 3 st ∧ ∃ v u, Observed st u ∧ t = (u.setTMP v).nextCycle)
      ∨ (AtT 4 st ∧ ∃ u, Observed st u ∧ t = u.nextCycle)
      ∨ (AtT 5 st ∧ ∃ v u, Observed st u
          ∧ (t = ((u.setLoc { u.loc with off := v }).incPC.branchTo v).branchEnd
            ∨ t = ((u.setLoc { u.loc with off := v, crossed := false }).incPC).done))
      ∨ (AtT 6 st ∧ st.loc.crossed = true ∧ ∃ u, Observed st u ∧ t = u.done) := by
  rcases handler_next_at h with h | ⟨k, hk, h⟩
  · exact .inl h
  · match k, hk, h with
    | 2, hk, h =>
      obtain ⟨v, u, e, h⟩ := observed_busRead h
      cases h; exact .inr (.inl ⟨hk, v, u, e, rfl⟩)
    | 3, hk, h =>
      obtain ⟨v, u, e, h⟩ := observed_busRead h
      cases h; exact .inr (.inr (.inl ⟨hk, v, u, e, rfl⟩))
    | 4, hk, h =>
      obtain ⟨u, e, h⟩ := observed_dummyRead h
      cases h; exact .inr (.inr (.inr (.inl ⟨hk, u, e, rfl⟩)))
    | 5, hk, h =>
      obtain ⟨v, u, e, h⟩ := observed_busRead h
      simp only at h
      split at h <;> cases h
      · exact .inr (.inr (.inr (.inr (.inl ⟨hk, v, u, e, .inl rfl⟩))))
      · exact .inr (.inr (.inr (.inr (.inl ⟨hk, v, u, e, .inr rfl⟩))))
    | 6, hk, h =>
      simp only [branchBitCycles] at h
      split at h
      · next hc =>
        obtain ⟨u, e, h⟩ := observed_dummyRead h
        cases h; exact .inr (.inr (.inr (.inr (.inr ⟨hk, hc, u, e, rfl⟩))))
      · cases h
    | 0, _, h => cases h
    | 1, _, h => cases h
    | k + 7, _, h => cases h

/-! ## Control flow and the stack -/

/-- A cycle of `JMP`: a read, then new template intermediates or a new `PC`; the last of its form ends it. -/
theorem jmpCycles_next {m : JmpMode} {st t : State} (h : handler (jmpCycles m) st = .next t) :
    Begins st t ∨ ∃ k u w, AtT k st ∧ Observed st u
      ∧ (k < lastCycle (.jmp m) st.loc ∧ t = w.nextCycle ∨ k = lastCycle (.jmp m) st.loc ∧ t = w.done)
      ∧ SameButAddress u w := by
  rcases handler_next_at h with h | ⟨k, hk, h⟩
  · exact .inl h
  · refine .inr ?_
    cases m with
    | abs =>
      match k, hk, h with
      | 2, hk, h =>
        obtain ⟨v, u, e, h⟩ := observed_busRead h
        cases h; exact ⟨2, u, _, hk, e, .inl ⟨by simp [lastCycle], rfl⟩, ⟨rfl, rfl, rfl, rfl, rfl, rfl, rfl, rfl, rfl, rfl, rfl, rfl⟩⟩
      | 3, hk, h =>
        obtain ⟨v, u, e, h⟩ := observed_busRead h
        cases h; exact ⟨3, u, _, hk, e, .inr ⟨rfl, rfl⟩, ⟨rfl, rfl, rfl, rfl, rfl, rfl, rfl, rfl, rfl, rfl, rfl, rfl⟩⟩
      | 0, _, h => cases h
      | 1, _, h => cases h
      | k + 4, _, h => cases h
    | ind | iax =>
      match k, hk, h with
      | 2, hk, h =>
        obtain ⟨v, u, e, h⟩ := observed_busRead h
        cases h; exact ⟨2, u, _, hk, e, .inl ⟨by simp [lastCycle], rfl⟩, ⟨rfl, rfl, rfl, rfl, rfl, rfl, rfl, rfl, rfl, rfl, rfl, rfl⟩⟩
      | 3, hk, h =>
        obtain ⟨v, u, e, h⟩ := observed_busRead h
        cases h; exact ⟨3, u, _, hk, e, .inl ⟨by simp [lastCycle], rfl⟩, ⟨rfl, rfl, rfl, rfl, rfl, rfl, rfl, rfl, rfl, rfl, rfl, rfl⟩⟩
      | 4, hk, h =>
        obtain ⟨u, e, h⟩ := observed_dummyRead h
        cases h; exact ⟨4, u, _, hk, e, .inl ⟨by simp [lastCycle], rfl⟩, ⟨rfl, rfl, rfl, rfl, rfl, rfl, rfl, rfl, rfl, rfl, rfl, rfl⟩⟩
      | 5, hk, h =>
        obtain ⟨v, u, e, h⟩ := observed_busRead h
        cases h; exact ⟨5, u, _, hk, e, .inl ⟨by simp [lastCycle], rfl⟩, ⟨rfl, rfl, rfl, rfl, rfl, rfl, rfl, rfl, rfl, rfl, rfl, rfl⟩⟩
      | 6, hk, h =>
        obtain ⟨v, u, e, h⟩ := observed_busRead h
        cases h; exact ⟨6, u, _, hk, e, .inr ⟨rfl, rfl⟩, ⟨rfl, rfl, rfl, rfl, rfl, rfl, rfl, rfl, rfl, rfl, rfl, rfl⟩⟩
      | 0, _, h => cases h
      | 1, _, h => cases h
      | k + 7, _, h => cases h

/-- A cycle of `JSR`. -/
theorem jsrCycles_next {st t : State} (h : handler jsrCycles st = .next t) :
    Begins st t
      ∨ (AtT 2 st ∧ ∃ v u, Observed st u ∧ t = (u.setLoc { u.loc with lo := v }).incPC.nextCycle)
      ∨ (AtT 3 st ∧ ∃ u, Observed st u ∧ t = u.nextCycle)
      ∨ (AtT 4 st ∧ t = (push (hiByte st.pc) st).nextCycle)
      ∨ (AtT 5 st ∧ t = (push (loByte st.pc) st).nextCycle)
      ∨ (AtT 6 st ∧ ∃ v u, Observed st u ∧ t = (u.setPC (cat v u.loc.lo)).done) := by
  rcases handler_next_at h with h | ⟨k, hk, h⟩
  · exact .inl h
  · refine .inr ?_
    match k, hk, h with
    | 2, hk, h =>
      obtain ⟨v, u, e, h⟩ := observed_busRead h
      cases h; exact .inl ⟨hk, v, u, e, rfl⟩
    | 3, hk, h =>
      obtain ⟨u, e, h⟩ := observed_dummyRead h
      cases h; exact .inr (.inl ⟨hk, u, e, rfl⟩)
    | 4, hk, h => cases h; exact .inr (.inr (.inl ⟨hk, rfl⟩))
    | 5, hk, h => cases h; exact .inr (.inr (.inr (.inl ⟨hk, rfl⟩)))
    | 6, hk, h =>
      obtain ⟨v, u, e, h⟩ := observed_busRead h
      cases h; exact .inr (.inr (.inr (.inr ⟨hk, v, u, e, rfl⟩)))
    | 0, _, h => cases h
    | 1, _, h => cases h
    | k + 7, _, h => cases h

/-- A cycle of `RTS`. -/
theorem rtsCycles_next {st t : State} (h : handler rtsCycles st = .next t) :
    Begins st t
      ∨ (AtT 2 st ∧ ∃ u, Observed st u ∧ t = u.nextCycle)
      ∨ (AtT 3 st ∧ ∃ u, Observed st u ∧ t = u.incS.nextCycle)
      ∨ (AtT 4 st ∧ ∃ v u, Observed st u ∧ t = (u.setLoc { u.loc with lo := v }).incS.nextCycle)
      ∨ (AtT 5 st ∧ ∃ v u, Observed st u ∧ t = (u.setPC (cat v u.loc.lo)).nextCycle)
      ∨ (AtT 6 st ∧ ∃ u, Observed st u ∧ t = u.incPC.done) := by
  rcases handler_next_at h with h | ⟨k, hk, h⟩
  · exact .inl h
  · refine .inr ?_
    match k, hk, h with
    | 2, hk, h =>
      obtain ⟨u, e, h⟩ := observed_dummyRead h
      cases h; exact .inl ⟨hk, u, e, rfl⟩
    | 3, hk, h =>
      obtain ⟨u, e, h⟩ := observed_dummyRead h
      cases h; exact .inr (.inl ⟨hk, u, e, rfl⟩)
    | 4, hk, h =>
      obtain ⟨v, u, e, h⟩ := observed_busRead h
      cases h; exact .inr (.inr (.inl ⟨hk, v, u, e, rfl⟩))
    | 5, hk, h =>
      obtain ⟨v, u, e, h⟩ := observed_busRead h
      cases h; exact .inr (.inr (.inr (.inl ⟨hk, v, u, e, rfl⟩)))
    | 6, hk, h =>
      obtain ⟨u, e, h⟩ := observed_dummyRead h
      cases h; exact .inr (.inr (.inr (.inr ⟨hk, u, e, rfl⟩)))
    | 0, _, h => cases h
    | 1, _, h => cases h
    | k + 7, _, h => cases h

/-- A cycle of `RTI`. -/
theorem returnCycle_next {st t : State} (h : handler returnCycle st = .next t) :
    Begins st t
      ∨ (AtT 2 st ∧ ∃ u, Observed st u ∧ t = u.nextCycle)
      ∨ (AtT 3 st ∧ ∃ u, Observed st u ∧ t = u.incS.nextCycle)
      ∨ (AtT 4 st ∧ ∃ v u, Observed st u ∧ t = (u.setP (Flags.ofByte v)).incS.nextCycle)
      ∨ (AtT 5 st ∧ ∃ v u, Observed st u ∧ t = (u.setLoc { u.loc with lo := v }).incS.nextCycle)
      ∨ (AtT 6 st ∧ ∃ v u, Observed st u ∧ t = (u.setPC (cat v u.loc.lo)).done) := by
  rcases handler_next_at h with h | ⟨k, hk, h⟩
  · exact .inl h
  · refine .inr ?_
    match k, hk, h with
    | 2, hk, h =>
      obtain ⟨u, e, h⟩ := observed_dummyRead h
      cases h; exact .inl ⟨hk, u, e, rfl⟩
    | 3, hk, h =>
      obtain ⟨u, e, h⟩ := observed_dummyRead h
      cases h; exact .inr (.inl ⟨hk, u, e, rfl⟩)
    | 4, hk, h =>
      obtain ⟨v, u, e, h⟩ := observed_busRead h
      cases h; exact .inr (.inr (.inl ⟨hk, v, u, e, rfl⟩))
    | 5, hk, h =>
      obtain ⟨v, u, e, h⟩ := observed_busRead h
      cases h; exact .inr (.inr (.inr (.inl ⟨hk, v, u, e, rfl⟩)))
    | 6, hk, h =>
      obtain ⟨v, u, e, h⟩ := observed_busRead h
      cases h; exact .inr (.inr (.inr (.inr ⟨hk, v, u, e, rfl⟩)))
    | 0, _, h => cases h
    | 1, _, h => cases h
    | k + 7, _, h => cases h

/-- T6 and T7 of an entry. -/
theorem vectorCycle_next {vector : Word} {k : Nat} {st t : State} (h : vectorCycle vector k st = .next t) :
    (k = 6 ∧ ∃ v u, Observed st u ∧ t = (u.setPCL v).nextCycle)
      ∨ (k = 7 ∧ ∃ v u, Observed st u ∧ t = (u.setPCH v).done) := by
  unfold vectorCycle at h
  split at h
  · obtain ⟨v, u, e, h⟩ := observed_busVec h
    cases h; exact .inl ⟨rfl, v, u, e, rfl⟩
  · obtain ⟨v, u, e, h⟩ := observed_busVec h
    cases h; exact .inr ⟨rfl, v, u, e, rfl⟩
  · cases h

/-- T3 to T7 of an NMI, IRQ or BRK entry. -/
theorem entryCycle_next {vector : Word} {b : Bool} {k : Nat} {st t : State} (h : entryCycle vector b k st = .next t) :
    (k = 3 ∧ t = (push (hiByte st.pc) st).nextCycle)
      ∨ (k = 4 ∧ t = (push (loByte st.pc) st).nextCycle)
      ∨ (k = 5 ∧ t = ((push (st.p.pByte b) st).setP st.p.entered).nextCycle)
      ∨ (k = 6 ∧ ∃ v u, Observed st u ∧ t = (u.setPCL v).nextCycle)
      ∨ (k = 7 ∧ ∃ v u, Observed st u ∧ t = (u.setPCH v).done) := by
  unfold entryCycle at h
  split at h
  · cases h; exact .inl ⟨rfl, rfl⟩
  · cases h; exact .inr (.inl ⟨rfl, rfl⟩)
  · cases h; exact .inr (.inr (.inl ⟨rfl, rfl⟩))
  · exact .inr (.inr (.inr (vectorCycle_next h)))

/-- A cycle of `BRK`. -/
theorem brkCycles_next {st t : State} (h : handler brkCycles st = .next t) :
    Begins st t
      ∨ (AtT 2 st ∧ ∃ u, Observed st u ∧ t = u.incPC.nextCycle)
      ∨ ∃ k, AtT k st ∧ k ≠ 2 ∧ entryCycle 0xFFFE true k st = .next t := by
  rcases handler_next_at h with h | ⟨k, hk, h⟩
  · exact .inl h
  · refine .inr ?_
    unfold brkCycles at h
    split at h
    · obtain ⟨v, u, e, h⟩ := observed_busRead h
      cases h; exact .inl ⟨hk, u, e, rfl⟩
    · next hne => exact .inr ⟨k, hk, hne, h⟩

/-- A cycle of a sequence that no instruction begins: one of the two discarded reads, or what follows. -/
theorem lineEntryCycle_next {rest : Nat → State → Result} {k : Nat} {st t : State}
    (h : lineEntryCycle rest k st = .next t) :
    ((k = 1 ∨ k = 2) ∧ ∃ u, Observed st u ∧ t = u.nextCycle) ∨ (k ≠ 1 ∧ k ≠ 2 ∧ rest k st = .next t) := by
  unfold lineEntryCycle at h
  split at h
  · obtain ⟨u, e, h⟩ := observed_dummyRead h
    cases h; exact .inl ⟨.inl rfl, u, e, rfl⟩
  · obtain ⟨u, e, h⟩ := observed_dummyRead h
    cases h; exact .inl ⟨.inr rfl, u, e, rfl⟩
  · next h1 h2 => exact .inr ⟨h1, h2, h⟩

/-- T3 to T7 of the RST sequence with reads. -/
theorem rstReadCycle_next {k : Nat} {st t : State} (h : rstReadCycle k st = .next t) :
    ((k = 3 ∨ k = 4) ∧ ∃ u, Observed st u ∧ t = u.decS.nextCycle)
      ∨ (k = 5 ∧ ∃ u, Observed st u ∧ t = (u.decS.setP u.p.entered).nextCycle)
      ∨ (k = 6 ∧ ∃ v u, Observed st u ∧ t = (u.setPCL v).nextCycle)
      ∨ (k = 7 ∧ ∃ v u, Observed st u ∧ t = (u.setPCH v).done) := by
  unfold rstReadCycle at h
  split at h
  · obtain ⟨u, e, h⟩ := observed_dummyRead h
    cases h; exact .inl ⟨.inl rfl, u, e, rfl⟩
  · obtain ⟨u, e, h⟩ := observed_dummyRead h
    cases h; exact .inl ⟨.inr rfl, u, e, rfl⟩
  · obtain ⟨u, e, h⟩ := observed_dummyRead h
    cases h; exact .inr (.inl ⟨rfl, u, e, rfl⟩)
  · exact .inr (.inr (vectorCycle_next h))

end Sys2Proof.Machine
end

