-- ==== Sys2Proof/Laws/OverRam.lean ====
section
/-! SUPPORT. The bus cycles of a machine whose only device is one RAM over the whole space (95_test_vectors.md section 0), and a
run of cycles over it. -/

namespace Sys2Proof.Machine

namespace OverRam

variable {mem : Memory} {st : State}

/-- The state after a read cycle over one RAM. -/
def afterRead (st : State) (address : Word) (v : Byte) (sync vec : Bool) : State :=
  st.setBusSide ⟨address, v, true, sync, vec⟩ 1 st.lines st.devices

theorem inRange_full (mem : Memory) (a : Word) : (Device.fullRam mem).inRange a = true := by
  have := a.isLt
  simp [Device.inRange, Device.fullRam]
  omega

/-- A read cycle over one RAM is answered with the byte there. -/
theorem readCycle (h : OverRam mem st) (sync vec : Bool) (a : Word) :
    readCycle sync vec a st = .ok (mem.load a, afterRead st a (mem.load a) sync vec) := by
  obtain ⟨hd, hc, -⟩ := h
  have hr := inRange_full mem a
  simp [Machine.readCycle, broadcast, hd, notifyAll, Device.onCycle, Device.fullRam] at hr ⊢
  simp [hr, driveBus, readResult, Lines.actAll, hc, Params.default, afterRead, hd, Device.fullRam, Memory.load]

theorem answers (h : OverRam mem st) (a : Word) : Answers a st (mem.load a) (afterRead st a (mem.load a) false false) :=
  h.readCycle false false a

theorem answersSync (h : OverRam mem st) (a : Word) :
    AnswersSync a st (mem.load a) (afterRead st a (mem.load a) true false) := h.readCycle true false a

theorem answersVec (h : OverRam mem st) (a : Word) :
    AnswersVec a st (mem.load a) (afterRead st a (mem.load a) false true) := h.readCycle false true a

theorem answersDummy (h : OverRam mem st) (a : Word) : AnswersDummy a st (afterRead st a (mem.load a) false false) := by
  refine ⟨mem.load a, ?_⟩
  have hd : st.cfg.dummyAddress = .decided := by rw [h.2.1]; rfl
  simp only [dummyAddress, hd]
  exact h.answers a

/-- A write cycle over one RAM stores the byte there. -/
theorem busWrite (h : OverRam mem st) (a : Word) (v : Byte) :
    busWrite a v st = st.setBusSide ⟨a, v, false, false, false⟩ st.driven st.lines [.fullRam (mem.store a v)] := by
  obtain ⟨hd, -, -⟩ := h
  have hr := inRange_full mem a
  simp [Machine.busWrite, broadcast, hd, notifyAll, Device.onCycle, Device.fullRam] at hr ⊢
  simp [hr, driveBus, Lines.actAll, Device.withBody, Memory.store]

/-- The same surroundings: the same machine over one RAM. -/
theorem of_eq {u : State} (h : OverRam mem st) (hd : u.devices = st.devices) (hc : u.cfg = st.cfg)
    (hl : u.lines = st.lines) : OverRam mem u := by
  unfold OverRam; rw [hd, hc, hl]; exact h

theorem of_store {u : State} (h : OverRam mem st) (a : Word) (v : Byte) (hd : u.devices = [.fullRam (mem.store a v)])
    (hc : u.cfg = st.cfg) (hl : u.lines = st.lines) : OverRam (mem.store a v) u := by
  unfold OverRam; rw [hc, hl]; exact ⟨hd, h.2⟩

end OverRam

/-! ## Runs -/

theorem RunsTo.zero {st : State} {post : State → Prop} (h : post st) : RunsTo 0 st post := ⟨st, rfl, h⟩

/-- One cycle, then the rest of a run. -/
theorem RunsTo.succ {n : Nat} {st t : State} {post : State → Prop} (h : step st = .next t) (hr : RunsTo n t post) :
    RunsTo (n + 1) st post := by
  obtain ⟨u, hu, hp⟩ := hr
  refine ⟨u, ?_, hp⟩
  have hs : Sys2Proof.core.step st = .next t := h
  simp only [Host.Core.run, hs]; exact hu

/-! ## One cycle with quiet lines -/

theorem pollRst_quiet {st : State} (hw : st.lines.wf) (h : st.lines.rst.triggered = false) : pollRst st = false := by
  simp [pollRst, InterruptLine.shouldInterrupt, hw.2.2.2.2.2, h]

theorem pollIrq_level {st : State} (hw : st.lines.wf) : pollIrq st = st.lines.irq.triggered := by
  simp [pollIrq, InterruptLine.shouldInterrupt, hw.2.2.2.2.1]

/-- With `NMI_EDGE_CAPTURE = on_trigger` and no edge pending the poll of NMI answers no and changes nothing. -/
theorem pollNmi_quiet {st : State} (hw : st.lines.wf) (hc : st.cfg.nmiEdgeCapture = .onTrigger)
    (h : st.lines.nmi.latchedSinceEdge = false) : pollNmi st = (false, st) := by
  obtain ⟨a, x, y, s, pc, p, ir, stepReg, ea, iab, tmp, loc, bus, driven, ⟨⟨e, rq, l⟩, irq, rst⟩, devices, cfg, fi⟩ := st
  have he := hw.2.2.2.1
  simp only at h he hc
  simp [pollNmi, InterruptLine.shouldInterrupt, he, hc, h, State.setLines]

/-- Inside a handler, RST not asserted, a cycle is one step of the handler. -/
theorem step_executing {st : State} {n : Nat} (hs : st.stepReg = .executing n) (hr : pollRst st = false) :
    step st = runHandler st := by simp [step, dispatch, hr, hs, finishCycle]

theorem runHandler_opcode {st : State} {b : Byte} (h : st.ir = .opcode b) : runHandler st = exec (decodeOpcode b) st := by
  simp [runHandler, h]

end Sys2Proof.Machine
end

