-- ==== Sys2Proof/Laws/PerInstr.lean ====
section
/-! SUPPORT. Per instruction: a well-formed instruction has an opcode byte, and that byte selects it (30_encoding.md R70, R73). -/

namespace Sys2Proof.Laws.OpcodeRoundTrip

/-- A well-formed instruction has an opcode byte, and the decoder selects the instruction by it. -/
def Statement (i : Instr) : Prop := i.wf = true → ∃ b, opcodeOf i = some b ∧ decodeOpcode b = i

theorem lda (o : ReadMode) : Statement (.lda o) := fun h => by
  rcases o with _ | m
  · exact ⟨_, rfl, rfl⟩
  · cases m <;> first | exact ⟨_, rfl, rfl⟩ | cases h

theorem ldx (o : ReadMode) : Statement (.ldx o) := fun h => by
  rcases o with _ | m
  · exact ⟨_, rfl, rfl⟩
  · cases m <;> first | exact ⟨_, rfl, rfl⟩ | cases h

theorem ldy (o : ReadMode) : Statement (.ldy o) := fun h => by
  rcases o with _ | m
  · exact ⟨_, rfl, rfl⟩
  · cases m <;> first | exact ⟨_, rfl, rfl⟩ | cases h

theorem sta (m : AddrMode) : Statement (.sta m) := fun h => by
  cases m <;> first | exact ⟨_, rfl, rfl⟩ | cases h

theorem stx (m : AddrMode) : Statement (.stx m) := fun h => by
  cases m <;> first | exact ⟨_, rfl, rfl⟩ | cases h

theorem sty (m : AddrMode) : Statement (.sty m) := fun h => by
  cases m <;> first | exact ⟨_, rfl, rfl⟩ | cases h

theorem stz (m : AddrMode) : Statement (.stz m) := fun h => by
  cases m <;> first | exact ⟨_, rfl, rfl⟩ | cases h

theorem tax : Statement .tax := fun _ => ⟨_, rfl, rfl⟩

theorem tay : Statement .tay := fun _ => ⟨_, rfl, rfl⟩

theorem txa : Statement .txa := fun _ => ⟨_, rfl, rfl⟩

theorem tya : Statement .tya := fun _ => ⟨_, rfl, rfl⟩

theorem tsx : Statement .tsx := fun _ => ⟨_, rfl, rfl⟩

theorem txs : Statement .txs := fun _ => ⟨_, rfl, rfl⟩

theorem ora (o : ReadMode) : Statement (.ora o) := fun h => by
  rcases o with _ | m
  · exact ⟨_, rfl, rfl⟩
  · cases m <;> first | exact ⟨_, rfl, rfl⟩ | cases h

theorem and (o : ReadMode) : Statement (.and o) := fun h => by
  rcases o with _ | m
  · exact ⟨_, rfl, rfl⟩
  · cases m <;> first | exact ⟨_, rfl, rfl⟩ | cases h

theorem eor (o : ReadMode) : Statement (.eor o) := fun h => by
  rcases o with _ | m
  · exact ⟨_, rfl, rfl⟩
  · cases m <;> first | exact ⟨_, rfl, rfl⟩ | cases h

theorem adc (o : ReadMode) : Statement (.adc o) := fun h => by
  rcases o with _ | m
  · exact ⟨_, rfl, rfl⟩
  · cases m <;> first | exact ⟨_, rfl, rfl⟩ | cases h

theorem sbc (o : ReadMode) : Statement (.sbc o) := fun h => by
  rcases o with _ | m
  · exact ⟨_, rfl, rfl⟩
  · cases m <;> first | exact ⟨_, rfl, rfl⟩ | cases h

theorem cmp (o : ReadMode) : Statement (.cmp o) := fun h => by
  rcases o with _ | m
  · exact ⟨_, rfl, rfl⟩
  · cases m <;> first | exact ⟨_, rfl, rfl⟩ | cases h

theorem cpx (o : ReadMode) : Statement (.cpx o) := fun h => by
  rcases o with _ | m
  · exact ⟨_, rfl, rfl⟩
  · cases m <;> first | exact ⟨_, rfl, rfl⟩ | cases h

theorem cpy (o : ReadMode) : Statement (.cpy o) := fun h => by
  rcases o with _ | m
  · exact ⟨_, rfl, rfl⟩
  · cases m <;> first | exact ⟨_, rfl, rfl⟩ | cases h

theorem bit (o : ReadMode) : Statement (.bit o) := fun h => by
  rcases o with _ | m
  · exact ⟨_, rfl, rfl⟩
  · cases m <;> first | exact ⟨_, rfl, rfl⟩ | cases h

theorem asl (o : RmwMode) : Statement (.asl o) := fun h => by
  rcases o with _ | m
  · exact ⟨_, rfl, rfl⟩
  · cases m <;> first | exact ⟨_, rfl, rfl⟩ | cases h

theorem lsr (o : RmwMode) : Statement (.lsr o) := fun h => by
  rcases o with _ | m
  · exact ⟨_, rfl, rfl⟩
  · cases m <;> first | exact ⟨_, rfl, rfl⟩ | cases h

theorem rol (o : RmwMode) : Statement (.rol o) := fun h => by
  rcases o with _ | m
  · exact ⟨_, rfl, rfl⟩
  · cases m <;> first | exact ⟨_, rfl, rfl⟩ | cases h

theorem ror (o : RmwMode) : Statement (.ror o) := fun h => by
  rcases o with _ | m
  · exact ⟨_, rfl, rfl⟩
  · cases m <;> first | exact ⟨_, rfl, rfl⟩ | cases h

theorem inc (o : RmwMode) : Statement (.inc o) := fun h => by
  rcases o with _ | m
  · exact ⟨_, rfl, rfl⟩
  · cases m <;> first | exact ⟨_, rfl, rfl⟩ | cases h

theorem dec (o : RmwMode) : Statement (.dec o) := fun h => by
  rcases o with _ | m
  · exact ⟨_, rfl, rfl⟩
  · cases m <;> first | exact ⟨_, rfl, rfl⟩ | cases h

theorem inx : Statement .inx := fun _ => ⟨_, rfl, rfl⟩

theorem iny : Statement .iny := fun _ => ⟨_, rfl, rfl⟩

theorem dex : Statement .dex := fun _ => ⟨_, rfl, rfl⟩

theorem dey : Statement .dey := fun _ => ⟨_, rfl, rfl⟩

theorem tsb (m : AddrMode) : Statement (.tsb m) := fun h => by
  cases m <;> first | exact ⟨_, rfl, rfl⟩ | cases h

theorem trb (m : AddrMode) : Statement (.trb m) := fun h => by
  cases m <;> first | exact ⟨_, rfl, rfl⟩ | cases h

theorem rmb0 : Statement .rmb0 := fun _ => ⟨_, rfl, rfl⟩

theorem rmb1 : Statement .rmb1 := fun _ => ⟨_, rfl, rfl⟩

theorem rmb2 : Statement .rmb2 := fun _ => ⟨_, rfl, rfl⟩

theorem rmb3 : Statement .rmb3 := fun _ => ⟨_, rfl, rfl⟩

theorem rmb4 : Statement .rmb4 := fun _ => ⟨_, rfl, rfl⟩

theorem rmb5 : Statement .rmb5 := fun _ => ⟨_, rfl, rfl⟩

theorem rmb6 : Statement .rmb6 := fun _ => ⟨_, rfl, rfl⟩

theorem rmb7 : Statement .rmb7 := fun _ => ⟨_, rfl, rfl⟩

theorem smb0 : Statement .smb0 := fun _ => ⟨_, rfl, rfl⟩

theorem smb1 : Statement .smb1 := fun _ => ⟨_, rfl, rfl⟩

theorem smb2 : Statement .smb2 := fun _ => ⟨_, rfl, rfl⟩

theorem smb3 : Statement .smb3 := fun _ => ⟨_, rfl, rfl⟩

theorem smb4 : Statement .smb4 := fun _ => ⟨_, rfl, rfl⟩

theorem smb5 : Statement .smb5 := fun _ => ⟨_, rfl, rfl⟩

theorem smb6 : Statement .smb6 := fun _ => ⟨_, rfl, rfl⟩

theorem smb7 : Statement .smb7 := fun _ => ⟨_, rfl, rfl⟩

theorem bpl : Statement .bpl := fun _ => ⟨_, rfl, rfl⟩

theorem bmi : Statement .bmi := fun _ => ⟨_, rfl, rfl⟩

theorem bvc : Statement .bvc := fun _ => ⟨_, rfl, rfl⟩

theorem bvs : Statement .bvs := fun _ => ⟨_, rfl, rfl⟩

theorem bcc : Statement .bcc := fun _ => ⟨_, rfl, rfl⟩

theorem bcs : Statement .bcs := fun _ => ⟨_, rfl, rfl⟩

theorem bne : Statement .bne := fun _ => ⟨_, rfl, rfl⟩

theorem beq : Statement .beq := fun _ => ⟨_, rfl, rfl⟩

theorem bra : Statement .bra := fun _ => ⟨_, rfl, rfl⟩

theorem bbr0 : Statement .bbr0 := fun _ => ⟨_, rfl, rfl⟩

theorem bbr1 : Statement .bbr1 := fun _ => ⟨_, rfl, rfl⟩

theorem bbr2 : Statement .bbr2 := fun _ => ⟨_, rfl, rfl⟩

theorem bbr3 : Statement .bbr3 := fun _ => ⟨_, rfl, rfl⟩

theorem bbr4 : Statement .bbr4 := fun _ => ⟨_, rfl, rfl⟩

theorem bbr5 : Statement .bbr5 := fun _ => ⟨_, rfl, rfl⟩

theorem bbr6 : Statement .bbr6 := fun _ => ⟨_, rfl, rfl⟩

theorem bbr7 : Statement .bbr7 := fun _ => ⟨_, rfl, rfl⟩

theorem bbs0 : Statement .bbs0 := fun _ => ⟨_, rfl, rfl⟩

theorem bbs1 : Statement .bbs1 := fun _ => ⟨_, rfl, rfl⟩

theorem bbs2 : Statement .bbs2 := fun _ => ⟨_, rfl, rfl⟩

theorem bbs3 : Statement .bbs3 := fun _ => ⟨_, rfl, rfl⟩

theorem bbs4 : Statement .bbs4 := fun _ => ⟨_, rfl, rfl⟩

theorem bbs5 : Statement .bbs5 := fun _ => ⟨_, rfl, rfl⟩

theorem bbs6 : Statement .bbs6 := fun _ => ⟨_, rfl, rfl⟩

theorem bbs7 : Statement .bbs7 := fun _ => ⟨_, rfl, rfl⟩

theorem jmp (m : JmpMode) : Statement (.jmp m) := fun _ => by
  cases m <;> exact ⟨_, rfl, rfl⟩

theorem jsr : Statement .jsr := fun _ => ⟨_, rfl, rfl⟩

theorem rts : Statement .rts := fun _ => ⟨_, rfl, rfl⟩

theorem pha : Statement .pha := fun _ => ⟨_, rfl, rfl⟩

theorem php : Statement .php := fun _ => ⟨_, rfl, rfl⟩

theorem phx : Statement .phx := fun _ => ⟨_, rfl, rfl⟩

theorem phy : Statement .phy := fun _ => ⟨_, rfl, rfl⟩

theorem pla : Statement .pla := fun _ => ⟨_, rfl, rfl⟩

theorem plp : Statement .plp := fun _ => ⟨_, rfl, rfl⟩

theorem plx : Statement .plx := fun _ => ⟨_, rfl, rfl⟩

theorem ply : Statement .ply := fun _ => ⟨_, rfl, rfl⟩

theorem clc : Statement .clc := fun _ => ⟨_, rfl, rfl⟩

theorem sec : Statement .sec := fun _ => ⟨_, rfl, rfl⟩

theorem cli : Statement .cli := fun _ => ⟨_, rfl, rfl⟩

theorem sei : Statement .sei := fun _ => ⟨_, rfl, rfl⟩

theorem clv : Statement .clv := fun _ => ⟨_, rfl, rfl⟩

theorem cld : Statement .cld := fun _ => ⟨_, rfl, rfl⟩

theorem sed : Statement .sed := fun _ => ⟨_, rfl, rfl⟩

theorem nop : Statement .nop := fun _ => ⟨_, rfl, rfl⟩

theorem brk : Statement .brk := fun _ => ⟨_, rfl, rfl⟩

theorem rti : Statement .rti := fun _ => ⟨_, rfl, rfl⟩

theorem wai : Statement .wai := fun _ => ⟨_, rfl, rfl⟩

theorem stp : Statement .stp := fun _ => ⟨_, rfl, rfl⟩

theorem reserved (opcode : Byte) : Statement (.reserved opcode) := fun h => by
  have listed : opcode ∈ reservedOpcodes := of_decide_eq_true h
  have selects : ∀ b ∈ reservedOpcodes, decodeOpcode b = .reserved b := by decide +kernel
  exact ⟨opcode, if_pos listed, selects opcode listed⟩

end Sys2Proof.Laws.OpcodeRoundTrip
end

