-- ==== Sys2Proof/Laws/Reset.lean ====
section
/-! SUPPORT. The memory of the reset state is canonical, and placing bytes, for a program or by the host, keeps every memory
canonical. -/

namespace Sys2Proof.Machine

theorem State.reset_devices_wf : ∀ d ∈ State.reset.devices, d.wf := by
  intro d hd
  obtain rfl : d = .fullRam [] := by simpa [State.reset] using hd
  exact ⟨List.Pairwise.nil, fun _ hc => by cases hc⟩

theorem State.reset_lines_wf : State.reset.lines.wf := Lines.created_wf

theorem Device.poke_wf {d : Device} (h : d.wf) (address : Word) (v : Byte) : (d.poke address v).wf := by
  unfold Device.poke
  split
  · next mem hb =>
    have hm : Memory.wf mem := by simpa [Device.wf, hb] using h
    exact Memory.write_wf mem _ v address.isLt hm
  · exact h

theorem pokeLast_wf {address : Word} {v : Byte} {ds ds' : List Device} (h : ∀ d ∈ ds, d.wf)
    (hp : pokeLast address v ds = some ds') : ∀ d ∈ ds', d.wf := by
  induction ds generalizing ds' with
  | nil => cases hp
  | cons d rest ih =>
    have hd := h d List.mem_cons_self
    have hr : ∀ e ∈ rest, e.wf := fun e he => h e (List.mem_cons_of_mem _ he)
    simp only [pokeLast] at hp
    split at hp
    · next rest' hq =>
      cases hp
      exact List.forall_mem_cons.mpr ⟨hd, ih hr hq⟩
    · split at hp
      · cases hp
        exact List.forall_mem_cons.mpr ⟨Device.poke_wf hd address v, hr⟩
      · cases hp

theorem State.poke_wf {st : State} (h : ∀ d ∈ st.devices, d.wf) (address : Word) (v : Byte) :
    ∀ d ∈ (st.poke address v).devices, d.wf := by
  unfold State.poke
  split
  · next ds hp => exact pokeLast_wf h hp
  · intro d hd
    rcases List.mem_append.mp hd with hd | hd
    · exact h d hd
    · rw [List.mem_singleton.mp hd]
      have empty : (Device.mk address.toNat 1 (.ram [])).wf := ⟨List.Pairwise.nil, fun _ hc => by cases hc⟩
      exact Device.poke_wf empty address v

theorem State.withFetchWord_wf {st : State} (h : ∀ d ∈ st.devices, d.wf) (nbits w : Nat) :
    ∀ d ∈ (st.withFetchWord nbits w).devices, d.wf := State.poke_wf (State.poke_wf (State.poke_wf h _ _) _ _) _ _

end Sys2Proof.Machine
end

