-- ==== Sys2Proof/Tests/Slice0.lean ====
section
/-! SUPPORT. Tests: ill-formed terms are refused, words of the spec's encodings decode, one cycle of each instruction against
the vectors of 95_test_vectors.md ("V", "S" and the tables of section 2), and a witness for the hypotheses of each statement. -/

namespace Sys2Proof.Tests

open Sys2Proof.Machine

/-! ## WellFormed refuses -/

/-- 42_alu.md: no `zp,Y` among the nine forms. -/
theorem test_ill_formed_nine_forms :
    Instr.wf (.lda (.mem .zpy)) = false ∧ Instr.wf (.ora (.mem .zpy)) = false ∧ Instr.wf (.and (.mem .zpy)) = false ∧ Instr.wf (.eor (.mem .zpy)) = false ∧ Instr.wf (.adc (.mem .zpy)) = false ∧ Instr.wf (.sbc (.mem .zpy)) = false ∧ Instr.wf (.cmp (.mem .zpy)) = false := by decide

/-- 30_encoding.md R73: the forms `LDX` and `LDY` do not have. -/
theorem test_ill_formed_ldx_ldy :
    Instr.wf (.ldx (.mem .zpx)) = false ∧ Instr.wf (.ldx (.mem .abx)) = false ∧ Instr.wf (.ldy (.mem .zpy)) = false ∧ Instr.wf (.ldy (.mem .izy)) = false := by decide

/-- R73. -/
theorem test_ill_formed_cpx_cpy_bit :
    Instr.wf (.cpx (.mem .zpx)) = false ∧ Instr.wf (.cpy (.mem .abx)) = false ∧ Instr.wf (.bit (.mem .aby)) = false ∧ Instr.wf (.bit (.mem .izp)) = false := by decide

/-- R73. -/
theorem test_ill_formed_stores :
    Instr.wf (.sta .zpy) = false ∧ Instr.wf (.stx .zpx) = false ∧ Instr.wf (.sty .abx) = false ∧ Instr.wf (.stz .izp) = false := by decide

/-- R73. -/
theorem test_ill_formed_shifts_and_counts :
    Instr.wf (.asl (.mem .aby)) = false ∧ Instr.wf (.lsr (.mem .izx)) = false ∧ Instr.wf (.rol (.mem .zpy)) = false ∧ Instr.wf (.ror (.mem .izy)) = false ∧ Instr.wf (.inc (.mem .aby)) = false ∧ Instr.wf (.dec (.mem .izp)) = false := by decide

/-- R73. -/
theorem test_ill_formed_test_bits : Instr.wf (.tsb .zpx) = false ∧ Instr.wf (.trb .abx) = false := by decide

/-- R75: `$EA` and `$CB` are documented opcodes. -/
theorem test_ill_formed_reserved : Instr.wf (.reserved 0xEA) = false ∧ Instr.wf (.reserved 0xCB) = false := by decide

/-- R76: the number of operand bytes is the mode's. -/
theorem test_ill_formed_operand_bytes :
    Asm.wf ⟨.nop, .one 0⟩ = false ∧ Asm.wf ⟨.lda .imm, .two 0 0⟩ = false ∧ Asm.wf ⟨.jsr, .one 0⟩ = false ∧ Asm.wf ⟨.bbs7, .none⟩ = false := by decide

/-! ## Decoding: words written out from the matrix of 30_encoding.md R73 -/

/-- The bytes decode to the instruction, with nothing left, and the instruction encodes to them. -/
def decodesTo (bytes : List Byte) (a : Asm) : Bool :=
  (match decode bytes with
    | .ok (b, rest) => decide (b = a) && rest.isEmpty
    | .error _ => false) && decide (encode a = some bytes)

/-- Each pair decodes. -/
def allDecode (words : List (List Byte × Asm)) : Bool := words.all fun w => decodesTo w.1 w.2

theorem test_decode_loads :
    allDecode
      [([0xA9, 0x42], ⟨.lda .imm, .one 0x42⟩),
       ([0xBD, 0xF8, 0x20], ⟨.lda (.mem .abx), .two 0xF8 0x20⟩),
       ([0xB1, 0xFF], ⟨.lda (.mem .izy), .one 0xFF⟩),
       ([0xB6, 0xFF], ⟨.ldx (.mem .zpy), .one 0xFF⟩),
       ([0xBC, 0xFF, 0xFF], ⟨.ldy (.mem .abx), .two 0xFF 0xFF⟩)] = true := by decide

theorem test_decode_stores :
    allDecode
      [([0x9D, 0xF8, 0x20], ⟨.sta .abx, .two 0xF8 0x20⟩),
       ([0x81, 0x20], ⟨.sta .izx, .one 0x20⟩),
       ([0x92, 0x20], ⟨.sta .izp, .one 0x20⟩),
       ([0x96, 0xF0], ⟨.stx .zpy, .one 0xF0⟩),
       ([0x94, 0xF0], ⟨.sty .zpx, .one 0xF0⟩),
       ([0x9C, 0x00, 0x30], ⟨.stz .abs, .two 0x00 0x30⟩)] = true := by decide

theorem test_decode_transfers :
    allDecode
      [([0xAA], ⟨.tax, .none⟩),
       ([0xA8], ⟨.tay, .none⟩),
       ([0x8A], ⟨.txa, .none⟩),
       ([0x98], ⟨.tya, .none⟩),
       ([0xBA], ⟨.tsx, .none⟩),
       ([0x9A], ⟨.txs, .none⟩)] = true := by decide

theorem test_decode_alu :
    allDecode
      [([0x09, 0xF0], ⟨.ora .imm, .one 0xF0⟩),
       ([0x29, 0x55], ⟨.and .imm, .one 0x55⟩),
       ([0x49, 0xFF], ⟨.eor .imm, .one 0xFF⟩),
       ([0x69, 0x01], ⟨.adc .imm, .one 0x01⟩),
       ([0xE9, 0x01], ⟨.sbc .imm, .one 0x01⟩),
       ([0xD2, 0x10], ⟨.cmp (.mem .izp), .one 0x10⟩),
       ([0xEC, 0x34, 0x12], ⟨.cpx (.mem .abs), .two 0x34 0x12⟩),
       ([0xC4, 0x10], ⟨.cpy (.mem .zp), .one 0x10⟩),
       ([0x24, 0x10], ⟨.bit (.mem .zp), .one 0x10⟩),
       ([0x89, 0xC0], ⟨.bit .imm, .one 0xC0⟩)] = true := by decide

theorem test_decode_shifts_and_counts :
    allDecode
      [([0x0A], ⟨.asl .acc, .none⟩),
       ([0x1E, 0xF8, 0x20], ⟨.asl (.mem .abx), .two 0xF8 0x20⟩),
       ([0x4A], ⟨.lsr .acc, .none⟩),
       ([0x2A], ⟨.rol .acc, .none⟩),
       ([0x66, 0x10], ⟨.ror (.mem .zp), .one 0x10⟩),
       ([0xFE, 0x00, 0x20], ⟨.inc (.mem .abx), .two 0x00 0x20⟩),
       ([0x1A], ⟨.inc .acc, .none⟩),
       ([0x3A], ⟨.dec .acc, .none⟩),
       ([0xE8], ⟨.inx, .none⟩),
       ([0xC8], ⟨.iny, .none⟩),
       ([0xCA], ⟨.dex, .none⟩),
       ([0x88], ⟨.dey, .none⟩),
       ([0x04, 0x20], ⟨.tsb .zp, .one 0x20⟩),
       ([0x14, 0x20], ⟨.trb .zp, .one 0x20⟩)] = true := by decide

theorem test_decode_memory_bits :
    allDecode
      [([0x07, 0x12], ⟨.rmb0, .one 0x12⟩),
       ([0x17, 0x12], ⟨.rmb1, .one 0x12⟩),
       ([0x27, 0x12], ⟨.rmb2, .one 0x12⟩),
       ([0x37, 0x12], ⟨.rmb3, .one 0x12⟩),
       ([0x47, 0x12], ⟨.rmb4, .one 0x12⟩),
       ([0x57, 0x12], ⟨.rmb5, .one 0x12⟩),
       ([0x67, 0x12], ⟨.rmb6, .one 0x12⟩),
       ([0x77, 0x12], ⟨.rmb7, .one 0x12⟩),
       ([0x87, 0x12], ⟨.smb0, .one 0x12⟩),
       ([0x97, 0x12], ⟨.smb1, .one 0x12⟩),
       ([0xA7, 0x12], ⟨.smb2, .one 0x12⟩),
       ([0xB7, 0x12], ⟨.smb3, .one 0x12⟩),
       ([0xC7, 0x12], ⟨.smb4, .one 0x12⟩),
       ([0xD7, 0x12], ⟨.smb5, .one 0x12⟩),
       ([0xE7, 0x12], ⟨.smb6, .one 0x12⟩),
       ([0xF7, 0x12], ⟨.smb7, .one 0x12⟩)] = true := by decide

theorem test_decode_branches_on_bit :
    allDecode
      [([0x0F, 0x10, 0x04], ⟨.bbr0, .two 0x10 0x04⟩),
       ([0x1F, 0x10, 0x04], ⟨.bbr1, .two 0x10 0x04⟩),
       ([0x2F, 0x10, 0x04], ⟨.bbr2, .two 0x10 0x04⟩),
       ([0x3F, 0x10, 0x04], ⟨.bbr3, .two 0x10 0x04⟩),
       ([0x4F, 0x10, 0x04], ⟨.bbr4, .two 0x10 0x04⟩),
       ([0x5F, 0x10, 0x04], ⟨.bbr5, .two 0x10 0x04⟩),
       ([0x6F, 0x10, 0x04], ⟨.bbr6, .two 0x10 0x04⟩),
       ([0x7F, 0x10, 0x04], ⟨.bbr7, .two 0x10 0x04⟩),
       ([0x8F, 0x10, 0x04], ⟨.bbs0, .two 0x10 0x04⟩),
       ([0x9F, 0x10, 0x04], ⟨.bbs1, .two 0x10 0x04⟩),
       ([0xAF, 0x10, 0x04], ⟨.bbs2, .two 0x10 0x04⟩),
       ([0xBF, 0x10, 0x04], ⟨.bbs3, .two 0x10 0x04⟩),
       ([0xCF, 0x10, 0x04], ⟨.bbs4, .two 0x10 0x04⟩),
       ([0xDF, 0x10, 0x04], ⟨.bbs5, .two 0x10 0x04⟩),
       ([0xEF, 0x10, 0x04], ⟨.bbs6, .two 0x10 0x04⟩),
       ([0xFF, 0x10, 0x04], ⟨.bbs7, .two 0x10 0x04⟩)] = true := by decide

theorem test_decode_branches :
    allDecode
      [([0x10, 0x02], ⟨.bpl, .one 0x02⟩),
       ([0x30, 0x02], ⟨.bmi, .one 0x02⟩),
       ([0x50, 0x02], ⟨.bvc, .one 0x02⟩),
       ([0x70, 0x80], ⟨.bvs, .one 0x80⟩),
       ([0x90, 0x02], ⟨.bcc, .one 0x02⟩),
       ([0xB0, 0x02], ⟨.bcs, .one 0x02⟩),
       ([0xD0, 0xFE], ⟨.bne, .one 0xFE⟩),
       ([0xF0, 0x10], ⟨.beq, .one 0x10⟩),
       ([0x80, 0xFE], ⟨.bra, .one 0xFE⟩)] = true := by decide

theorem test_decode_jumps :
    allDecode
      [([0x4C, 0x00, 0x80], ⟨.jmp .abs, .two 0x00 0x80⟩),
       ([0x6C, 0xFF, 0x12], ⟨.jmp .ind, .two 0xFF 0x12⟩),
       ([0x7C, 0x00, 0x30], ⟨.jmp .iax, .two 0x00 0x30⟩),
       ([0x20, 0x00, 0x90], ⟨.jsr, .two 0x00 0x90⟩),
       ([0x60], ⟨.rts, .none⟩)] = true := by decide

theorem test_decode_stack :
    allDecode
      [([0x48], ⟨.pha, .none⟩),
       ([0x08], ⟨.php, .none⟩),
       ([0xDA], ⟨.phx, .none⟩),
       ([0x5A], ⟨.phy, .none⟩),
       ([0x68], ⟨.pla, .none⟩),
       ([0x28], ⟨.plp, .none⟩),
       ([0xFA], ⟨.plx, .none⟩),
       ([0x7A], ⟨.ply, .none⟩)] = true := by decide

theorem test_decode_flags_and_system :
    allDecode
      [([0x18], ⟨.clc, .none⟩),
       ([0x38], ⟨.sec, .none⟩),
       ([0x58], ⟨.cli, .none⟩),
       ([0x78], ⟨.sei, .none⟩),
       ([0xB8], ⟨.clv, .none⟩),
       ([0xD8], ⟨.cld, .none⟩),
       ([0xF8], ⟨.sed, .none⟩),
       ([0xEA], ⟨.nop, .none⟩),
       ([0x00], ⟨.brk, .none⟩),
       ([0x40], ⟨.rti, .none⟩),
       ([0xCB], ⟨.wai, .none⟩),
       ([0xDB], ⟨.stp, .none⟩)] = true := by decide

theorem test_decode_reserved :
    allDecode
      [([0x02], ⟨.reserved 0x02, .none⟩),
       ([0xFB], ⟨.reserved 0xFB, .none⟩),
       ([0xDC], ⟨.reserved 0xDC, .none⟩)] = true := by decide

/-! ## One cycle of each instruction -/

/-- The start state of 95_test_vectors.md section 0 at cycle Tk of a handler, `PC` at `$0201`. -/
def at_ (k : Nat) (mem : Memory) : State :=
  { State.reset with s := 0xFF, p := ⟨false, false, false, false, false, false⟩, pc := 0x0201,
                     stepReg := .executing (k - 1), devices := [.fullRam mem] }

/-- The result is a next state with a property. -/
def isNext (r : Result) (holds : State → Bool) : Bool :=
  match r with
  | .next t => holds t
  | _ => false

/-- The byte of RAM at an address. -/
def ram (st : State) (address : Word) : Byte := (st.ramByte 0 address).getD 0

/-- S8. -/
theorem test_lda :
    isNext (exec (.lda .imm) (at_ 2 [(0x201, 0x42)]))
      (fun t => t.a == 0x42 && t.pc == 0x0202 && t.stepReg == .awaitFetch && t.p.n == false && t.p.z == false) = true := by decide

/-- V3 (the data read, after a fix-up cycle). -/
theorem test_lda_last_cycle :
    isNext (exec (.lda (.mem .abx)) (((at_ 5 [(0x2010, 0x80)]).setEA 0x2010).setLoc ⟨0, 0, 0, 0, 0, true, false⟩))
      (fun t => t.a == 0x80 && t.p.n == true && t.p.z == false) = true := by decide

/-- V17, the data cycle. -/
theorem test_ldx :
    isNext (exec (.ldx (.mem .zpy)) ((at_ 4 [(0x1, 0x80)]).setEA 0x0001))
      (fun t => t.x == 0x80 && t.p.n == true && t.p.z == false) = true := by decide

/-- R142; V18 for the flags of zero. -/
theorem test_ldy :
    isNext (exec (.ldy (.mem .zp)) (((at_ 3 []).setY 0x77).setEA 0x0010))
      (fun t => t.y == 0x00 && t.p.n == false && t.p.z == true) = true := by decide

/-- V6, the discarded read and the index. -/
theorem test_zpx_wraps :
    isNext (exec (.and (.mem .zpx)) (((at_ 3 []).setX 0x20).setEA 0x00F0))
      (fun t => t.ea == 0x0010 && t.bus.address == 0x00F0) = true := by decide

/-- V2, the fix-up cycle. -/
theorem test_fixup_address :
    isNext (exec (.ora (.mem .abx)) (((at_ 4 []).setX 0x10).setLoc ⟨0xF8, 0x20, 0, 0, 0, true, false⟩))
      (fun t => t.bus.address == 0x2008 && t.stepReg == .executing 4) = true := by decide

/-- V4, the pointer's high byte from `$0000`. -/
theorem test_izy_pointer_wraps :
    isNext (exec (.eor (.mem .izy)) ((((at_ 4 [(0x0, 0x20)]).setIAB 0xFF).setY 0x01).setLoc ⟨0xFF, 0, 0, 0, 0, false, false⟩))
      (fun t => t.ea == 0x2100 && t.loc.crossed == true) = true := by decide

/-- V15. -/
theorem test_sta :
    isNext (exec (.sta .izp) (((at_ 5 []).setA 0x99).setEA 0x4000))
      (fun t => ram t 0x4000 == 0x99 && t.bus.readWrite == false && t.stepReg == .awaitFetch) = true := by decide

/-- V10. -/
theorem test_stx :
    isNext (exec (.stx .zp) (((at_ 3 []).setX 0x77).setEA 0x0010))
      (fun t => ram t 0x0010 == 0x77) = true := by decide

/-- V11. -/
theorem test_sty :
    isNext (exec (.sty .zpx) (((at_ 4 []).setY 0x66).setEA 0x0010))
      (fun t => ram t 0x0010 == 0x66) = true := by decide

/-- V13. -/
theorem test_stz :
    isNext (exec (.stz .abs) ((at_ 4 [(0x3000, 0xAA)]).setEA 0x3000))
      (fun t => ram t 0x3000 == 0x00 && t.p.z == false) = true := by decide

/-- V19. -/
theorem test_tax :
    isNext (exec (.tax) ((at_ 2 []).setA 0x80))
      (fun t => t.x == 0x80 && t.p.n == true && t.p.z == false) = true := by decide

/-- V20. -/
theorem test_tay :
    isNext (exec (.tay) ((at_ 2 []).setY 0x55))
      (fun t => t.y == 0x00 && t.p.n == false && t.p.z == true) = true := by decide

/-- V21. -/
theorem test_txa :
    isNext (exec (.txa) (((at_ 2 []).setX 0x7F).setA 0xFF))
      (fun t => t.a == 0x7F && t.p.n == false && t.p.z == false) = true := by decide

/-- V22. -/
theorem test_tya :
    isNext (exec (.tya) ((at_ 2 []).setY 0xFF))
      (fun t => t.a == 0xFF && t.p.n == true && t.p.z == false) = true := by decide

/-- V23. -/
theorem test_tsx :
    isNext (exec (.tsx) (at_ 2 []))
      (fun t => t.x == 0xFF && t.p.n == true && t.p.z == false) = true := by decide

/-- V24. -/
theorem test_txs :
    isNext (exec (.txs) (at_ 2 []))
      (fun t => t.s == 0x00 && t.p.n == false && t.p.z == false) = true := by decide

/-- Section 2.2, logic. -/
theorem test_ora :
    isNext (exec (.ora .imm) ((at_ 2 [(0x201, 0xF0)]).setA 0x0F))
      (fun t => t.a == 0xFF && t.p.n == true && t.p.z == false) = true := by decide

/-- Section 2.2, logic. -/
theorem test_and :
    isNext (exec (.and .imm) ((at_ 2 [(0x201, 0x55)]).setA 0xAA))
      (fun t => t.a == 0x00 && t.p.n == false && t.p.z == true) = true := by decide

/-- Section 2.2, logic. -/
theorem test_eor :
    isNext (exec (.eor .imm) ((at_ 2 [(0x201, 0x55)]).setA 0xAA))
      (fun t => t.a == 0xFF && t.p.n == true && t.p.z == false) = true := by decide

/-- Section 2.2, `ADC`: `$3F + $40 + 1`. -/
theorem test_adc :
    isNext (exec (.adc .imm) (((at_ 2 [(0x201, 0x40)]).setA 0x3F).setP ⟨false, false, false, false, false, true⟩))
      (fun t => t.a == 0x80 && t.p.n == true && t.p.v == true && t.p.z == false && t.p.c == false) = true := by decide

/-- Section 2.2, `ADC`: `$80 + $FF`. -/
theorem test_adc_carry :
    isNext (exec (.adc .imm) (((at_ 2 [(0x201, 0xFF)]).setA 0x80)))
      (fun t => t.a == 0x7F && t.p.n == false && t.p.v == true && t.p.z == false && t.p.c == true) = true := by decide

/-- Section 2.2, `SBC`: `$80 - $01`. -/
theorem test_sbc :
    isNext (exec (.sbc .imm) (((at_ 2 [(0x201, 0x01)]).setA 0x80).setP ⟨false, false, false, false, false, true⟩))
      (fun t => t.a == 0x7F && t.p.n == false && t.p.v == true && t.p.z == false && t.p.c == true) = true := by decide

/-- Section 2.2, `SBC`: `$05 - $05` with a borrow pending. -/
theorem test_sbc_borrow :
    isNext (exec (.sbc .imm) (((at_ 2 [(0x201, 0x05)]).setA 0x05)))
      (fun t => t.a == 0xFF && t.p.n == true && t.p.v == false && t.p.z == false && t.p.c == false) = true := by decide

/-- V74. -/
theorem test_adc_decimal_refused :
    (match exec (.adc .imm) ((at_ 2 [(0x201, 0x01)]).setP ⟨false, false, true, false, false, false⟩) with
      | .refused (.decimalUnmodelled left) => left.a == 0x00
      | _ => false) = true := by decide

/-- Section 2.2, compare: less; V unchanged. -/
theorem test_cmp :
    isNext (exec (.cmp .imm) (((at_ 2 [(0x201, 0x40)]).setA 0x3F).setP ⟨false, true, false, false, false, true⟩))
      (fun t => t.a == 0x3F && t.p.n == true && t.p.v == true && t.p.z == false && t.p.c == false) = true := by decide

/-- Section 2.2, compare: `$80` against `$7F`. -/
theorem test_cmp_unsigned :
    isNext (exec (.cmp .imm) (((at_ 2 [(0x201, 0x7F)]).setA 0x80)))
      (fun t => t.p.n == false && t.p.v == false && t.p.z == false && t.p.c == true) = true := by decide

/-- Section 2.2, compare: equal. -/
theorem test_cpx :
    isNext (exec (.cpx .imm) (((at_ 2 [(0x201, 0x40)]).setX 0x40)))
      (fun t => t.p.n == false && t.p.v == false && t.p.z == true && t.p.c == true) = true := by decide

/-- Section 2.2, compare: `$FF` against `$00`. -/
theorem test_cpy :
    isNext (exec (.cpy .imm) (((at_ 2 [(0x201, 0x00)]).setY 0xFF)))
      (fun t => t.p.n == true && t.p.v == false && t.p.z == false && t.p.c == true) = true := by decide

/-- Section 2.2, `BIT`. -/
theorem test_bit :
    isNext (exec (.bit (.mem .zp)) (((at_ 3 [(0x10, 0xC0)]).setA 0x01).setEA 0x0010))
      (fun t => t.a == 0x01 && t.p.n == true && t.p.v == true && t.p.z == true && t.p.c == false) = true := by decide

/-- Section 2.2: `BIT #` writes Z only. -/
theorem test_bit_imm :
    isNext (exec (.bit .imm) ((at_ 2 [(0x201, 0xC0)]).setA 0x01))
      (fun t => t.p.n == false && t.p.v == false && t.p.z == true && t.p.c == false) = true := by decide

/-- Section 2.3. -/
theorem test_asl_a :
    isNext (exec (.asl .acc) (((at_ 2 []).setA 0x80)))
      (fun t => t.a == 0x00 && t.p.n == false && t.p.z == true && t.p.c == true) = true := by decide

/-- Section 2.3. -/
theorem test_lsr_a :
    isNext (exec (.lsr .acc) (((at_ 2 []).setA 0x55).setP ⟨false, false, false, false, false, true⟩))
      (fun t => t.a == 0x2A && t.p.n == false && t.p.z == false && t.p.c == true) = true := by decide

/-- Section 2.3. -/
theorem test_rol_a :
    isNext (exec (.rol .acc) (((at_ 2 []).setA 0x80).setP ⟨false, false, false, false, false, true⟩))
      (fun t => t.a == 0x01 && t.p.n == false && t.p.z == false && t.p.c == true) = true := by decide

/-- Section 2.3. -/
theorem test_ror_a :
    isNext (exec (.ror .acc) (((at_ 2 []).setA 0x80).setP ⟨false, false, false, false, false, true⟩))
      (fun t => t.a == 0xC0 && t.p.n == true && t.p.z == false && t.p.c == false) = true := by decide

/-- V31, the second read of the tail. -/
theorem test_asl_mem :
    isNext (exec (.asl (.mem .zp)) (((at_ 4 [(0x10, 0x81)]).setEA 0x0010).setTMP 0x81))
      (fun t => t.tmp == 0x02 && ram t 0x0010 == 0x81 && t.bus.address == 0x0010 && t.p.n == false && t.p.z == false && t.p.c == true) = true := by decide

/-- V33. -/
theorem test_ror_mem :
    isNext (exec (.ror (.mem .zp)) ((((at_ 4 [(0x10, 0x01)]).setEA 0x0010).setTMP 0x01).setP ⟨false, false, false, false, false, true⟩))
      (fun t => t.tmp == 0x80 && t.p.n == true && t.p.z == false && t.p.c == true) = true := by decide

/-- V30, the write. -/
theorem test_inc_mem :
    isNext (exec (.inc (.mem .zp)) ((((at_ 5 [(0x10, 0x7F)]).setEA 0x0010).setTMP 0x80)))
      (fun t => ram t 0x0010 == 0x80 && t.stepReg == .awaitFetch) = true := by decide

/-- V32: the fix-up cycle without a page cross. -/
theorem test_inc_always_fixes :
    isNext (exec (.inc (.mem .abx)) (((at_ 4 []).setX 0x01).setLoc ⟨0x00, 0x20, 0, 0, 0, false, false⟩))
      (fun t => t.bus.address == 0x2001 && t.stepReg == .executing 4) = true := by decide

/-- Section 2.3: C unchanged. -/
theorem test_inc_a :
    isNext (exec (.inc .acc) (((at_ 2 []).setA 0xFF).setP ⟨false, false, false, false, false, true⟩))
      (fun t => t.a == 0x00 && t.p.n == false && t.p.z == true && t.p.c == true) = true := by decide

/-- Section 2.3. -/
theorem test_dec_a :
    isNext (exec (.dec .acc) (at_ 2 []))
      (fun t => t.a == 0xFF && t.p.n == true && t.p.z == false && t.p.c == false) = true := by decide

/-- Section 2.3. -/
theorem test_dec_mem :
    isNext (exec (.dec (.mem .zp)) (((at_ 4 []).setEA 0x0010).setTMP 0x01))
      (fun t => t.tmp == 0x00 && t.p.n == false && t.p.z == true && t.p.c == false) = true := by decide

/-- Section 2.3. -/
theorem test_inx :
    isNext (exec (.inx) ((at_ 2 []).setX 0x7F))
      (fun t => t.x == 0x80 && t.p.n == true && t.p.z == false) = true := by decide

/-- Section 2.3. -/
theorem test_iny :
    isNext (exec (.iny) ((at_ 2 []).setY 0xFF))
      (fun t => t.y == 0x00 && t.p.n == false && t.p.z == true) = true := by decide

/-- Section 2.3. -/
theorem test_dex :
    isNext (exec (.dex) (at_ 2 []))
      (fun t => t.x == 0xFF && t.p.n == true && t.p.z == false) = true := by decide

/-- Section 2.3. -/
theorem test_dey :
    isNext (exec (.dey) ((at_ 2 []).setY 0x01))
      (fun t => t.y == 0x00 && t.p.n == false && t.p.z == true) = true := by decide

/-- V34. -/
theorem test_tsb :
    isNext (exec (.tsb .zp) ((((at_ 4 []).setA 0x0F).setTMP 0xF0)))
      (fun t => t.tmp == 0xFF && t.a == 0x0F && t.p.n == false && t.p.z == true && t.p.c == false) = true := by decide

/-- V35. -/
theorem test_trb :
    isNext (exec (.trb .zp) ((((at_ 4 []).setA 0x0F).setTMP 0x3C)))
      (fun t => t.tmp == 0x30 && t.p.n == false && t.p.z == false && t.p.c == false) = true := by decide

/-- V36. -/
theorem test_rmb3 :
    isNext (exec (.rmb3) ((at_ 4 []).setTMP 0xFF))
      (fun t => t.tmp == 0xF7 && t.p.n == false && t.p.z == false && t.p.c == false) = true := by decide

/-- V37. -/
theorem test_smb7 :
    isNext (exec (.smb7) ((at_ 4 []).setTMP 0x00))
      (fun t => t.tmp == 0x80 && t.p.n == false && t.p.z == false && t.p.c == false) = true := by decide

/-- 44_control.md R195 to R203, the condition at T2. -/
theorem test_bpl_condition :
    isNext (exec .bpl ((at_ 2 []).setP ⟨false, true, true, true, true, true⟩)) (fun t => t.loc.taken) = true
      ∧ isNext (exec .bpl ((at_ 2 []).setP ⟨true, false, false, false, false, false⟩)) (fun t => !t.loc.taken) = true := by decide

/-- 44_control.md R195 to R203, the condition at T2. -/
theorem test_bmi_condition :
    isNext (exec .bmi ((at_ 2 []).setP ⟨true, false, false, false, false, false⟩)) (fun t => t.loc.taken) = true
      ∧ isNext (exec .bmi ((at_ 2 []).setP ⟨false, true, true, true, true, true⟩)) (fun t => !t.loc.taken) = true := by decide

/-- 44_control.md R195 to R203, the condition at T2. -/
theorem test_bvc_condition :
    isNext (exec .bvc ((at_ 2 []).setP ⟨true, false, true, true, true, true⟩)) (fun t => t.loc.taken) = true
      ∧ isNext (exec .bvc ((at_ 2 []).setP ⟨false, true, false, false, false, false⟩)) (fun t => !t.loc.taken) = true := by decide

/-- 44_control.md R195 to R203, the condition at T2. -/
theorem test_bvs_condition :
    isNext (exec .bvs ((at_ 2 []).setP ⟨false, true, false, false, false, false⟩)) (fun t => t.loc.taken) = true
      ∧ isNext (exec .bvs ((at_ 2 []).setP ⟨true, false, true, true, true, true⟩)) (fun t => !t.loc.taken) = true := by decide

/-- 44_control.md R195 to R203, the condition at T2. -/
theorem test_bcc_condition :
    isNext (exec .bcc ((at_ 2 []).setP ⟨true, true, true, true, true, false⟩)) (fun t => t.loc.taken) = true
      ∧ isNext (exec .bcc ((at_ 2 []).setP ⟨false, false, false, false, false, true⟩)) (fun t => !t.loc.taken) = true := by decide

/-- 44_control.md R195 to R203, the condition at T2. -/
theorem test_bcs_condition :
    isNext (exec .bcs ((at_ 2 []).setP ⟨false, false, false, false, false, true⟩)) (fun t => t.loc.taken) = true
      ∧ isNext (exec .bcs ((at_ 2 []).setP ⟨true, true, true, true, true, false⟩)) (fun t => !t.loc.taken) = true := by decide

/-- 44_control.md R195 to R203, the condition at T2. -/
theorem test_bne_condition :
    isNext (exec .bne ((at_ 2 []).setP ⟨true, true, true, true, false, true⟩)) (fun t => t.loc.taken) = true
      ∧ isNext (exec .bne ((at_ 2 []).setP ⟨false, false, false, false, true, false⟩)) (fun t => !t.loc.taken) = true := by decide

/-- 44_control.md R195 to R203, the condition at T2. -/
theorem test_beq_condition :
    isNext (exec .beq ((at_ 2 []).setP ⟨false, false, false, false, true, false⟩)) (fun t => t.loc.taken) = true
      ∧ isNext (exec .beq ((at_ 2 []).setP ⟨true, true, true, true, false, true⟩)) (fun t => !t.loc.taken) = true := by decide

/-- V44. -/
theorem test_bra :
    isNext (exec (.bra) (((at_ 3 []).setPC 0x0202).setLoc ⟨0, 0, 0xFE, 0, 0, false, true⟩))
      (fun t => t.pc == 0x0200 && t.stepReg == .awaitFetch && t.bus.address == 0x0202) = true := by decide

/-- V43, T3. -/
theorem test_branch_backward_across_a_page :
    isNext (exec (.bvs) (((at_ 3 []).setPC 0x0302).setLoc ⟨0, 0, 0x80, 0, 0, false, true⟩))
      (fun t => t.pc == 0x0282 && t.stepReg == .executing 3) = true := by decide

/-- V42, cycle 3. -/
theorem test_branch_prefetch :
    isNext (exec (.beq) (((at_ 3 [(0x202, 0xA9)]).setPC 0x0202).setLoc ⟨0, 0, 0x10, 0, 0, false, false⟩))
      (fun t => t.pc == 0x0202 && t.ir == .opcode 0xA9 && t.bus.sync == true && t.stepReg == .awaitPipelinedFetch) = true := by decide

/-- V41, cycle 4. -/
theorem test_branch_fixup_address :
    isNext (exec (.beq) (((at_ 4 []).setPC 0x0301).setLoc ⟨0, 0, 2, 0x02FF, 0, true, true⟩))
      (fun t => t.bus.address == 0x0201 && t.pc == 0x0301 && t.stepReg == .awaitFetch) = true := by decide

/-- V45. -/
theorem test_bbr0_taken :
    isNext (exec (.bbr0) (((at_ 5 [(0x502, 0x04)]).setPC 0x0502).setTMP 0xFE))
      (fun t => t.pc == 0x0507 && t.stepReg == .awaitFetch) = true := by decide

/-- V46. -/
theorem test_bbs0_not_taken :
    isNext (exec (.bbs0) (((at_ 5 [(0x502, 0x04)]).setPC 0x0502).setTMP 0xFE))
      (fun t => t.pc == 0x0503 && t.stepReg == .awaitFetch) = true := by decide

/-- V47, T5. -/
theorem test_bbs7_crosses :
    isNext (exec (.bbs7) (((at_ 5 [(0x5F2, 0x20)]).setPC 0x05F2).setTMP 0x80))
      (fun t => t.pc == 0x0613 && t.stepReg == .executing 5) = true := by decide

/-- V48. -/
theorem test_jmp :
    isNext (exec (.jmp .abs) (((at_ 3 [(0x202, 0x80)]).setPC 0x0202).setLoc ⟨0x00, 0, 0, 0, 0, false, false⟩))
      (fun t => t.pc == 0x8000) = true := by decide

/-- V49: the pointer's high byte at `$1300`. -/
theorem test_jmp_indirect_carries :
    isNext (exec (.jmp .ind) ((at_ 6 [(0x1300, 0x56)]).setLoc ⟨0x34, 0x12, 0, 0, 0x12FF, false, false⟩))
      (fun t => t.pc == 0x5634) = true := by decide

/-- V51, cycle 4. -/
theorem test_jsr :
    isNext (exec (.jsr) (((at_ 4 []).setPC 0x0302)))
      (fun t => ram t 0x01FF == 0x03 && t.s == 0xFE) = true := by decide

/-- V51, the last cycle. -/
theorem test_rts :
    isNext (exec (.rts) ((at_ 6 []).setPC 0x0302))
      (fun t => t.pc == 0x0303 && t.stepReg == .awaitFetch) = true := by decide

/-- V52. -/
theorem test_php :
    isNext (exec (.php) ((at_ 3 []).setP ⟨true, false, false, false, false, true⟩))
      (fun t => ram t 0x01FF == 0xB1 && t.s == 0xFE) = true := by decide

/-- V52. -/
theorem test_pla :
    isNext (exec (.pla) (((at_ 4 [(0x1FF, 0xB1)]))))
      (fun t => t.a == 0xB1 && t.p.n == true && t.p.z == false) = true := by decide

/-- V53. -/
theorem test_phy_wraps :
    isNext (exec (.phy) (((at_ 3 []).setS 0x00).setY 0x09))
      (fun t => ram t 0x0100 == 0x09 && t.s == 0xFF) = true := by decide

/-- V53, T3. -/
theorem test_plx_wraps :
    isNext (exec (.plx) ((at_ 3 []).setS 0xFF))
      (fun t => t.s == 0x00 && t.bus.address == 0x01FF) = true := by decide

/-- V53, T4. -/
theorem test_plx :
    isNext (exec (.plx) (((at_ 4 [(0x100, 0x09)]).setS 0x00)))
      (fun t => t.x == 0x09 && t.p.n == false && t.p.z == false) = true := by decide

/-- V54. -/
theorem test_pha :
    isNext (exec (.pha) ((at_ 3 []).setA 0xFF))
      (fun t => ram t 0x01FF == 0xFF && t.s == 0xFE) = true := by decide

/-- 45_stack_flags_system.md R217. -/
theorem test_phx :
    isNext (exec (.phx) ((at_ 3 []).setX 0x5A))
      (fun t => ram t 0x01FF == 0x5A && t.s == 0xFE) = true := by decide

/-- 45_stack_flags_system.md R222. -/
theorem test_ply :
    isNext (exec (.ply) ((at_ 4 [(0x1FF, 0x09)])))
      (fun t => t.y == 0x09 && t.p.n == false && t.p.z == false) = true := by decide

/-- V54. -/
theorem test_plp :
    isNext (exec (.plp) ((at_ 4 [(0x1FF, 0xFF)])))
      (fun t => t.p == ⟨true, true, true, true, true, true⟩) = true := by decide

/-- V55 to V57. -/
theorem test_sec :
    isNext (exec (.sec) ((at_ 2 []).setP ⟨false, false, false, false, false, false⟩))
      (fun t => t.p == ⟨false, false, false, false, false, true⟩ && t.pc == 0x0201) = true := by decide

/-- V55 to V57. -/
theorem test_clc :
    isNext (exec (.clc) ((at_ 2 []).setP ⟨false, false, false, false, false, true⟩))
      (fun t => t.p == ⟨false, false, false, false, false, false⟩ && t.pc == 0x0201) = true := by decide

/-- V55 to V57. -/
theorem test_cli :
    isNext (exec (.cli) ((at_ 2 []).setP ⟨false, false, false, true, false, false⟩))
      (fun t => t.p == ⟨false, false, false, false, false, false⟩ && t.pc == 0x0201) = true := by decide

/-- V55 to V57. -/
theorem test_clv :
    isNext (exec (.clv) ((at_ 2 []).setP ⟨false, true, false, false, false, false⟩))
      (fun t => t.p == ⟨false, false, false, false, false, false⟩ && t.pc == 0x0201) = true := by decide

/-- V55 to V57. -/
theorem test_cld :
    isNext (exec (.cld) ((at_ 2 []).setP ⟨false, false, true, false, false, false⟩))
      (fun t => t.p == ⟨false, false, false, false, false, false⟩ && t.pc == 0x0201) = true := by decide

/-- V55 to V57. -/
theorem test_sei :
    isNext (exec (.sei) ((at_ 2 []).setP ⟨false, false, false, false, false, false⟩))
      (fun t => t.p == ⟨false, false, false, true, false, false⟩ && t.pc == 0x0201) = true := by decide

/-- V55 to V57. -/
theorem test_sed :
    isNext (exec (.sed) ((at_ 2 []).setP ⟨false, false, false, false, false, false⟩))
      (fun t => t.p == ⟨false, false, true, false, false, false⟩ && t.pc == 0x0201) = true := by decide

/-- V58: nothing but the fetch to come. -/
theorem test_nop :
    isNext (exec (.nop) (at_ 2 []))
      (fun t => t == ((at_ 2 []).setStep .awaitFetch).setBusSide ⟨0x0201, 0x00, true, false, false⟩ 1 .created (at_ 2 []).devices) = true := by decide

/-- S9, cycle 5. -/
theorem test_brk_status :
    isNext (exec (.brk) (((at_ 5 []).setPC 0x1002).setS 0xFD))
      (fun t => ram t 0x01FD == 0x30 && t.s == 0xFC && t.p.i == true && t.p.d == false) = true := by decide

/-- S9, cycle 2. -/
theorem test_brk_signature :
    isNext (exec (.brk) ((at_ 2 []).setPC 0x1001))
      (fun t => t.pc == 0x1002) = true := by decide

/-- V69, cycle 11. -/
theorem test_rti_status :
    isNext (exec (.rti) (((at_ 4 [(0x1FD, 0x30)]).setS 0xFD).setP ⟨false, false, false, true, false, false⟩))
      (fun t => t.p == ⟨false, false, false, false, false, false⟩ && t.s == 0xFE) = true := by decide

/-- V69. -/
theorem test_rti_pc :
    isNext (exec (.rti) (((at_ 6 [(0x1FF, 0x10)]).setLoc ⟨0x02, 0, 0, 0, 0, false, false⟩)))
      (fun t => t.pc == 0x1002) = true := by decide

/-- V66, cycle 3. -/
theorem test_wai :
    isNext (exec (.wai) (at_ 3 []))
      (fun t => t.stepReg == .waitingForInterrupt && t.pc == 0x0201) = true := by decide

/-- V67, cycle 3. -/
theorem test_stp : isNext (exec (.stp) (at_ 3 []))
      (fun t => t.stepReg == .stopped) = true := by decide

/-- V70. -/
theorem test_reserved :
    (match step ((State.reset.setPC 0x0200).setDevices [.fullRam [(0x200, 0x02)]]) with
      | .fault (.reservedOpcode op address left) => op == 0x02 && address == 0x0200 && left.pc == 0x0201
      | _ => false) = true := by decide

/-- An instruction placed by `withFetchWord` is fetched in the very next cycle. -/
theorem test_place_then_fetch :
    isNext (step (State.reset.withFetchWord 8 0xEA)) (fun t => t.ir == .opcode 0xEA && t.stepReg == .executing 1) = true := by decide

/-- S7: with `RST_STACK_ACCESS = write` the third stack cycle writes `PByte(0)` with the old `P.D`. -/
theorem test_rst_write_status :
    isNext (rstSequence { (((at_ 5 []).setIR .rstOp).setS 0xFE).setP ⟨false, false, true, false, false, false⟩ with
        cfg := { Params.default with rstStackAccess := .write } })
      (fun t => ram t 0x01FE == 0x28 && t.s == 0xFD && t.p.d == false && t.p.i == true) = true := by decide

/-- V72: contention under `STRICT_BUS` ends the cycle of the data read. -/
theorem test_strict_contention :
    (match exec (.ldx (.mem .abs))
        { (at_ 4 []).setEA 0x4000 with
          cfg := { Params.default with strictBus := true }, devices := [.fullRam [(0x4000, 0x11)], ⟨0x4000, 0x100, .constant 0x22⟩] }
      with
      | .fault (.busContention address left) => address == 0x4000 && left.x == 0x00
      | _ => false) = true := by decide

/-! ## Witnesses: states and operands that meet the hypotheses of each statement -/

theorem witness_DecodeEncodeAgree :
    Asm.wf ⟨.lda .imm, .one 0x42⟩ = true ∧ Asm.wf ⟨.bbs7, .two 0xFF 0xFF⟩ = true ∧ Asm.wf ⟨.reserved 0xFC, .none⟩ = true := by
  decide

theorem witness_DecodedBytesEncodeBack : decode [0xBD, 0xF8, 0x20, 0xEA] = .ok (⟨.lda (.mem .abx), .two 0xF8 0x20⟩, [0xEA]) :=
  rfl

/-- Both modes, at the ends of the offset's range and of the address space. -/
theorem witness_BranchTargetReach :
    Instr.mode .bra = some .rel ∧ Instr.mode .bbs7 = some .zpr
      ∧ Asm.target ⟨.bra, .one 0x80⟩ 0x0000 = some 0xFF82 ∧ Asm.target ⟨.bra, .one 0x7F⟩ 0xFFFF = some 0x0080
      ∧ Asm.target ⟨.bbs7, .two 0x10 0x80⟩ 0x0000 = some 0xFF83 ∧ Asm.target ⟨.bbs7, .two 0x10 0x7F⟩ 0xFFFF = some 0x0081 := by
  decide

/-- About to fetch the opcode `op`. -/
def fetching (op : Byte) : State := (at_ 2 [(0x201, op)]).setStep .awaitFetch

theorem witness_StepRuns_documented :
    ∃ (s u : State) (r : List Byte) (a : Asm), s.stepReg = .awaitFetch ∧ pollRst s = false ∧ (pollNmi s).1 = false
      ∧ (pollIrq s && !s.p.i) = false ∧ AnswersSync s.pc (pollNmi s).2 0xEA u ∧ decode (0xEA :: []) = .ok (a, r)
      ∧ a.wf = true ∧ 0xEA ∉ s.cfg.reservedOpcodes ∧ 0xEA ∉ reservedOpcodes :=
  ⟨fetching 0xEA, _, _, _, rfl, rfl, rfl, rfl, rfl, rfl, rfl, by decide, by decide⟩

/-- An interrupt request is asserted and masked. -/
theorem witness_StepRuns_masked :
    ∃ (s u : State) (r : List Byte) (a : Asm), s.stepReg = .awaitFetch ∧ pollRst s = false ∧ (pollNmi s).1 = false
      ∧ pollIrq s = true ∧ (pollIrq s && !s.p.i) = false ∧ AnswersSync s.pc (pollNmi s).2 0x58 u
      ∧ decode (0x58 :: []) = .ok (a, r) ∧ a.wf = true ∧ 0x58 ∉ s.cfg.reservedOpcodes :=
  ⟨((fetching 0x58).setP ⟨false, false, false, true, false, false⟩).setLines ⟨.created true, ⟨false, [4], false⟩, .created false⟩,
    _, _, _, rfl, rfl, rfl, rfl, rfl, rfl, rfl, rfl, by decide⟩

theorem witness_StepRuns_reserved :
    ∃ (s u : State) (r : List Byte) (a : Asm), s.stepReg = .awaitFetch ∧ pollRst s = false ∧ (pollNmi s).1 = false
      ∧ (pollIrq s && !s.p.i) = false ∧ AnswersSync s.pc (pollNmi s).2 0x02 u ∧ decode (0x02 :: []) = .ok (a, r)
      ∧ a.wf = true ∧ 0x02 ∈ s.cfg.reservedOpcodes :=
  ⟨fetching 0x02, _, _, _, rfl, rfl, rfl, rfl, rfl, rfl, rfl, by decide⟩

theorem witness_StepContinuesTheHandler :
    ∃ s : State, s.stepReg = .executing 6 ∧ pollRst s = false ∧ ∀ ir, (s.setIR ir).ir = ir ∧ (s.setIR ir).stepReg = .executing 6
      ∧ pollRst (s.setIR ir) = false :=
  ⟨at_ 7 [], rfl, rfl, fun _ => ⟨rfl, rfl, rfl⟩⟩

/-- A prefetched opcode, waiting for its dispatch. -/
def prefetched (op : Byte) : State := ((at_ 2 []).setStep .awaitPipelinedFetch).setIR (.opcode op)

theorem witness_PipelinedDispatchEntersAtT2 :
    (∃ s : State, s.stepReg = .awaitPipelinedFetch ∧ s.ir = .opcode 0xA9 ∧ pollRst s = false ∧ (pollNmi s).1 = false
      ∧ (pollIrq s && !s.p.i) = false ∧ 0xA9 ∉ s.cfg.reservedOpcodes)
    ∧ ∃ s : State, s.stepReg = .awaitPipelinedFetch ∧ s.ir = .opcode 0x03 ∧ pollRst s = false ∧ (pollNmi s).1 = false
      ∧ (pollIrq s && !s.p.i) = false ∧ 0x03 ∈ s.cfg.reservedOpcodes :=
  ⟨⟨prefetched 0xA9, rfl, rfl, rfl, rfl, rfl, by decide⟩, prefetched 0x03, rfl, rfl, rfl, rfl, rfl, by decide⟩

/-- A machine at a step with the three lines as given. -/
def lined (step : StepReg) (nmi : Bool) (irq rst : List RequesterId) : State :=
  ((at_ 2 []).setStep step).setLines ⟨⟨true, [], nmi⟩, ⟨false, irq, false⟩, ⟨false, rst, false⟩⟩

theorem witness_DispatchPriority :
    pollRst (lined (.executing 3) true [1] [2]) = true
      ∧ (pollRst (lined .awaitFetch true [1] []) = false ∧ AtBoundary (lined .awaitFetch true [1] [])
        ∧ (pollNmi (lined .awaitFetch true [1] [])).1 = true)
      ∧ (∀ step, step = .awaitFetch ∨ step = .awaitPipelinedFetch ∨ step = .waitingForInterrupt →
        pollRst (lined step false [1] []) = false ∧ AtBoundary (lined step false [1] [])
          ∧ (pollNmi (lined step false [1] [])).1 = false ∧ pollIrq (lined step false [1] []) = true
          ∧ (lined step false [1] []).p.i = false)
      ∧ ((lined .waitingForInterrupt false [1] []).setP ⟨false, false, false, true, false, false⟩).stepReg
        = .waitingForInterrupt :=
  ⟨rfl, ⟨rfl, .inl rfl, rfl⟩, fun _ h => ⟨rfl, h, rfl, rfl, rfl⟩, rfl⟩

theorem witness_IdleCyclesChangeNothing :
    (pollRst (lined .stopped true [1] []) = false ∧ (lined .stopped true [1] []).stepReg = .stopped)
      ∧ ∃ s : State, pollRst s = false ∧ s.stepReg = .waitingForInterrupt ∧ s.cfg.nmiEdgeCapture = .onTrigger
        ∧ s.lines.nmi.edgeTriggered = true ∧ s.lines.nmi.latchedSinceEdge = false ∧ pollIrq s = false :=
  ⟨⟨rfl, rfl⟩, lined .waitingForInterrupt false [] [], rfl, rfl, rfl, rfl, rfl, rfl⟩

theorem witness_RstAbandonsAnything :
    ∃ s u : State, pollRst s = true ∧ AnswersDummy s.pc ((s.loseScratch.setIR .rstOp).setStep (.executing 0)) u :=
  ⟨lined .stopped false [] [7], _, rfl, _, rfl⟩

theorem witness_TriggeredMeansRequested :
    (⟨false, [3], false⟩ : InterruptLine).requesters = [3] ∧ (⟨false, [3], false⟩ : InterruptLine).triggered = true
      ∧ (⟨false, [3, 5], false⟩ : InterruptLine).requesters ≠ [3] := by decide

/-- A line held by a second requester. -/
theorem witness_LineIsWiredOr :
    (⟨true, [3, 5], false⟩ : InterruptLine).triggered = true ∧ (5 : RequesterId) ≠ 3
      ∧ 5 ∈ (⟨true, [3, 5], false⟩ : InterruptLine).requesters := by decide

theorem witness_EdgeFiresOncePerAssertion :
    ∀ capture, ∃ l : InterruptLine, l.edgeTriggered = true ∧ l.requesters = []
      ∧ (capture = NmiEdgeCapture.onPoll → l.latchedSinceEdge = false) :=
  fun _ => ⟨.created true, rfl, rfl, fun _ => rfl⟩

/-- No device is registered under `STRICT_BUS`: every read ends in a fault. -/
def strictAt (k : Nat) : State :=
  { at_ k [] with devices := [], cfg := { Params.default with strictBus := true } }

/-- A discarded read, a vector pull and a data read whose fault ends the cycle; in a sequence; in the fetch. -/
theorem witness_ReadResult_faults :
    (∃ r f, readOf .nop (strictAt 2) = some r ∧ r.perform (strictAt 2) = .error f)
    ∧ (∃ r f, readOf .brk (strictAt 7) = some r ∧ r.perform (strictAt 7) = .error f)
    ∧ (∃ r f, readOf (.lda (.mem .izx)) (strictAt 6) = some r ∧ r.perform (strictAt 6) = .error f)
    ∧ (∃ r f, handlerRead ((strictAt 1).setIR .nmiOp) = some r ∧ r.perform ((strictAt 1).setIR .nmiOp) = .error f)
    ∧ (∃ f, ((strictAt 2).setStep .awaitFetch).stepReg = .awaitFetch ∧ pollRst ((strictAt 2).setStep .awaitFetch) = false
      ∧ (pollNmi ((strictAt 2).setStep .awaitFetch)).1 = false ∧ pollIrq ((strictAt 2).setStep .awaitFetch) = false
      ∧ (ReadCycle.sync 0x0201).perform (pollNmi ((strictAt 2).setStep .awaitFetch)).2 = .error f)
    ∧ ∃ f, exec .nop (strictAt 2) = .fault f ∧ f.isBusFault = true :=
  ⟨⟨_, _, rfl, rfl⟩, ⟨_, _, rfl, rfl⟩, ⟨_, _, rfl, rfl⟩, ⟨_, _, rfl, rfl⟩, ⟨_, rfl, rfl, rfl, rfl, rfl⟩, _, rfl, rfl⟩

theorem witness_ReadResultByDriverCount :
    ∀ n strict, ∃ s : State, s.driven = n ∧ s.cfg.strictBus = strict :=
  fun n strict => ⟨{ State.reset with driven := n, cfg := { Params.default with strictBus := strict } }, rfl, rfl⟩

/-- S10: RAM, then the constant driver `B`, then a device that drives nothing. -/
theorem witness_LastDriverWins :
    ∃ (address : Word) (s : State) (before after : List Device) (d : Device) (v : Byte),
      s.cfg.strictBus = false ∧ s.devices = before ++ d :: after
        ∧ (∀ data, (d.onCycle ⟨address, data, true, false, false⟩).drive = some v)
        ∧ after ≠ [] ∧ ∀ e ∈ after, ∀ data, (e.onCycle ⟨address, data, true, false, false⟩).drive = none :=
  ⟨0x40FF, { State.reset with devices := [.fullRam [], ⟨0x4000, 0x100, .constant 0x22⟩, ⟨0xD000, 1, .lineClearer .irq 1⟩] },
    [.fullRam []], [⟨0xD000, 1, .lineClearer .irq 1⟩], ⟨0x4000, 0x100, .constant 0x22⟩, 0x22, rfl, rfl, fun _ => rfl, by simp,
    fun e he data => by rw [List.mem_singleton.mp he]; rfl⟩

theorem witness_BusCycleLeavesTheCpuAlone : ∃ v u, readCycle false false 0xFFFF State.reset = .ok (v, u) := ⟨_, _, rfl⟩

theorem witness_RamHoldsWhatTheBusWrites :
    (∀ d ∈ (at_ 2 []).devices, d.wf) ∧ (at_ 2 []).ramByte 0 0xFFFF = some 0x00 ∧ (0x0000 : Word) ≠ 0xFFFF
      ∧ OverRam [] (at_ 2 []) :=
  ⟨State.reset_devices_wf, rfl, by decide, rfl, rfl, Lines.created_wf⟩

/-- The true difference at both ends of the signed range. -/
theorem witness_CompareMeansOrder :
    (0x80 : Byte).toInt - (0x00 : Byte).toInt = -128 ∧ (0x7F : Byte).toInt - (0x00 : Byte).toInt = 127 := by decide

theorem witness_ShiftsBitByBit : 0 < 8 ∧ 7 < 8 := by decide

theorem witness_FirstCycleOnlyCounts : (∀ b, Instr.nop ≠ .reserved b) ∧ ((at_ 2 []).setStep (.executing 0)).stepReg = .executing 0 :=
  ⟨fun _ h => (by cases h), rfl⟩

theorem at_overRam (k : Nat) (mem : Memory) : OverRam mem (at_ k mem) := ⟨rfl, rfl, Lines.created_wf⟩

/-- The last cycle of every class R form, not crossing a page and crossing one. -/
theorem read_ends (o : ReadMode) (crossed : Bool) :
    ∃ (s u : State) (m : Byte), s.loc.crossed = crossed ∧ AtT (readLast o s.loc) s ∧ Answers (operandAddress o s) s m u := by
  let loc : Locals := ⟨0, 0, 0, 0, 0, crossed, false⟩
  have h2 : 2 ≤ readLast o loc := by
    cases o with
    | imm => exact Nat.le_refl 2
    | mem m => exact Nat.le_of_succ_le (dataCycle_ge m .onCross loc)
  exact ⟨(at_ (readLast o loc) []).setLoc loc, _, _, rfl, ⟨h2, rfl⟩,
    OverRam.answers (mem := []) ⟨rfl, rfl, Lines.created_wf⟩ _⟩

theorem witness_LoadsComplete (o : ReadMode) :
    ∃ (s u : State) (m : Byte), AtT (readLast o s.loc) s ∧ Answers (operandAddress o s) s m u :=
  let ⟨s, u, m, _, h⟩ := read_ends o true
  ⟨s, u, m, h⟩

theorem witness_LogicCompletes (o : ReadMode) :
    ∃ (s u : State) (m : Byte), AtT (readLast o s.loc) s ∧ Answers (operandAddress o s) s m u :=
  let ⟨s, u, m, _, h⟩ := read_ends o false
  ⟨s, u, m, h⟩

theorem witness_ComparesAndBitComplete (o : ReadMode) :
    ∃ (s u : State) (m : Byte), AtT (readLast o s.loc) s ∧ Answers (operandAddress o s) s m u :=
  let ⟨s, u, m, _, h⟩ := read_ends o false
  ⟨s, u, m, h⟩

/-- `P.D` clear; and `P.D` set with `DECIMAL_POLICY = binary`. -/
theorem witness_AdcSbcComplete :
    (∃ (s u : State) (m : Byte), s.p.d = false ∧ Answers (operandAddress .imm s) s m u ∧ AtT (readLast .imm s.loc) s)
    ∧ ∃ (s u : State) (m : Byte), s.p.d = true ∧ s.cfg.decimalPolicy = .binary ∧ Answers (operandAddress .imm s) s m u
      ∧ AtT (readLast .imm s.loc) s :=
  ⟨⟨at_ 2 [(0x201, 0xFF)], _, _, rfl, rfl, Nat.le_refl 2, rfl⟩,
    { (at_ 2 [(0x201, 0xFF)]).setP ⟨false, false, true, false, false, false⟩ with
      cfg := { Params.default with decimalPolicy := .binary } }, _, _, rfl, rfl, rfl, Nat.le_refl 2, rfl⟩

theorem witness_OnlyDecimalAdcSbcRefuse :
    (∃ (s u : State) (m : Byte), s.p.d = true ∧ s.cfg.decimalPolicy = .refuse ∧ AtT (readLast .imm s.loc) s
      ∧ Answers (operandAddress .imm s) s m u)
    ∧ ∃ (s : State) (r : Refusal), exec (.sbc .imm) s = .refused r :=
  ⟨⟨(at_ 2 []).setP ⟨false, false, true, false, false, false⟩, _, _, rfl, rfl, ⟨Nat.le_refl 2, rfl⟩, rfl⟩,
    (at_ 2 []).setP ⟨false, false, true, false, false, false⟩, _, rfl⟩

theorem witness_StoresComplete (m : AddrMode) : ∃ s : State, AtT (writeLast m s.loc) s :=
  ⟨at_ (writeLast m ⟨0, 0, 0, 0, 0, false, false⟩) [], Nat.le_of_succ_le (dataCycle_ge m .always _), rfl⟩

/-- T2 of an implied form, its discarded read answered. -/
theorem implied_ends : ∃ s u : State, AtT 2 s ∧ AnswersDummy s.pc s u :=
  ⟨at_ 2 [], _, ⟨Nat.le_refl 2, rfl⟩, (at_overRam 2 []).answersDummy _⟩

theorem witness_TransfersAndIndexCountsComplete : ∃ s u : State, AtT 2 s ∧ AnswersDummy s.pc s u := implied_ends

theorem witness_AccumulatorFormsComplete : ∃ s u : State, AtT 2 s ∧ AnswersDummy s.pc s u := implied_ends

theorem witness_FlagInstructionsComplete : ∃ s u : State, AtT 2 s ∧ AnswersDummy s.pc s u := implied_ends

/-- The three cycles of the tail, in every mode, the page crossed or not. -/
theorem rmw_ends (m : AddrMode) (fix : Fixup) (crossed : Bool) (j : Nat) :
    ∃ (s u : State) (v : Byte), s.loc.crossed = crossed ∧ AtT (dataCycle m fix s.loc + j) s ∧ Answers s.ea s v u :=
  ⟨(at_ (dataCycle m fix ⟨0, 0, 0, 0, 0, crossed, false⟩ + j) []).setLoc ⟨0, 0, 0, 0, 0, crossed, false⟩, _, _, rfl,
    ⟨Nat.le_trans (by decide) (Nat.le_trans (dataCycle_ge m fix _) (Nat.le_add_right _ _)), rfl⟩,
    OverRam.answers (mem := []) ⟨rfl, rfl, Lines.created_wf⟩ _⟩

theorem witness_ShiftsAndCountsInMemoryComplete (m : AddrMode) (fix : Fixup) (j : Nat) :
    ∃ (s u : State) (v : Byte), AtT (dataCycle m fix s.loc + j) s ∧ Answers s.ea s v u :=
  let ⟨s, u, v, _, h⟩ := rmw_ends m fix true j
  ⟨s, u, v, h⟩

theorem witness_MemoryBitsComplete (j : Nat) : ∃ (s u : State) (v : Byte), AtT (3 + j) s ∧ Answers s.ea s v u :=
  let ⟨s, u, v, _, h⟩ := rmw_ends .zp .onCross false j
  ⟨s, u, v, h⟩

/-- T2; T3 not taken; T3 taken, staying in the page and leaving it; T4. -/
theorem witness_RelativeBranchesRun :
    (∃ (s u : State) (off : Byte), AtT 2 s ∧ Answers s.pc s off u)
    ∧ (∃ (s u : State) (op : Byte), AtT 3 s ∧ s.loc.taken = false ∧ AnswersSync s.pc s op u)
    ∧ (∃ s u : State, AtT 3 s ∧ s.loc.taken = true ∧ AnswersDummy s.pc s u
      ∧ hiByte (s.pc + sext16 s.loc.off) = hiByte s.pc)
    ∧ (∃ s u : State, AtT 3 s ∧ s.loc.taken = true ∧ AnswersDummy s.pc s u
      ∧ hiByte (s.pc + sext16 s.loc.off) ≠ hiByte s.pc)
    ∧ ∃ s u : State, AtT 4 s ∧ s.loc.taken = true ∧ s.loc.crossed = true
      ∧ AnswersDummy (cat (hiByte s.loc.old) (loByte s.pc)) s u :=
  ⟨⟨at_ 2 [], _, _, ⟨by decide, rfl⟩, (at_overRam 2 []).answers _⟩,
    ⟨at_ 3 [], _, _, ⟨by decide, rfl⟩, rfl, (at_overRam 3 []).answersSync _⟩,
    ⟨(at_ 3 []).setLoc ⟨0, 0, 0x7F, 0, 0, false, true⟩, _, ⟨by decide, rfl⟩, rfl,
      OverRam.answersDummy (mem := []) ⟨rfl, rfl, Lines.created_wf⟩ _, by decide⟩,
    ⟨(at_ 3 []).setLoc ⟨0, 0, 0x80, 0, 0, false, true⟩, _, ⟨by decide, rfl⟩, rfl,
      OverRam.answersDummy (mem := []) ⟨rfl, rfl, Lines.created_wf⟩ _, by decide⟩,
    (at_ 4 []).setLoc ⟨0, 0, 0x80, 0x0302, 0, true, true⟩, _, ⟨by decide, rfl⟩, rfl, rfl,
    OverRam.answersDummy (mem := []) ⟨rfl, rfl, Lines.created_wf⟩ _⟩

/-- T2; T4; T3; T5 with bit 7 as wanted and not; T6. -/
theorem witness_BitBranchesRun :
    (∃ (s u : State) (v : Byte), AtT 2 s ∧ Answers s.pc s v u)
    ∧ (∃ s u : State, AtT 4 s ∧ AnswersDummy s.ea s u)
    ∧ (∃ (s u : State) (v : Byte), AtT 3 s ∧ Answers s.ea s v u)
    ∧ (∃ (s u : State) (off : Byte), AtT 5 s ∧ Answers s.pc s off u ∧ s.tmp.getLsbD 7 ≠ true)
    ∧ (∃ (s u : State) (off : Byte), AtT 5 s ∧ Answers s.pc s off u ∧ s.tmp.getLsbD 7 = true)
    ∧ ∃ s u : State, AtT 6 s ∧ s.loc.crossed = true ∧ AnswersDummy (cat (hiByte s.loc.old) (loByte s.pc)) s u :=
  ⟨⟨at_ 2 [], _, _, ⟨by decide, rfl⟩, (at_overRam 2 []).answers _⟩,
    ⟨at_ 4 [], _, ⟨by decide, rfl⟩, (at_overRam 4 []).answersDummy _⟩,
    ⟨at_ 3 [], _, _, ⟨by decide, rfl⟩, (at_overRam 3 []).answers _⟩,
    ⟨at_ 5 [], _, _, ⟨by decide, rfl⟩, (at_overRam 5 []).answers _, by decide⟩,
    ⟨(at_ 5 []).setTMP 0x80, _, _, ⟨by decide, rfl⟩, OverRam.answers (mem := []) ⟨rfl, rfl, Lines.created_wf⟩ _, by decide⟩,
    (at_ 6 []).setLoc ⟨0, 0, 0x20, 0x05F3, 0, true, false⟩, _, ⟨by decide, rfl⟩, rfl,
    OverRam.answersDummy (mem := []) ⟨rfl, rfl, Lines.created_wf⟩ _⟩

/-- A read of any kind is answered at cycle Tk, at whatever address. -/
theorem answered (k : Nat) (hk : 2 ≤ k) :
    ∃ s : State, AtT k s ∧ ∀ a, (∃ v u, Answers a s v u) ∧ (∃ u, AnswersDummy a s u) ∧ ∃ v u, AnswersVec a s v u :=
  ⟨at_ k [], ⟨hk, rfl⟩, fun a => ⟨⟨_, _, (at_overRam k []).answers a⟩, ⟨_, (at_overRam k []).answersDummy a⟩, _, _,
    (at_overRam k []).answersVec a⟩⟩

theorem witness_JumpsComplete :
    (∃ (s u : State) (v : Byte), AtT 2 s ∧ Answers s.pc s v u)
    ∧ (∃ s u : State, AtT 4 s ∧ AnswersDummy s.pc s u)
    ∧ (∃ (s u : State) (v : Byte), AtT 3 s ∧ Answers s.pc s v u)
    ∧ (∃ (s u : State) (v : Byte), AtT 5 s ∧ Answers s.loc.ptr s v u)
    ∧ ∃ (s u : State) (v : Byte), AtT 6 s ∧ Answers (s.loc.ptr + 1) s v u ∧ s.loc.ptr = 0xFFFF :=
  ⟨⟨at_ 2 [], _, _, ⟨by decide, rfl⟩, (at_overRam 2 []).answers _⟩,
    ⟨at_ 4 [], _, ⟨by decide, rfl⟩, (at_overRam 4 []).answersDummy _⟩,
    ⟨at_ 3 [], _, _, ⟨by decide, rfl⟩, (at_overRam 3 []).answers _⟩,
    ⟨at_ 5 [], _, _, ⟨by decide, rfl⟩, (at_overRam 5 []).answers _⟩,
    (at_ 6 []).setLoc ⟨0, 0, 0, 0, 0xFFFF, false, false⟩, _, _, ⟨by decide, rfl⟩,
    OverRam.answers (mem := []) ⟨rfl, rfl, Lines.created_wf⟩ _, rfl⟩

theorem witness_SubroutinesComplete :
    (∃ s, AtT 2 s ∧ (∃ v u, Answers s.pc s v u) ∧ ∃ u, AnswersDummy s.pc s u)
      ∧ (∃ s, AtT 3 s ∧ ∃ u, AnswersDummy (cat 0x01 s.s) s u)
      ∧ (∃ s, AtT 4 s ∧ ∃ v u, Answers (cat 0x01 s.s) s v u) ∧ (∃ s, AtT 5 s ∧ ∃ v u, Answers (cat 0x01 s.s) s v u)
      ∧ ∃ s, AtT 6 s ∧ (∃ v u, Answers s.pc s v u) ∧ ∃ u, AnswersDummy s.pc s u :=
  let ⟨s2, h2, a2⟩ := answered 2 (by decide)
  let ⟨s3, h3, a3⟩ := answered 3 (by decide)
  let ⟨s4, h4, a4⟩ := answered 4 (by decide)
  let ⟨s5, h5, a5⟩ := answered 5 (by decide)
  let ⟨s6, h6, a6⟩ := answered 6 (by decide)
  ⟨⟨s2, h2, (a2 _).1, (a2 _).2.1⟩, ⟨s3, h3, (a3 _).2.1⟩, ⟨s4, h4, (a4 _).1⟩, ⟨s5, h5, (a5 _).1⟩, s6, h6, (a6 _).1, (a6 _).2.1⟩

theorem witness_PushesAndPullsComplete :
    (∃ s, AtT 2 s ∧ ∃ u, AnswersDummy s.pc s u) ∧ (∃ s, AtT 3 s ∧ ∃ u, AnswersDummy (cat 0x01 s.s) s u)
      ∧ ∃ s, AtT 4 s ∧ ∃ v u, Answers (cat 0x01 s.s) s v u :=
  let ⟨s2, h2, a2⟩ := answered 2 (by decide)
  let ⟨s3, h3, a3⟩ := answered 3 (by decide)
  let ⟨s4, h4, a4⟩ := answered 4 (by decide)
  ⟨⟨s2, h2, (a2 _).2.1⟩, ⟨s3, h3, (a3 _).2.1⟩, s4, h4, (a4 _).1⟩

theorem witness_BreakTakesItsException :
    (∃ s, AtT 2 s ∧ ∃ v u, Answers s.pc s v u) ∧ (∃ s, AtT 3 s) ∧ (∃ s, AtT 4 s) ∧ (∃ s, AtT 5 s)
      ∧ (∃ s, AtT 6 s ∧ ∃ v u, AnswersVec 0xFFFE s v u) ∧ ∃ s, AtT 7 s ∧ ∃ v u, AnswersVec 0xFFFF s v u :=
  let ⟨s2, h2, a2⟩ := answered 2 (by decide)
  let ⟨s3, h3, _⟩ := answered 3 (by decide)
  let ⟨s4, h4, _⟩ := answered 4 (by decide)
  let ⟨s5, h5, _⟩ := answered 5 (by decide)
  let ⟨s6, h6, a6⟩ := answered 6 (by decide)
  let ⟨s7, h7, a7⟩ := answered 7 (by decide)
  ⟨⟨s2, h2, (a2 _).1⟩, ⟨s3, h3⟩, ⟨s4, h4⟩, ⟨s5, h5⟩, ⟨s6, h6, (a6 _).2.2⟩, s7, h7, (a7 _).2.2⟩

/-- A quiet machine about to fetch at `pc` over a memory. -/
def fetchingAt (pc : Word) (mem : Memory) : State := ((at_ 2 mem).setPC pc).setStep .awaitFetch

theorem fetchingAt_over (pc : Word) (mem : Memory) : FetchesOver mem (mem.load pc) (fetchingAt pc mem) :=
  ⟨⟨rfl, rfl, Lines.created_wf⟩, ⟨rfl, rfl, rfl, rfl⟩, rfl, rfl⟩

theorem witness_ReturnFromInterrupt :
    FetchesOver [(0x1FD, 0x30), (0x1FE, 0x02), (0x1FF, 0x10), (0x2000, 0x40)] 0x40
        ((fetchingAt 0x2000 [(0x1FD, 0x30), (0x1FE, 0x02), (0x1FF, 0x10), (0x2000, 0x40)]).setS 0xFC)
      ∧ (∃ s, AtT 2 s ∧ ∃ u, AnswersDummy s.pc s u) ∧ (∃ s, AtT 3 s ∧ ∃ u, AnswersDummy (cat 0x01 s.s) s u) ∧ (∃ s, AtT 4 s ∧ ∃ v u, Answers (cat 0x01 s.s) s v u)
      ∧ (∃ s, AtT 5 s ∧ ∃ v u, Answers (cat 0x01 s.s) s v u) ∧ ∃ s, AtT 6 s ∧ ∃ v u, Answers (cat 0x01 s.s) s v u :=
  let ⟨s2, h2, a2⟩ := answered 2 (by decide)
  let ⟨s3, h3, a3⟩ := answered 3 (by decide)
  let ⟨s4, h4, a4⟩ := answered 4 (by decide)
  let ⟨s5, h5, a5⟩ := answered 5 (by decide)
  let ⟨s6, h6, a6⟩ := answered 6 (by decide)
  ⟨fetchingAt_over _ _, ⟨s2, h2, (a2 _).2.1⟩, ⟨s3, h3, (a3 _).2.1⟩, ⟨s4, h4, (a4 _).1⟩, ⟨s5, h5, (a5 _).1⟩, s6, h6, (a6 _).1⟩

theorem witness_WaitAndStopComplete :
    (∃ s, AtT 2 s ∧ ∃ u, AnswersDummy s.pc s u) ∧ ∃ s, AtT 3 s ∧ ∃ u, AnswersDummy s.pc s u :=
  let ⟨s2, h2, a2⟩ := answered 2 (by decide)
  let ⟨s3, h3, a3⟩ := answered 3 (by decide)
  ⟨⟨s2, h2, (a2 _).2.1⟩, s3, h3, (a3 _).2.1⟩

theorem witness_ReservedOpcodeIsFatal : ((at_ 2 []).setStep (.executing 0)).stepReg = .executing 0 ∧ (at_ 2 []).stepReg = .executing 1 :=
  ⟨rfl, rfl⟩

/-- V2 (a page is crossed), V14 (the fix-up cycle always runs), V7, and a zero-page form at the top of memory. -/
theorem witness_AddressCyclesFormTheEffectiveAddress :
    (memoryForm (.lda (.mem .abx)) = some (.abx, .onCross) ∧ Instr.wf (.lda (.mem .abx)) = true
      ∧ opcodeOf (.lda (.mem .abx)) = some 0xBD
      ∧ FetchesOver [(0x200, 0xBD), (0x201, 0xF8), (0x202, 0x20)] 0xBD
        (fetchingAt 0x0200 [(0x200, 0xBD), (0x201, 0xF8), (0x202, 0x20)])
      ∧ crossesPage [] .abx 0x10 0x00 0xF8 0x20 = true)
    ∧ (memoryForm (.stz .abx) = some (.abx, .always) ∧ Instr.wf (.stz .abx) = true ∧ opcodeOf (.stz .abx) = some 0x9E
      ∧ FetchesOver [(0x200, 0x9E)] 0x9E (fetchingAt 0x0200 [(0x200, 0x9E)]))
    ∧ memoryForm .smb7 = some (.zp, .onCross) ∧ Instr.wf .smb7 = true ∧ opcodeOf .smb7 = some 0xF7
      ∧ FetchesOver [(0xFFFF, 0xF7)] 0xF7 (fetchingAt 0xFFFF [(0xFFFF, 0xF7)]) :=
  ⟨⟨rfl, rfl, rfl, fetchingAt_over _ _, by decide⟩, ⟨rfl, rfl, rfl, fetchingAt_over _ _⟩, rfl, rfl, rfl, fetchingAt_over _ _⟩

/-- A cycle that is not the last, and one that is. -/
theorem witness_EveryInstructionTakesItsCycles :
    (∃ s t : State, s.stepReg = .executing 0 ∧ exec .nop s = .next t ∧ 0 + 1 < lastCycle .nop t.loc)
      ∧ ∃ s t : State, s.stepReg = .executing 1 ∧ exec .nop s = .next t ∧ lastCycle .nop t.loc ≤ 1 + 1 :=
  ⟨⟨at_ 1 [], _, rfl, rfl, by decide⟩, at_ 2 [], _, rfl, rfl, by decide⟩

/-- A state of the invariant in the last cycle of a handler. -/
theorem witness_NoStepOutOfDomain : Inv ((at_ 7 []).setIR (.opcode 0x00)) :=
  ⟨State.reset_devices_wf, State.reset_lines_wf, ⟨by decide, by decide⟩, Nat.le_refl 7⟩

theorem witness_InterruptEntryOverRam :
    FetchesOver [] 0x00 (fetchingAt 0x0200 [])
      ∧ (OverRam [] (lined .awaitFetch true [1] []) ∧ AtBoundary (lined .awaitFetch true [1] [])
        ∧ pollRst (lined .awaitFetch true [1] []) = false ∧ (pollNmi (lined .awaitFetch true [1] [])).1 = true)
      ∧ (OverRam [] (lined .awaitPipelinedFetch false [1] []) ∧ AtBoundary (lined .awaitPipelinedFetch false [1] [])
        ∧ pollRst (lined .awaitPipelinedFetch false [1] []) = false
        ∧ (pollNmi (lined .awaitPipelinedFetch false [1] [])).1 = false
        ∧ pollIrq (lined .awaitPipelinedFetch false [1] []) = true ∧ (lined .awaitPipelinedFetch false [1] []).p.i = false)
      ∧ ∃ s : State, OverRam [] s ∧ s.stepReg = .waitingForInterrupt ∧ s.p.i = true ∧ pollRst s = false
        ∧ (pollNmi s).1 = false ∧ pollIrq s = true := by
  have wf : ∀ step nmi, OverRam [] (lined step nmi [1] []) := fun step nmi =>
    ⟨rfl, rfl, ⟨by simp [lined], fun h => by cases h⟩, ⟨by simp [lined], fun _ => rfl⟩, ⟨by simp [lined], fun _ => rfl⟩, rfl, rfl, rfl⟩
  exact ⟨fetchingAt_over 0x0200 [], ⟨wf _ _, .inl rfl, rfl, rfl⟩, ⟨wf _ _, .inr (.inl rfl), rfl, rfl, rfl, rfl⟩,
    (lined .waitingForInterrupt false [1] []).setP ⟨false, false, false, true, false, false⟩, wf .waitingForInterrupt false,
    rfl, rfl, rfl, rfl, rfl⟩

/-- `RST_STACK_ACCESS = write`, at each of the three pushes. -/
theorem witness_ResetFromAnyState_write :
    ∀ k, 3 ≤ k → ∃ s : State, s.cfg = { Params.default with rstStackAccess := .write } ∧ s.cfg.rstStackAccess = .write
      ∧ AtT k s ∧ s.devices = [.fullRam []] ∧ s.lines.wf ∧ s.lines.rst.requesters = [] :=
  fun k hk => ⟨{ at_ k [] with cfg := { Params.default with rstStackAccess := .write } }, rfl, rfl,
    ⟨Nat.le_of_succ_le hk, rfl⟩, rfl, Lines.created_wf, rfl⟩

theorem witness_ResetFromAnyState :
    (∃ s t : State, s.cfg.rstStackAccess = .read ∧ rstSequence s = .next t)
      ∧ OverRam [] (at_ 4 []) ∧ (at_ 4 []).lines.rst.requesters = [] :=
  ⟨⟨at_ 4 [], _, rfl, rfl⟩, at_overRam 4 [], rfl⟩

/-- V51. -/
theorem witness_SubroutineOverRam :
    FetchesOver [(0x300, 0x20), (0x302, 0x90)] 0x20 (fetchingAt 0x0300 [(0x300, 0x20), (0x302, 0x90)])
      ∧ (FetchesOver [(0x1FE, 0x02), (0x1FF, 0x03), (0x9000, 0x60)] 0x60
          ((fetchingAt 0x9000 [(0x1FE, 0x02), (0x1FF, 0x03), (0x9000, 0x60)]).setS 0xFD)
        ∧ Memory.load [(0x1FE, 0x02), (0x1FF, 0x03), (0x9000, 0x60)] (cat 0x01 (0xFD + 1)) = loByte 0x0302
        ∧ Memory.load [(0x1FE, 0x02), (0x1FF, 0x03), (0x9000, 0x60)] (cat 0x01 (0xFD + 2)) = hiByte 0x0302) :=
  ⟨fetchingAt_over _ _, fetchingAt_over _ _, rfl, rfl⟩

/-- A cycle of an instruction that writes no register and no flag. -/
theorem witness_RegisterFrame : ∃ t, exec .nop (at_ 2 []) = .next t ∧ writesA .nop = false ∧ writesX .nop = false
    ∧ writesY .nop = false ∧ writesS .nop = false := ⟨_, rfl, rfl, rfl, rfl, rfl⟩

theorem witness_FlagFrame : ∃ t, exec .txs (at_ 2 []) = .next t ∧ writesN .txs = false ∧ writesV .txs = false
    ∧ writesD .txs = false ∧ writesI .txs = false ∧ writesZ .txs = false ∧ writesC .txs = false :=
  ⟨_, rfl, rfl, rfl, rfl, rfl, rfl, rfl⟩

/-- A cycle that stores, and one that does not. -/
theorem witness_MemoryFrame :
    (∃ t, exec .pha (at_ 3 []) = .next t ∧ storeOf .pha (at_ 3 []) = some (0x01FF, 0x00)
      ∧ (∀ d ∈ (at_ 3 []).devices, d.wf) ∧ (at_ 3 []).ramByte 0 0x01FF = some 0x00)
    ∧ ∃ t, exec .pha (at_ 2 []) = .next t ∧ storeOf .pha (at_ 2 []) = none :=
  ⟨⟨_, rfl, rfl, State.reset_devices_wf, rfl⟩, _, rfl, rfl⟩

theorem witness_SurroundingsFrame : ∃ t, exec .nop (at_ 2 []) = .next t ∧ prefetches .nop = false
    ∧ ∀ d ∈ (at_ 2 []).devices, d.linesQuiet = true :=
  ⟨_, rfl, rfl, by decide⟩

theorem witness_InvStep :
    Inv ((at_ 7 []).setIR (.opcode 0x00)) ∧ ∃ t, step ((at_ 7 []).setIR (.opcode 0x00)) = .next t :=
  ⟨witness_NoStepOutOfDomain, _, rfl⟩

end Sys2Proof.Tests
end

section
/-! PROOFS. The byte view of the flags (10_state.md R13): `PByte` and the debug field `p` are one layout with different bits 5
and 4. -/

namespace Sys2Proof.Machine

/-- `{N, V, bits, D, I, Z, C}`: the flags at their masks, with bits 5 and 4 as given. -/
def Flags.byteView (p : Flags) (bits : BitVec 2) : Byte :=
  flagBit p.n ++ flagBit p.v ++ bits ++ flagBit p.d ++ flagBit p.i ++ flagBit p.z ++ flagBit p.c

theorem Flags.pByte_eq_byteView (p : Flags) (b : Bool) : p.pByte b = p.byteView (1#1 ++ flagBit b) := by
  apply BitVec.eq_of_getLsbD_eq
  intro k hk
  simp only [Flags.pByte, Flags.byteView, BitVec.getLsbD_append]
  interval_cases k <;> rfl

theorem State.debugP_eq_byteView (st : State) : st.debugP = st.p.byteView (Config.debugBits st.freeIdx) := rfl

/-- The flags read from a byte view are those it shows: bits 5 and 4 reach no flag. -/
theorem Flags.ofByte_byteView (p : Flags) (bits : BitVec 2) : Flags.ofByte (p.byteView bits) = p := by
  simp only [Flags.ofByte, Flags.byteView, flagBit, BitVec.getLsbD_append]
  simp

/-- Showing the flags of a byte gives the byte back with bits 5 and 4 replaced. -/
theorem Flags.byteView_ofByte (v : Byte) (bits : BitVec 2) :
    (Flags.ofByte v).byteView bits = (v &&& 0xCF) ||| (bits.setWidth 8 <<< 4) := by
  apply BitVec.eq_of_getLsbD_eq
  intro k hk
  simp only [Flags.ofByte, Flags.byteView, flagBit, BitVec.getLsbD_append]
  interval_cases k <;> simp

theorem Flags.pByte_bit5 (p : Flags) (b : Bool) : (p.pByte b).getLsbD 5 = true := by
  simp only [Flags.pByte, flagBit, BitVec.getLsbD_append]
  simp

theorem Flags.pByte_bit4 (p : Flags) (b : Bool) : (p.pByte b).getLsbD 4 = b := by
  simp only [Flags.pByte, flagBit, BitVec.getLsbD_append]
  simp

/-- Settles O25: `PByte` is the byte view with bit 5 set and bit 4 as the push says. -/
theorem statusByteRoundTrip : Obligations.StatusByteRoundTrip := by
  refine ⟨fun p b => ⟨?_, p.pByte_bit5 b, p.pByte_bit4 b⟩, fun v b => ?_⟩
  · rw [Flags.pByte_eq_byteView, Flags.ofByte_byteView]
  · rw [Flags.pByte_eq_byteView, Flags.byteView_ofByte]
    cases b <;> simp [flagBit, BitVec.or_assoc]

/-- Settles O26: the debug field `p` is the byte view with free bits 5 and 4; the other fields are the registers. -/
theorem debugViewShowsTheRegisters : Obligations.DebugViewShowsTheRegisters := by
  intro s
  have hp : Flags.ofByte s.debugView.p = s.p := by
    rw [State.debugView, State.debugP_eq_byteView, Flags.ofByte_byteView]
  exact ⟨hp, rfl, rfl, rfl, rfl, rfl⟩

end Sys2Proof.Machine
end

section
/-! PROOFS. The state after reset (10_state.md R24). -/

namespace Sys2Proof.Machine

theorem State.reset_bus_wf : State.reset.bus.wf := ⟨by decide, by decide⟩

/-- Settles O59: the one RAM is empty, the lines are as created, the last cycle was a vector pull, and no handler runs. -/
theorem invReset : Obligations.InvReset :=
  ⟨State.reset_devices_wf, State.reset_lines_wf, State.reset_bus_wf, trivial⟩

/-- Settles O60: by the definition of `State.reset`, the empty RAM reading as `$00` at the vector. -/
theorem resetValues : Obligations.ResetValues :=
  ⟨rfl, rfl, rfl, rfl, rfl, rfl, rfl, rfl, rfl, rfl, rfl⟩

end Sys2Proof.Machine
end

section
/-! PROOFS. Frames (10_state.md R10 to R15, R19, R20): what one cycle of an instruction leaves unchanged. A cycle is at most one
bus cycle, which touches the surroundings only, and then an update of the CPU inside the instruction's own list of registers and
flags. -/

namespace Sys2Proof.Machine

/-! ## Updates inside an instruction's list -/

/-- The flags `q` differ from `p` only where `instr` is listed as writing them. -/
structure FlagsWithin (instr : Instr) (p q : Flags) : Prop where
  n : writesN instr = false → q.n = p.n
  v : writesV instr = false → q.v = p.v
  d : writesD instr = false → q.d = p.d
  i : writesI instr = false → q.i = p.i
  z : writesZ instr = false → q.z = p.z
  c : writesC instr = false → q.c = p.c

/-- The state `t` differs from `u` only in the registers and flags that `instr` is listed as writing, in `IR` if it prefetches, and
in `PC`, `step`, the scratch values, the bus signals and the counts. -/
structure Within (instr : Instr) (u t : State) : Prop where
  a : writesA instr = false → t.a = u.a
  x : writesX instr = false → t.x = u.x
  y : writesY instr = false → t.y = u.y
  s : writesS instr = false → t.s = u.s
  p : FlagsWithin instr u.p t.p
  ir : prefetches instr = false → t.ir = u.ir
  lines : t.lines = u.lines
  devices : t.devices = u.devices
  cfg : t.cfg = u.cfg

/-- What writes `N` writes `Z`. -/
theorem writesZ_of_writesN {i : Instr} (h : writesN i = true) : writesZ i = true := by
  unfold writesZ
  split
  · rfl
  · rfl
  · rfl
  · exact h

namespace FlagsWithin

variable {i : Instr} {p q : Flags} {b : Bool}

theorem refl (i : Instr) (p : Flags) : FlagsWithin i p p :=
  ⟨fun _ => rfl, fun _ => rfl, fun _ => rfl, fun _ => rfl, fun _ => rfl, fun _ => rfl⟩

theorem withN (h : FlagsWithin i p q) (hw : writesN i = true) : FlagsWithin i p { q with n := b } :=
  { h with n := fun hf => nomatch hw.symm.trans hf }

theorem withV (h : FlagsWithin i p q) (hw : writesV i = true) : FlagsWithin i p { q with v := b } :=
  { h with v := fun hf => nomatch hw.symm.trans hf }

theorem withD (h : FlagsWithin i p q) (hw : writesD i = true) : FlagsWithin i p { q with d := b } :=
  { h with d := fun hf => nomatch hw.symm.trans hf }

theorem withI (h : FlagsWithin i p q) (hw : writesI i = true) : FlagsWithin i p { q with i := b } :=
  { h with i := fun hf => nomatch hw.symm.trans hf }

theorem withZ (h : FlagsWithin i p q) (hw : writesZ i = true) : FlagsWithin i p { q with z := b } :=
  { h with z := fun hf => nomatch hw.symm.trans hf }

theorem withC (h : FlagsWithin i p q) (hw : writesC i = true) : FlagsWithin i p { q with c := b } :=
  { h with c := fun hf => nomatch hw.symm.trans hf }

/-- A pulled status byte, in an instruction listed for all six flags. -/
theorem ofByte {v : Byte} (hn : writesN i = true) (hv : writesV i = true) (hd : writesD i = true) (hi : writesI i = true)
    (hc : writesC i = true) : FlagsWithin i p (Flags.ofByte v) :=
  (((((refl i p).withN hn).withV hv).withD hd).withI hi).withZ (writesZ_of_writesN hn) |>.withC hc

theorem entered (h : FlagsWithin i p q) (hi : writesI i = true) (hd : writesD i = true) : FlagsWithin i p q.entered :=
  (h.withI (b := true) hi).withD (b := false) hd

theorem setNZ {v : Byte} (h : FlagsWithin i p q) (hn : writesN i = true) : FlagsWithin i p (q.setNZ v) :=
  (h.withN hn).withZ (writesZ_of_writesN hn)

theorem compare {r m : Byte} (h : FlagsWithin i p q) (hn : writesN i = true) (hc : writesC i = true) :
    FlagsWithin i p (q.compare r m) := (h.withC hc).setNZ hn

theorem shifted {out : Bool} {r : Byte} (h : FlagsWithin i p q) (hn : writesN i = true) (hc : writesC i = true) :
    FlagsWithin i p (shifted q out r).2 := (h.withC hc).setNZ hn

end FlagsWithin

namespace Within

variable {i : Instr} {u w : State}

theorem refl (i : Instr) (u : State) : Within i u u :=
  ⟨fun _ => rfl, fun _ => rfl, fun _ => rfl, fun _ => rfl, .refl i u.p, fun _ => rfl, rfl, rfl, rfl⟩

/-! Updates of a listed register or flag. -/

theorem setA {v : Byte} (h : Within i u w) (hw : writesA i = true) : Within i u (w.setA v) :=
  { h with a := fun hf => nomatch hw.symm.trans hf }

theorem setX {v : Byte} (h : Within i u w) (hw : writesX i = true) : Within i u (w.setX v) :=
  { h with x := fun hf => nomatch hw.symm.trans hf }

theorem setY {v : Byte} (h : Within i u w) (hw : writesY i = true) : Within i u (w.setY v) :=
  { h with y := fun hf => nomatch hw.symm.trans hf }

theorem setS {v : Byte} (h : Within i u w) (hw : writesS i = true) : Within i u (w.setS v) :=
  { h with s := fun hf => nomatch hw.symm.trans hf }

theorem setP {q : Flags} (h : Within i u w) (hq : FlagsWithin i u.p q) : Within i u (w.setP q) := { h with p := hq }

theorem flagNZ {v : Byte} (h : Within i u w) (hn : writesN i = true) : Within i u (w.flagNZ v) := h.setP (h.p.setNZ hn)

theorem setIR {v : IReg} (h : Within i u w) (hw : prefetches i = true) : Within i u (w.setIR v) :=
  { h with ir := fun hf => nomatch hw.symm.trans hf }

/-! Updates that every instruction may make. -/

theorem setTMP {v : Byte} (h : Within i u w) : Within i u (w.setTMP v) := { h with }
theorem setEA {v : Word} (h : Within i u w) : Within i u (w.setEA v) := { h with }
theorem setLoc {v : Locals} (h : Within i u w) : Within i u (w.setLoc v) := { h with }
theorem setPC {v : Word} (h : Within i u w) : Within i u (w.setPC v) := { h with }
theorem setStep {v : StepReg} (h : Within i u w) : Within i u (w.setStep v) := { h with }
theorem incPC (h : Within i u w) : Within i u w.incPC := h.setPC
theorem done (h : Within i u w) : Within i u w.done := h.setStep
theorem branchTo {off : Byte} (h : Within i u w) : Within i u (w.branchTo off) := h.setLoc.setPC

theorem nextCycle (h : Within i u w) : Within i u w.nextCycle := by
  unfold State.nextCycle
  split
  · exact h.setStep
  · exact h

theorem branchEnd (h : Within i u w) : Within i u w.branchEnd := by
  unfold State.branchEnd
  split
  · exact h.nextCycle
  · exact h.done

theorem afterOperand {o : ReadMode} (h : Within i u w) : Within i u (afterOperand o w) := by
  cases o with
  | imm => exact h.setPC
  | mem m => exact h

/-! The class R operations. -/

variable {v : State} {m : Byte}

theorem opLda (h : Within i u w) (ha : writesA i = true) (hn : writesN i = true) (hv : opLda m w = .next v) :
    Within i u v := by
  cases hv; exact (h.setA ha).flagNZ hn

theorem opLdx (h : Within i u w) (hx : writesX i = true) (hn : writesN i = true) (hv : opLdx m w = .next v) :
    Within i u v := by
  cases hv; exact (h.setX hx).flagNZ hn

theorem opLdy (h : Within i u w) (hy : writesY i = true) (hn : writesN i = true) (hv : opLdy m w = .next v) :
    Within i u v := by
  cases hv; exact (h.setY hy).flagNZ hn

/-- `ADC` and `SBC`, unless refused. -/
theorem decimalGuard {sum : Sum} (h : Within i u w) (ha : writesA i = true) (hn : writesN i = true)
    (ho : writesV i = true) (hc : writesC i = true) (hv : decimalGuard w (applySum sum w) = .next v) : Within i u v := by
  unfold Machine.decimalGuard at hv
  split at hv
  · cases hv
  · cases hv; exact (h.setA ha).setP (((h.p.withV ho).withC hc).setNZ hn)

theorem opCompare {r : State → Byte} (h : Within i u w) (hn : writesN i = true) (hc : writesC i = true)
    (hv : opCompare r m w = .next v) : Within i u v := by
  cases hv; exact h.setP (h.p.compare hn hc)

/-- `BIT` immediate writes `Z` alone, its memory forms also `N` and `V`. -/
theorem opBitOf {o : ReadMode} (h : Within (.bit o) u w) (hv : opBitOf o m w = .next v) : Within (.bit o) u v := by
  cases o with
  | imm => cases hv; exact h.setP (h.p.withZ rfl)
  | mem md => cases hv; exact h.setP (((h.p.withZ rfl).withN rfl).withV rfl)

end Within

theorem SameButAddress.within {u w : State} (h : SameButAddress u w) (i : Instr) : Within i u w :=
  ⟨fun _ => h.a, fun _ => h.x, fun _ => h.y, fun _ => h.s, h.p ▸ .refl i u.p, fun _ => h.ir, h.lines, h.devices, h.cfg⟩

/-! ## One cycle inside an instruction's list -/

/-- A cycle of `i`: at most one bus cycle, then an update inside the list of `i`. -/
def CycleWithin (i : Instr) (s t : State) : Prop := ∃ u, SameCpu s u ∧ SameMap s u ∧ Within i u t

section
variable {i : Instr} {s t u : State}

theorem Observed.cycleWithin (e : Observed s u) (h : Within i u t) : CycleWithin i s t := ⟨u, e.cpu, e.map, h⟩

theorem Begins.cycleWithin (h : Begins s t) : CycleWithin i s t :=
  ⟨s, .refl s, .refl s, h.2 ▸ (Within.refl i s).setStep⟩

theorem FormsAddress.cycleWithin {bound : Locals → Nat} {k : Nat} (h : FormsAddress s bound k t) : CycleWithin i s t := by
  obtain ⟨u, w, rfl, e, hw, -, -⟩ := h
  exact e.cycleWithin (hw.within i).nextCycle

theorem cycleWithin_of_busWrite {address : Word} {v : Byte} (h : Within i (busWrite address v s) t) : CycleWithin i s t :=
  have e := busWrite_effect address v s
  ⟨_, e.cpu, e.map, h⟩

/-- A push is a write, then an update of `S`. -/
theorem within_push {v : Byte} (hS : writesS i = true) : Within i (busWrite s.stackAddress v s) (push v s) :=
  (Within.refl i _).setS hS

/-! The templates: an instruction stays inside its list when its own operation does. -/

theorem readInstr_cycleWithin {o : ReadMode} {op : Byte → State → Result}
    (hop : ∀ {m u w v}, Within i u w → op m w = .next v → Within i u v) (h : readInstr o op s = .next t) :
    CycleWithin i s t := by
  rcases readInstr_next h with h | ⟨k, -, h⟩ | ⟨-, m, u, v, e, hv, rfl⟩
  · exact h.cycleWithin
  · exact h.cycleWithin
  · exact e.cycleWithin (hop (Within.refl i u).afterOperand hv).done

theorem writeInstr_cycleWithin {m : AddrMode} {val : State → Byte} (h : writeInstr m val s = .next t) :
    CycleWithin i s t := by
  rcases writeInstr_next h with h | ⟨k, -, h⟩ | ⟨-, rfl⟩
  · exact h.cycleWithin
  · exact h.cycleWithin
  · exact cycleWithin_of_busWrite (Within.refl i _).done

theorem rmwInstr_cycleWithin {m : AddrMode} {fix : Fixup} {f : Transform} (hf : ∀ a p v, FlagsWithin i p (f a p v).2)
    (h : rmwInstr m fix f s = .next t) : CycleWithin i s t := by
  rcases rmwInstr_next h with h | ⟨k, -, h⟩ | ⟨-, v, u, e, rfl⟩ | ⟨-, u, e, rfl⟩ | ⟨-, rfl⟩
  · exact h.cycleWithin
  · exact h.cycleWithin
  · exact e.cycleWithin (Within.refl i u).setTMP.nextCycle
  · exact e.cycleWithin ((Within.refl i u).setTMP.setP (hf _ _ _)).nextCycle
  · exact cycleWithin_of_busWrite (Within.refl i _).done

theorem impliedCycles_cycleWithin {effect : State → State} (heff : ∀ u, Within i u (effect u))
    (h : handler (impliedCycles effect) s = .next t) : CycleWithin i s t := by
  rcases impliedCycles_next h with h | ⟨-, u, e, rfl⟩
  · exact h.cycleWithin
  · exact e.cycleWithin (heff u).done

/-- The accumulator form writes `A`, the memory forms write memory. -/
theorem shiftInstr_cycleWithin {o : RmwMode} {fix : Fixup} {f : Transform} (ha : o = .acc → writesA i = true)
    (hf : ∀ a p v, FlagsWithin i p (f a p v).2) (h : shiftInstr o fix f s = .next t) : CycleWithin i s t := by
  cases o with
  | acc => exact impliedCycles_cycleWithin (fun u => ((Within.refl i u).setA (ha rfl)).setP (hf _ _ _)) h
  | mem m => exact rmwInstr_cycleWithin hf h

theorem pushCycles_cycleWithin {val : State → Byte} (hS : writesS i = true) (h : handler (pushCycles val) s = .next t) :
    CycleWithin i s t := by
  rcases pushCycles_next h with h | ⟨-, u, e, rfl⟩ | ⟨-, rfl⟩
  · exact h.cycleWithin
  · exact e.cycleWithin (Within.refl i u).nextCycle
  · exact cycleWithin_of_busWrite (within_push hS).done

theorem pullCycles_cycleWithin {effect : Byte → State → State} (hS : writesS i = true)
    (heff : ∀ v u, Within i u (effect v u)) (h : handler (pullCycles effect) s = .next t) : CycleWithin i s t := by
  rcases pullCycles_next h with h | ⟨-, u, e, rfl⟩ | ⟨-, u, e, rfl⟩ | ⟨-, v, u, e, rfl⟩
  · exact h.cycleWithin
  · exact e.cycleWithin (Within.refl i u).nextCycle
  · exact e.cycleWithin ((Within.refl i u).setS hS).nextCycle
  · exact e.cycleWithin (heff v u).done

theorem haltCycles_cycleWithin {into : StepReg} (h : handler (haltCycles into) s = .next t) : CycleWithin i s t := by
  rcases haltCycles_next h with h | ⟨-, u, e, rfl⟩ | ⟨-, u, e, rfl⟩
  · exact h.cycleWithin
  · exact e.cycleWithin (Within.refl i u).nextCycle
  · exact e.cycleWithin (Within.refl i u).setStep

theorem relativeCycles_cycleWithin {cond : Flags → Bool} (hi : prefetches i = true)
    (h : handler (relativeCycles cond) s = .next t) : CycleWithin i s t := by
  rcases relativeCycles_next h with h | ⟨-, v, u, e, rfl⟩ | ⟨-, -, u, e, rfl⟩ | ⟨-, -, v, u, e, rfl⟩ | ⟨-, -, -, u, e, rfl⟩
  · exact h.cycleWithin
  · exact e.cycleWithin (Within.refl i u).setLoc.incPC.nextCycle
  · exact e.cycleWithin (Within.refl i u).branchTo.branchEnd
  · exact e.cycleWithin ((Within.refl i u).setIR hi).setStep
  · exact e.cycleWithin (Within.refl i u).done

theorem branchBitCycles_cycleWithin {n : Nat} {want : Bool} (h : handler (branchBitCycles n want) s = .next t) :
    CycleWithin i s t := by
  rcases branchBitCycles_next h with
    h | ⟨-, v, u, e, rfl⟩ | ⟨-, v, u, e, rfl⟩ | ⟨-, u, e, rfl⟩ | ⟨-, v, u, e, rfl | rfl⟩ | ⟨-, -, u, e, rfl⟩
  · exact h.cycleWithin
  · exact e.cycleWithin (Within.refl i u).setEA.incPC.nextCycle
  · exact e.cycleWithin (Within.refl i u).setTMP.nextCycle
  · exact e.cycleWithin (Within.refl i u).nextCycle
  · exact e.cycleWithin (Within.refl i u).setLoc.incPC.branchTo.branchEnd
  · exact e.cycleWithin (Within.refl i u).setLoc.incPC.done
  · exact e.cycleWithin (Within.refl i u).done

theorem execJmp_cycleWithin {m : JmpMode} (h : execJmp m s = .next t) : CycleWithin i s t := by
  rcases jmpCycles_next h with h | ⟨k, u, w, -, e, ⟨-, rfl⟩ | ⟨-, rfl⟩, hw⟩
  · exact h.cycleWithin
  · exact e.cycleWithin (hw.within i).nextCycle
  · exact e.cycleWithin (hw.within i).done

theorem execJsr_cycleWithin (hS : writesS i = true) (h : execJsr s = .next t) : CycleWithin i s t := by
  rcases jsrCycles_next h with h | ⟨-, v, u, e, rfl⟩ | ⟨-, u, e, rfl⟩ | ⟨-, rfl⟩ | ⟨-, rfl⟩ | ⟨-, v, u, e, rfl⟩
  · exact h.cycleWithin
  · exact e.cycleWithin (Within.refl i u).setLoc.incPC.nextCycle
  · exact e.cycleWithin (Within.refl i u).nextCycle
  · exact cycleWithin_of_busWrite (within_push hS).nextCycle
  · exact cycleWithin_of_busWrite (within_push hS).nextCycle
  · exact e.cycleWithin (Within.refl i u).setPC.done

theorem execRts_cycleWithin (hS : writesS i = true) (h : execRts s = .next t) : CycleWithin i s t := by
  rcases rtsCycles_next h with
    h | ⟨-, u, e, rfl⟩ | ⟨-, u, e, rfl⟩ | ⟨-, v, u, e, rfl⟩ | ⟨-, v, u, e, rfl⟩ | ⟨-, u, e, rfl⟩
  · exact h.cycleWithin
  · exact e.cycleWithin (Within.refl i u).nextCycle
  · exact e.cycleWithin ((Within.refl i u).setS hS).nextCycle
  · exact e.cycleWithin ((Within.refl i u).setLoc.setS hS).nextCycle
  · exact e.cycleWithin (Within.refl i u).setPC.nextCycle
  · exact e.cycleWithin (Within.refl i u).incPC.done

theorem execRti_cycleWithin (h : execRti s = .next t) : CycleWithin .rti s t := by
  rcases returnCycle_next h with
    h | ⟨-, u, e, rfl⟩ | ⟨-, u, e, rfl⟩ | ⟨-, v, u, e, rfl⟩ | ⟨-, v, u, e, rfl⟩ | ⟨-, v, u, e, rfl⟩
  · exact h.cycleWithin
  · exact e.cycleWithin (Within.refl _ u).nextCycle
  · exact e.cycleWithin ((Within.refl _ u).setS rfl).nextCycle
  · exact e.cycleWithin (((Within.refl _ u).setP (.ofByte rfl rfl rfl rfl rfl)).setS rfl).nextCycle
  · exact e.cycleWithin ((Within.refl _ u).setLoc.setS rfl).nextCycle
  · exact e.cycleWithin (Within.refl _ u).setPC.done

theorem execBrk_cycleWithin (h : execBrk s = .next t) : CycleWithin .brk s t := by
  rcases brkCycles_next h with h | ⟨-, u, e, rfl⟩ | ⟨k, -, -, h⟩
  · exact h.cycleWithin
  · exact e.cycleWithin (Within.refl _ u).incPC.nextCycle
  · rcases entryCycle_next h with ⟨-, rfl⟩ | ⟨-, rfl⟩ | ⟨-, rfl⟩ | ⟨-, v, u, e, rfl⟩ | ⟨-, v, u, e, rfl⟩
    · exact cycleWithin_of_busWrite (within_push rfl).nextCycle
    · exact cycleWithin_of_busWrite (within_push rfl).nextCycle
    · exact cycleWithin_of_busWrite ((within_push rfl).setP ((FlagsWithin.refl _ s.p).entered rfl rfl)).nextCycle
    · exact e.cycleWithin (Within.refl _ u).setPC.nextCycle
    · exact e.cycleWithin (Within.refl _ u).setPC.done

/-- A reserved opcode never answers a next state (60_exceptions.md R258). -/
theorem execReserved_ne_next {opcode : Byte} : execReserved opcode s ≠ .next t := by
  unfold execReserved
  split <;> nofun

end

/-! ## Every instruction -/

/-- 10_state.md R10, R11, R14, R15: a cycle of any instruction stays inside its list. -/
theorem exec_cycleWithin {i : Instr} {s t : State} (h : exec i s = .next t) : CycleWithin i s t := by
  cases i with
  | lda o | ora o | and o | eor o => exact readInstr_cycleWithin (fun hu => hu.opLda rfl rfl) h
  | ldx o => exact readInstr_cycleWithin (fun hu => hu.opLdx rfl rfl) h
  | ldy o => exact readInstr_cycleWithin (fun hu => hu.opLdy rfl rfl) h
  | adc o | sbc o => exact readInstr_cycleWithin (fun hu => hu.decimalGuard rfl rfl rfl rfl) h
  | cmp o | cpx o | cpy o => exact readInstr_cycleWithin (fun hu => hu.opCompare rfl rfl) h
  | bit o => exact readInstr_cycleWithin (fun hu => hu.opBitOf) h
  | sta m | stx m | sty m | stz m => exact writeInstr_cycleWithin h
  | tax | tsx | inx | dex => exact impliedCycles_cycleWithin (fun u => ((Within.refl _ u).setX rfl).flagNZ rfl) h
  | tay | iny | dey => exact impliedCycles_cycleWithin (fun u => ((Within.refl _ u).setY rfl).flagNZ rfl) h
  | txa | tya => exact impliedCycles_cycleWithin (fun u => ((Within.refl _ u).setA rfl).flagNZ rfl) h
  | txs => exact impliedCycles_cycleWithin (fun u => (Within.refl _ u).setS rfl) h
  | asl o | lsr o | rol o | ror o =>
    exact shiftInstr_cycleWithin decide_eq_true (fun _ p _ => (FlagsWithin.refl _ p).shifted rfl rfl) h
  | inc o | dec o => exact shiftInstr_cycleWithin decide_eq_true (fun _ p _ => (FlagsWithin.refl _ p).setNZ rfl) h
  | tsb m | trb m => exact rmwInstr_cycleWithin (fun _ p _ => (FlagsWithin.refl _ p).withZ rfl) h
  | rmb0 | rmb1 | rmb2 | rmb3 | rmb4 | rmb5 | rmb6 | rmb7 => exact rmwInstr_cycleWithin (fun _ p _ => .refl _ p) h
  | smb0 | smb1 | smb2 | smb3 | smb4 | smb5 | smb6 | smb7 => exact rmwInstr_cycleWithin (fun _ p _ => .refl _ p) h
  | bpl | bmi | bvc | bvs | bcc | bcs | bne | beq | bra => exact relativeCycles_cycleWithin rfl h
  | bbr0 | bbr1 | bbr2 | bbr3 | bbr4 | bbr5 | bbr6 | bbr7 => exact branchBitCycles_cycleWithin h
  | bbs0 | bbs1 | bbs2 | bbs3 | bbs4 | bbs5 | bbs6 | bbs7 => exact branchBitCycles_cycleWithin h
  | jmp m => exact execJmp_cycleWithin h
  | jsr => exact execJsr_cycleWithin rfl h
  | rts => exact execRts_cycleWithin rfl h
  | pha | php | phx | phy => exact pushCycles_cycleWithin rfl h
  | pla => exact pullCycles_cycleWithin rfl (fun _ u => ((Within.refl _ u).setA rfl).flagNZ rfl) h
  | plx => exact pullCycles_cycleWithin rfl (fun _ u => ((Within.refl _ u).setX rfl).flagNZ rfl) h
  | ply => exact pullCycles_cycleWithin rfl (fun _ u => ((Within.refl _ u).setY rfl).flagNZ rfl) h
  | plp => exact pullCycles_cycleWithin rfl (fun _ u => (Within.refl _ u).setP (.ofByte rfl rfl rfl rfl rfl)) h
  | clc | sec => exact impliedCycles_cycleWithin (fun u => (Within.refl _ u).setP ((FlagsWithin.refl _ u.p).withC rfl)) h
  | cli | sei => exact impliedCycles_cycleWithin (fun u => (Within.refl _ u).setP ((FlagsWithin.refl _ u.p).withI rfl)) h
  | clv => exact impliedCycles_cycleWithin (fun u => (Within.refl _ u).setP ((FlagsWithin.refl _ u.p).withV rfl)) h
  | cld | sed => exact impliedCycles_cycleWithin (fun u => (Within.refl _ u).setP ((FlagsWithin.refl _ u.p).withD rfl)) h
  | nop => exact impliedCycles_cycleWithin (Within.refl _) h
  | brk => exact execBrk_cycleWithin h
  | rti => exact execRti_cycleWithin h
  | wai | stp => exact haltCycles_cycleWithin h
  | reserved b => exact absurd h execReserved_ne_next

/-- Settles O54: the bus cycle leaves every register alone, and the update stays inside the list. -/
theorem registerFrame : Obligations.RegisterFrame := by
  intro i s t h
  obtain ⟨u, cpu, -, up⟩ := exec_cycleWithin h
  exact ⟨fun hw => (up.a hw).trans cpu.a, fun hw => (up.x hw).trans cpu.x, fun hw => (up.y hw).trans cpu.y,
    fun hw => (up.s hw).trans cpu.s⟩

/-- Settles O55: the bus cycle leaves the flags alone, and the update stays inside the list. -/
theorem flagFrame : Obligations.FlagFrame := by
  intro i s t h
  obtain ⟨u, cpu, -, up⟩ := exec_cycleWithin h
  have hp : FlagsWithin i s.p t.p := cpu.p ▸ up.p
  exact ⟨hp.n, hp.v, hp.d, hp.i, hp.z, hp.c⟩

/-- Settles O57: the bus cycle moves no device and changes a line only by a request, and the update touches neither. -/
theorem surroundingsFrame : Obligations.SurroundingsFrame := by
  intro i s t h
  obtain ⟨u, cpu, map, up⟩ := exec_cycleWithin h
  exact ⟨up.cfg.trans cpu.cfg, up.devices ▸ map.ranges, fun hw => (up.ir hw).trans cpu.ir,
    fun hq => up.lines.trans (map.lines hq)⟩

end Sys2Proof.Machine
end

section
/-! PROOFS. Bus cycles (20_memory.md R40 to R45, R56): who answers a read, and what a cycle leaves of the CPU and of the RAMs. -/

namespace Sys2Proof.Machine

/-! ## The answer of a read -/

/-- Devices that do not drive leave the signals and the driver count alone, whatever `data` holds when they are notified. -/
theorem notifyAll_noneDrives (cap : NmiEdgeCapture) (bus : BusSignals) (n : Nat) (ls : Lines) {ds : List Device}
    (h : ∀ e ∈ ds, (e.onCycle bus).drive = none) :
    (notifyAll cap bus n ls ds).bus = bus ∧ (notifyAll cap bus n ls ds).driven = n := by
  induction ds generalizing ls with
  | nil => exact ⟨rfl, rfl⟩
  | cons e rest ih =>
    simp only [notifyAll, h e (by simp), driveBus]
    exact ih _ fun e he => h e (by simp [he])

/-- 20_memory.md R42: after the round `data` holds what the driving device latest in the list drove, and somebody has driven. -/
theorem notifyAll_lastDriver {cap : NmiEdgeCapture} {address : Word} {read sync vec : Bool} {before after : List Device}
    {d : Device} {v : Byte} (hd : ∀ data, (d.onCycle ⟨address, data, read, sync, vec⟩).drive = some v)
    (ha : ∀ e ∈ after, ∀ data, (e.onCycle ⟨address, data, read, sync, vec⟩).drive = none)
    (data : Byte) (n : Nat) (ls : Lines) :
    (notifyAll cap ⟨address, data, read, sync, vec⟩ n ls (before ++ d :: after)).bus.data = v
      ∧ (notifyAll cap ⟨address, data, read, sync, vec⟩ n ls (before ++ d :: after)).driven ≠ 0 := by
  induction before generalizing data n ls with
  | nil =>
    simp only [List.nil_append, notifyAll, hd, driveBus]
    obtain ⟨hbus, hn⟩ := notifyAll_noneDrives cap ⟨address, v, read, sync, vec⟩ (n + 1)
      (ls.actAll cap (d.onCycle ⟨address, data, read, sync, vec⟩).actions) fun e he => ha e he v
    exact ⟨by rw [hbus], by omega⟩
  | cons e rest ih =>
    simp only [List.cons_append, notifyAll]
    cases (e.onCycle ⟨address, data, read, sync, vec⟩).drive with
    | none => exact ih data n _
    | some w => exact ih w (n + 1) _

/-- 20_memory.md R44: without `STRICT_BUS` a read that somebody drove is answered with `data`. -/
theorem readResult_driven {st : State} (hs : st.cfg.strictBus = false) (hn : st.driven ≠ 0) :
    readResult st = .ok (st.bus.data, st) := by
  simp [readResult, hs, hn]

/-- Settles O16: the round leaves the last driver's byte on `data`, and the lenient bus answers with it. -/
theorem lastDriverWins : Obligations.LastDriverWins := by
  intro sync vec address s before after d v hs hlist hd ha
  let u := broadcast ⟨address, s.bus.data, true, sync, vec⟩ 0 s
  obtain ⟨hdata, hn⟩ : u.bus.data = v ∧ u.driven ≠ 0 := by
    simp only [u, broadcast, hlist]
    exact notifyAll_lastDriver hd ha s.bus.data 0 s.lines
  have hread : readCycle sync vec address s = .ok (u.bus.data, u) := readResult_driven (st := u) hs hn
  exact ⟨u, by rw [hread, hdata]⟩

/-! ## What a bus cycle leaves -/

/-- Settles O17: what an answered read, and what a write, can do. -/
theorem busCycleLeavesTheCpuAlone : Obligations.BusCycleLeavesTheCpuAlone := by
  refine ⟨fun sync vec address s u v h => ?_, fun address v s => ?_⟩
  · have e := readCycle_ok h
    exact ⟨e.cpu, e.ram, e.bus⟩
  · have e := busWrite_effect address v s
    exact ⟨e.cpu, e.bus⟩

/-- Over one canonical RAM a read after a write of the same address is answered with the byte written. -/
theorem OverRam.answers_busWrite {mem : Memory} {st : State} (h : OverRam mem st) (hm : mem.wf) (address : Word) (v : Byte) :
    ∃ u, Answers address (Machine.busWrite address v st) v u := by
  have hw := h.busWrite address v
  have h' : OverRam (mem.store address v) (Machine.busWrite address v st) :=
    h.of_store address v (by rw [hw]; rfl) (by rw [hw]; rfl) (by rw [hw]; rfl)
  have hread : (mem.store address v).load address = v := Memory.read_write_same mem address.toNat v hm
  exact ⟨_, hread ▸ h'.answers address⟩

/-- Settles O18: what a write cycle does to the RAMs, and the read after it. -/
theorem ramHoldsWhatTheBusWrites : Obligations.RamHoldsWhatTheBusWrites := by
  intro address v s hwf
  have e := busWrite_effect address v s
  refine ⟨e.written hwf, e.other, fun mem h => h.answers_busWrite ?_ address v⟩
  exact hwf (.fullRam mem) (by rw [h.1]; simp)

end Sys2Proof.Machine
end

section
/-! PROOFS. Faults of the bus (40_engine.md R127 (a)): every template, every sequence and the opcode fetch ends its cycle in the
fault of its own read, and in no other fault of the bus. -/

namespace Sys2Proof.Machine

/-! ## What follows a read raises no fault -/

/-- An operation of class R that may refuse but does not fault. -/
def NeverFaults (op : Byte → State → Result) : Prop := ∀ m st f, op m st ≠ .fault f

theorem finish_fault {r : Result} {f : Fault} (h : finish r = .fault f) : r = .fault f := by
  cases r with
  | next st => cases h
  | fault g => exact h
  | refused g => cases h

theorem decimalGuard_ne_fault {st binary : State} {f : Fault} : decimalGuard st binary ≠ .fault f := by
  unfold decimalGuard
  split <;> nofun

theorem opBitOf_neverFaults (o : ReadMode) : NeverFaults (opBitOf o) := by
  cases o <;> exact fun _ _ _ => nofun

/-- A read faults under `STRICT_BUS` only, whatever its kind (20_memory.md R44). -/
theorem ReadCycle.perform_error {r : ReadCycle} {st : State} {f : Fault} (h : r.perform st = .error f) :
    st.cfg.strictBus = true := by
  cases r with
  | plain a | sync a | vec a => exact (readCycle_error h).2
  | dummy a =>
    have hs := (readCycle_error h).2
    rcases dummyAddress_state a st with hd | hd <;> rw [hd] at hs <;> exact hs

/-! ## The templates -/

namespace FaultsAsItsRead

variable {st : State}

/-! A read that goes on to a next state. -/

theorem busRead_next {address : Word} {k : Byte → State → State} :
    FaultsAsItsRead (Machine.busRead address st fun v u => .next (k v u)) (some (.plain address)) st :=
  busRead fun _ _ _ h => by cases h

theorem busSync_next {address : Word} {k : Byte → State → State} :
    FaultsAsItsRead (Machine.busSync address st fun v u => .next (k v u)) (some (.sync address)) st :=
  busSync fun _ _ _ h => by cases h

theorem busVec_next {address : Word} {k : Byte → State → State} :
    FaultsAsItsRead (Machine.busVec address st fun v u => .next (k v u)) (some (.vec address)) st :=
  busVec fun _ _ _ h => by cases h

theorem dummyRead_next {decided : Word} {k : State → State} :
    FaultsAsItsRead (Machine.dummyRead decided st fun u => .next (k u)) (some (.dummy decided)) st :=
  dummyRead fun _ _ h => by cases h

/-- A cycle without a read that ends in a fault of another kind. -/
theorem otherFault {f : Fault} (hf : f.isBusFault = false) : FaultsAsItsRead (.fault f) none st where
  faults _ _ h := by cases h
  only _ h hb := by cases h; cases hf.symm.trans hb

/-! The lines of each template. -/

theorem finish_noBusFault {op : Byte → State → Result} (hop : NeverFaults op) {m : Byte} {u : State} {f : Fault}
    (h : finish (op m u) = .fault f) : f.isBusFault = false := absurd (finish_fault h) (hop m u f)

theorem readTail {op : Byte → State → Result} (hop : NeverFaults op) (j : Nat) :
    FaultsAsItsRead (readTail op j st) (operandRead st j) st :=
  match j with
  | 0 => busRead fun _ _ _ h => finish_noBusFault hop h
  | _ + 1 => outOfDomain

theorem writeTail {val : State → Byte} (j : Nat) : FaultsAsItsRead (writeTail val j st) none st :=
  match j with
  | 0 => next
  | _ + 1 => outOfDomain

theorem rmwTail {f : Transform} (j : Nat) : FaultsAsItsRead (rmwTail f j st) (rmwRead st j) st :=
  match j with
  | 0 | 1 => busRead_next
  | 2 => next
  | _ + 3 => outOfDomain

theorem immediateCycles {op : Byte → State → Result} (hop : NeverFaults op) (n : Nat) :
    FaultsAsItsRead (immediateCycles op (n + 2) st) (immediateRead st (n + 2)) st :=
  match n with
  | 0 => busRead fun _ _ _ h => finish_noBusFault hop h
  | _ + 1 => outOfDomain

theorem impliedCycles {effect : State → State} (n : Nat) :
    FaultsAsItsRead (impliedCycles effect (n + 2) st) (impliedRead st (n + 2)) st :=
  match n with
  | 0 => dummyRead_next
  | _ + 1 => outOfDomain

theorem pushCycles {val : State → Byte} (n : Nat) :
    FaultsAsItsRead (pushCycles val (n + 2) st) (impliedRead st (n + 2)) st :=
  match n with
  | 0 => dummyRead_next
  | 1 => next
  | _ + 2 => outOfDomain

theorem pullCycles {effect : Byte → State → State} (n : Nat) :
    FaultsAsItsRead (pullCycles effect (n + 2) st) (pullRead st (n + 2)) st :=
  match n with
  | 0 | 1 => dummyRead_next
  | 2 => busRead_next
  | _ + 3 => outOfDomain

theorem haltCycles {into : StepReg} (n : Nat) :
    FaultsAsItsRead (haltCycles into (n + 2) st) (haltRead st (n + 2)) st :=
  match n with
  | 0 | 1 => dummyRead_next
  | _ + 2 => outOfDomain

theorem branchFixup {b : Bool} :
    FaultsAsItsRead (if b then branchFixup st else Machine.outOfDomain st)
      (if b then some (.dummy (cat (hiByte st.loc.old) (loByte st.pc))) else none) st := by
  cases b with
  | true => exact dummyRead_next
  | false => exact outOfDomain

theorem relativeCycles {cond : Flags → Bool} (n : Nat) :
    FaultsAsItsRead (relativeCycles cond (n + 2) st) (relativeRead st (n + 2)) st :=
  match n with
  | 0 => busRead_next
  | 1 => by
    simp only [Machine.relativeCycles, relativeRead]
    split
    · exact dummyRead_next
    · exact busSync_next
  | 2 => branchFixup
  | _ + 3 => outOfDomain

theorem branchBitCycles {k : Nat} {want : Bool} (n : Nat) :
    FaultsAsItsRead (branchBitCycles k want (n + 2) st) (bitBranchRead st (n + 2)) st :=
  match n with
  | 0 | 1 => busRead_next
  | 2 => dummyRead_next
  | 3 => busRead fun v u f h => by
    dsimp only at h
    split at h <;> cases h
  | 4 => branchFixup
  | _ + 5 => outOfDomain

theorem jmpAbsoluteCycles (n : Nat) :
    FaultsAsItsRead (jmpAbsoluteCycles (n + 2) st) (jmpAbsoluteRead st (n + 2)) st :=
  match n with
  | 0 | 1 => busRead_next
  | _ + 2 => outOfDomain

theorem jmpIndirectCycles {index : State → Word} (n : Nat) :
    FaultsAsItsRead (jmpIndirectCycles index (n + 2) st) (jmpIndirectRead st (n + 2)) st :=
  match n with
  | 0 | 1 | 3 | 4 => busRead_next
  | 2 => dummyRead_next
  | _ + 5 => outOfDomain

theorem jsrCycles (n : Nat) : FaultsAsItsRead (jsrCycles (n + 2) st) (jsrRead st (n + 2)) st :=
  match n with
  | 0 | 4 => busRead_next
  | 1 => dummyRead_next
  | 2 | 3 => next
  | _ + 5 => outOfDomain

theorem rtsCycles (n : Nat) : FaultsAsItsRead (rtsCycles (n + 2) st) (rtsRead st (n + 2)) st :=
  match n with
  | 0 | 1 | 4 => dummyRead_next
  | 2 | 3 => busRead_next
  | _ + 5 => outOfDomain

theorem returnCycle (n : Nat) : FaultsAsItsRead (returnCycle (n + 2) st) (returnRead st (n + 2)) st :=
  match n with
  | 0 | 1 => dummyRead_next
  | 2 | 3 | 4 => busRead_next
  | _ + 5 => outOfDomain

theorem brkCycles (n : Nat) : FaultsAsItsRead (brkCycles (n + 2) st) (brkRead st (n + 2)) st :=
  match n with
  | 0 => busRead_next
  | 1 | 2 | 3 => next
  | 4 | 5 => busVec_next
  | _ + 6 => outOfDomain

/-! The instructions by class: each runs its template. -/

theorem readInstr {i : Instr} {o : ReadMode} {op : Byte → State → Result} (hi : readAt i st = readModeRead o st)
    (hop : NeverFaults op) : FaultsAsItsRead (readInstr o op st) (readOf i st) st := by
  unfold readOf
  rw [hi]
  cases o with
  | imm => exact handler (immediateCycles hop)
  | mem m => exact handler (addressCycles (readTail hop))

theorem shiftInstr {i : Instr} {o : RmwMode} {fix : Fixup} {f : Transform} (hi : readAt i st = rmwModeRead o fix st) :
    FaultsAsItsRead (shiftInstr o fix f st) (readOf i st) st := by
  unfold readOf
  rw [hi]
  cases o with
  | acc => exact handler impliedCycles
  | mem m => exact handler (addressCycles rmwTail)

theorem execJmp {m : JmpMode} : FaultsAsItsRead (execJmp m st) (readOf (.jmp m) st) st :=
  match m with
  | .abs => handler jmpAbsoluteCycles
  | .ind | .iax => handler jmpIndirectCycles

/-- A reserved opcode reads nothing and ends in a fault that is not the bus's (60_exceptions.md R258, R259). -/
theorem execReserved {opcode : Byte} : FaultsAsItsRead (execReserved opcode st) (readOf (.reserved opcode) st) st := by
  have hread : readOf (.reserved opcode) st = none := by unfold readOf; split <;> rfl
  rw [hread]
  unfold Machine.execReserved
  split
  · exact otherFault rfl
  · exact otherFault rfl
  · exact outOfDomain

end FaultsAsItsRead

/-- 40_engine.md R127 (a): a cycle of any instruction ends in a fault of the bus exactly when its read does. -/
theorem exec_faultsAsItsRead (i : Instr) (st : State) : FaultsAsItsRead (exec i st) (readOf i st) st := by
  cases i with
  | lda o | ldx o | ldy o | ora o | and o | eor o | cmp o | cpx o | cpy o => exact .readInstr rfl fun _ _ _ h => by cases h
  | adc o | sbc o => exact .readInstr rfl fun _ _ _ => decimalGuard_ne_fault
  | bit o => exact .readInstr rfl (opBitOf_neverFaults o)
  | sta m | stx m | sty m | stz m => exact .handler (.addressCycles .writeTail)
  | asl o | lsr o | rol o | ror o | inc o | dec o => exact .shiftInstr rfl
  | tsb m | trb m => exact .handler (.addressCycles .rmwTail)
  | rmb0 | rmb1 | rmb2 | rmb3 | rmb4 | rmb5 | rmb6 | rmb7 => exact .handler (.addressCycles .rmwTail)
  | smb0 | smb1 | smb2 | smb3 | smb4 | smb5 | smb6 | smb7 => exact .handler (.addressCycles .rmwTail)
  | tax | tay | txa | tya | tsx | txs | inx | iny | dex | dey => exact .handler .impliedCycles
  | clc | sec | cli | sei | clv | cld | sed | nop => exact .handler .impliedCycles
  | bpl | bmi | bvc | bvs | bcc | bcs | bne | beq | bra => exact .handler .relativeCycles
  | bbr0 | bbr1 | bbr2 | bbr3 | bbr4 | bbr5 | bbr6 | bbr7 => exact .handler .branchBitCycles
  | bbs0 | bbs1 | bbs2 | bbs3 | bbs4 | bbs5 | bbs6 | bbs7 => exact .handler .branchBitCycles
  | jmp m => exact .execJmp
  | jsr => exact .handler .jsrCycles
  | rts => exact .handler .rtsCycles
  | pha | php | phx | phy => exact .handler .pushCycles
  | pla | plp | plx | ply => exact .handler .pullCycles
  | brk => exact .handler .brkCycles
  | rti => exact .handler .returnCycle
  | wai | stp => exact .handler .haltCycles
  | reserved b => exact .execReserved

/-! ## The sequences -/

namespace FaultsAsItsRead

variable {st : State}

/-- The reads of T6 and T7 of an entry are the vector's. -/
theorem entry {vector : Word} {b : Bool} (n : Nat) :
    FaultsAsItsRead (lineEntryCycle (entryCycle vector b) (n + 1) st) (sequenceRead vector false (n + 1) st) st :=
  match n with
  | 0 | 1 => dummyRead_next
  | 2 | 3 | 4 => next
  | 5 | 6 => busVec_next
  | _ + 7 => outOfDomain

theorem rstReads (n : Nat) :
    FaultsAsItsRead (lineEntryCycle rstReadCycle (n + 1) st) (sequenceRead 0xFFFC true (n + 1) st) st :=
  match n with
  | 0 | 1 | 2 | 3 | 4 => dummyRead_next
  | 5 | 6 => busVec_next
  | _ + 7 => outOfDomain

/-- The RST sequence is one of the two, by `RST_STACK_ACCESS` (60_exceptions.md R251). -/
theorem rst (n : Nat) :
    FaultsAsItsRead (lineEntryCycle rstCycle (n + 1) st)
      (sequenceRead 0xFFFC (decide (st.cfg.rstStackAccess = .read)) (n + 1) st) st :=
  match n with
  | 0 | 1 => dummyRead_next
  | n + 2 => by
    show FaultsAsItsRead (rstCycle (n + 3) st) _ st
    unfold rstCycle
    cases st.cfg.rstStackAccess with
    | read => exact rstReads (n + 2)
    | write => exact entry (n + 2)

end FaultsAsItsRead

/-- 40_engine.md R127 (a): the same of the handler that `IR` selects. -/
theorem runHandler_faultsAsItsRead (st : State) : FaultsAsItsRead (runHandler st) (handlerRead st) st := by
  unfold runHandler handlerRead
  cases st.ir with
  | opcode b => exact exec_faultsAsItsRead (decodeOpcode b) st
  | nmiOp | irqOp =>
    dsimp only [nmiSequence, irqSequence, pseudoHandler]
    cases st.stepReg with
    | executing n => exact .entry n
    | _ => exact .outOfDomain
  | rstOp =>
    dsimp only [rstSequence, pseudoHandler]
    cases st.stepReg with
    | executing n => exact .rst n
    | _ => exact .outOfDomain

/-! ## The opcode fetch -/

/-- With no line taken a cycle at `AwaitFetch` is the opcode fetch (40_engine.md R91 item 7, R93). -/
theorem step_fetches {st : State} (hs : st.stepReg = .awaitFetch) (hr : pollRst st = false) (hn : (pollNmi st).1 = false)
    (hi : (pollIrq st && !st.p.i) = false) : step st = finishCycle (fetchOpcode (pollNmi st).2) := by
  have hirq : (pollIrq (pollNmi st).2 && !(pollNmi st).2.p.i) = false := hi
  simp [step, dispatch, sampleInterrupts, hr, hs, hn, hirq]

theorem fetchOpcode_error {st : State} {f : Fault} (h : (ReadCycle.sync st.pc).perform st = .error f) :
    fetchOpcode st = .stop f := by
  have hread : readCycle true false st.pc st = .error f := h
  simp [fetchOpcode, hread]

/-- Settles O15: every cycle faults as its read, and a read by the number of drivers is `ReadResult` of R44. -/
theorem readResultByDriverCount : Obligations.ReadResultByDriverCount := by
  refine ⟨fun i s r f => (exec_faultsAsItsRead i s).faults r f, fun s r f => (runHandler_faultsAsItsRead s).faults r f,
    fun s f hs hr hn hi hf => ?_, fun i s f h hb => ?_, fun s => ⟨?_, ?_, ?_, ?_⟩⟩
  · rw [step_fetches hs hr hn hi, fetchOpcode_error hf, finishCycle]
  · obtain ⟨r, hr, hf⟩ := (exec_faultsAsItsRead i s).only f h hb
    exact ⟨ReadCycle.perform_error hf, r, hr, hf⟩
  · intro hn hs
    simp [readResult, hn, hs]
  · intro hn hs
    exact ⟨s.setBusSide { s.bus with data := s.cfg.undrivenValue } s.driven s.lines s.devices,
      by simp [readResult, hn, hs], rfl⟩
  · intro hn hs
    simp [readResult, hn, hs, show s.driven ≠ 0 by omega]
  · rintro (hn | ⟨hn, hs⟩)
    · simp [readResult, hn]
    · exact readResult_driven hs (by omega)

end Sys2Proof.Machine
end

section
/-! PROOFS. The memory frame (20_memory.md R45): a cycle of an instruction reads, or is the one write cycle that `storeOf` computes;
what follows its bus cycle touches no device. -/

namespace Sys2Proof.Machine

theorem State.ramByte_of_devices {t u : State} (h : t.devices = u.devices) (k : Nat) (a : Word) :
    t.ramByte k a = u.ramByte k a := by unfold State.ramByte; rw [h]

@[simp] theorem State.branchTo_devices (st : State) (off : Byte) : (st.branchTo off).devices = st.devices := rfl

@[simp] theorem State.branchEnd_devices (st : State) : st.branchEnd.devices = st.devices := by
  unfold State.branchEnd; split <;> simp

/-- From `s` to `t` the byte of `store`, if any, is stored in every RAM mapped at its address, and every other byte of every RAM
reads as before. -/
structure StoresOnly (store : Option (Word × Byte)) (s t : State) : Prop where
  other : ∀ k a, (∀ w v, store = some (w, v) → a ≠ w) → t.ramByte k a = s.ramByte k a
  stored : ∀ w v, store = some (w, v) → (∀ d ∈ s.devices, d.wf) →
    ∀ k old, s.ramByte k w = some old → t.ramByte k w = some v

/-- A cycle that at most reads, and then touches no device. -/
def OnlyReads (s t : State) : Prop := ∃ u, SameRam s u ∧ t.devices = u.devices

section
variable {i : Instr} {s t u : State} {k : Nat}

theorem Observed.onlyReads (e : Observed s u) (h : t.devices = u.devices) : OnlyReads s t := ⟨u, e.ram, h⟩

theorem Begins.onlyReads (h : Begins s t) : OnlyReads s t := ⟨s, .refl s, by rw [h.2]; rfl⟩

theorem FormsAddress.onlyReads {bound : Locals → Nat} (h : FormsAddress s bound k t) : OnlyReads s t := by
  obtain ⟨u, w, rfl, e, hw, -, -⟩ := h
  exact e.onlyReads (by simp [hw.devices])

theorem FormsAddress.lt {bound : Locals → Nat} (h : FormsAddress s bound k t) : k < bound s.loc := by
  obtain ⟨u, w, -, -, -, hlt, -⟩ := h
  exact hlt

theorem OnlyReads.storesOnly {store : Option (Word × Byte)} (h : OnlyReads s t) (hs : store = none) :
    StoresOnly store s t := by
  obtain ⟨u, hram, hdev⟩ := h
  subst hs
  exact ⟨fun k a _ => (State.ramByte_of_devices hdev k a).trans (hram k a), nofun⟩

/-- A write cycle, after which no device is touched. -/
theorem storesOnly_of_busWrite {store : Option (Word × Byte)} {address : Word} {v : Byte}
    (h : t.devices = (busWrite address v s).devices) (hs : store = some (address, v)) : StoresOnly store s t := by
  have e := busWrite_effect address v s
  subst hs
  refine ⟨fun k a ha => (State.ramByte_of_devices h k a).trans (e.other k a (ha address v rfl)),
    fun w v' hs hwf k old hold => ?_⟩
  cases hs
  exact (State.ramByte_of_devices h k address).trans (e.written hwf k old hold)

/-! ## Which cycle it is -/

/-- At Tk an instruction stores what `storeAt` gives for Tk. -/
theorem AtT.storeOf_eq (h : AtT k s) : storeOf i s = storeAt i k s := by
  obtain ⟨hk, hs⟩ := h
  rw [storeOf, hs]
  dsimp only
  rw [Nat.sub_add_cancel (by omega)]

theorem Begins.storeOf_eq (h : Begins s t) : storeOf i s = storeAt i 1 s := by
  rw [storeOf, h.1]

/-- An instruction with no write cycle, when its cycle only reads. -/
theorem OnlyReads.storesNothing (h : OnlyReads s t) (hi : ∀ k, storeAt i k s = none) : StoresOnly (storeOf i s) s t := by
  refine h.storesOnly ?_
  unfold storeOf
  split
  · exact hi _
  · rfl

/-! ## The templates that store nothing -/

theorem readInstr_onlyReads {o : ReadMode} {op : Byte → State → Result} (h : readInstr o op s = .next t)
    (hop : ∀ {m u v}, op m u = .next v → v.devices = u.devices) : OnlyReads s t := by
  rcases readInstr_next h with h | ⟨k, -, h⟩ | ⟨-, m, u, v, e, hv, rfl⟩
  · exact h.onlyReads
  · exact h.onlyReads
  · refine e.onlyReads ((hop hv).trans ?_)
    cases o <;> rfl

theorem impliedCycles_onlyReads {effect : State → State} (h : handler (impliedCycles effect) s = .next t)
    (heff : ∀ u, (effect u).devices = u.devices) : OnlyReads s t := by
  rcases impliedCycles_next h with h | ⟨-, u, e, rfl⟩
  · exact h.onlyReads
  · exact e.onlyReads (heff u)

theorem pullCycles_onlyReads {effect : Byte → State → State} (h : handler (pullCycles effect) s = .next t)
    (heff : ∀ v u, (effect v u).devices = u.devices) : OnlyReads s t := by
  rcases pullCycles_next h with h | ⟨-, u, e, rfl⟩ | ⟨-, u, e, rfl⟩ | ⟨-, v, u, e, rfl⟩
  · exact h.onlyReads
  · exact e.onlyReads (by simp)
  · exact e.onlyReads (by simp)
  · exact e.onlyReads (heff v u)

theorem haltCycles_onlyReads {into : StepReg} (h : handler (haltCycles into) s = .next t) : OnlyReads s t := by
  rcases haltCycles_next h with h | ⟨-, u, e, rfl⟩ | ⟨-, u, e, rfl⟩
  · exact h.onlyReads
  · exact e.onlyReads (by simp)
  · exact e.onlyReads rfl

theorem relativeCycles_onlyReads {cond : Flags → Bool} (h : handler (relativeCycles cond) s = .next t) : OnlyReads s t := by
  rcases relativeCycles_next h with h | ⟨-, v, u, e, rfl⟩ | ⟨-, -, u, e, rfl⟩ | ⟨-, -, v, u, e, rfl⟩ | ⟨-, -, -, u, e, rfl⟩
  · exact h.onlyReads
  · exact e.onlyReads (by simp)
  · exact e.onlyReads (by simp)
  · exact e.onlyReads rfl
  · exact e.onlyReads rfl

theorem branchBitCycles_onlyReads {n : Nat} {want : Bool} (h : handler (branchBitCycles n want) s = .next t) :
    OnlyReads s t := by
  rcases branchBitCycles_next h with
    h | ⟨-, v, u, e, rfl⟩ | ⟨-, v, u, e, rfl⟩ | ⟨-, u, e, rfl⟩ | ⟨-, v, u, e, rfl | rfl⟩ | ⟨-, -, u, e, rfl⟩
  · exact h.onlyReads
  · exact e.onlyReads (by simp)
  · exact e.onlyReads (by simp)
  · exact e.onlyReads (by simp)
  · exact e.onlyReads (by simp)
  · exact e.onlyReads rfl
  · exact e.onlyReads rfl

theorem execJmp_onlyReads {m : JmpMode} (h : execJmp m s = .next t) : OnlyReads s t := by
  rcases jmpCycles_next h with h | ⟨k, u, w, -, e, ⟨-, rfl⟩ | ⟨-, rfl⟩, hw⟩
  · exact h.onlyReads
  · exact e.onlyReads (by simp [hw.devices])
  · exact e.onlyReads hw.devices

theorem execRts_onlyReads (h : execRts s = .next t) : OnlyReads s t := by
  rcases rtsCycles_next h with
    h | ⟨-, u, e, rfl⟩ | ⟨-, u, e, rfl⟩ | ⟨-, v, u, e, rfl⟩ | ⟨-, v, u, e, rfl⟩ | ⟨-, u, e, rfl⟩
  · exact h.onlyReads
  · exact e.onlyReads (by simp)
  · exact e.onlyReads (by simp)
  · exact e.onlyReads (by simp)
  · exact e.onlyReads (by simp)
  · exact e.onlyReads rfl

theorem execRti_onlyReads (h : execRti s = .next t) : OnlyReads s t := by
  rcases returnCycle_next h with
    h | ⟨-, u, e, rfl⟩ | ⟨-, u, e, rfl⟩ | ⟨-, v, u, e, rfl⟩ | ⟨-, v, u, e, rfl⟩ | ⟨-, v, u, e, rfl⟩
  · exact h.onlyReads
  · exact e.onlyReads (by simp)
  · exact e.onlyReads (by simp)
  · exact e.onlyReads (by simp)
  · exact e.onlyReads (by simp)
  · exact e.onlyReads rfl

/-! ## The templates that store -/

/-- Class W stores in its last cycle, and the cycles before it are before it. -/
theorem writeInstr_storesOnly {m : AddrMode} {val : State → Byte}
    (hi : ∀ k, storeAt i k s = if k = writeLast m s.loc then some (s.ea, val s) else none)
    (h : writeInstr m val s = .next t) : StoresOnly (storeOf i s) s t := by
  have hlast : 3 ≤ writeLast m s.loc := dataCycle_ge m .always s.loc
  rcases writeInstr_next h with h | ⟨k, hk, h⟩ | ⟨hk, rfl⟩
  · exact h.onlyReads.storesOnly (by rw [h.storeOf_eq, hi, if_neg (by omega)])
  · have hlt : k < writeLast m s.loc := h.lt
    exact h.onlyReads.storesOnly (by rw [hk.storeOf_eq, hi, if_neg (by omega)])
  · exact storesOnly_of_busWrite rfl (by rw [hk.storeOf_eq, hi, if_pos rfl])

/-- Class M stores in the last cycle of its tail (40_engine.md R111). -/
theorem rmwInstr_storesOnly {m : AddrMode} {fix : Fixup} {f : Transform}
    (hi : ∀ k, storeAt i k s = if k = dataCycle m fix s.loc + 2 then some (s.ea, s.tmp) else none)
    (h : rmwInstr m fix f s = .next t) : StoresOnly (storeOf i s) s t := by
  rcases rmwInstr_next h with h | ⟨k, hk, h⟩ | ⟨hk, v, u, e, rfl⟩ | ⟨hk, u, e, rfl⟩ | ⟨hk, rfl⟩
  · exact h.onlyReads.storesOnly (by rw [h.storeOf_eq, hi, if_neg (by omega)])
  · have hlt : k < dataCycle m fix s.loc := h.lt
    exact h.onlyReads.storesOnly (by rw [hk.storeOf_eq, hi, if_neg (by omega)])
  · exact (e.onlyReads (by simp)).storesOnly (by rw [hk.storeOf_eq, hi, if_neg (by omega)])
  · exact (e.onlyReads (by simp [transformTmp])).storesOnly (by rw [hk.storeOf_eq, hi, if_neg (by omega)])
  · exact storesOnly_of_busWrite rfl (by rw [hk.storeOf_eq, hi, if_pos rfl])

/-- A push (R113) stores in T3. -/
theorem pushCycles_storesOnly {val : State → Byte}
    (hi : ∀ k, storeAt i k s = if k = 3 then some (s.stackAddress, val s) else none)
    (h : handler (pushCycles val) s = .next t) : StoresOnly (storeOf i s) s t := by
  rcases pushCycles_next h with h | ⟨hk, u, e, rfl⟩ | ⟨hk, rfl⟩
  · exact h.onlyReads.storesOnly (h.storeOf_eq.trans (hi 1))
  · exact (e.onlyReads (by simp)).storesOnly (hk.storeOf_eq.trans (hi 2))
  · exact storesOnly_of_busWrite rfl (hk.storeOf_eq.trans (hi 3))

theorem execJsr_storesOnly (h : execJsr s = .next t) : StoresOnly (storeOf .jsr s) s t := by
  rcases jsrCycles_next h with h | ⟨hk, v, u, e, rfl⟩ | ⟨hk, u, e, rfl⟩ | ⟨hk, rfl⟩ | ⟨hk, rfl⟩ | ⟨hk, v, u, e, rfl⟩
  · exact h.onlyReads.storesOnly h.storeOf_eq
  · exact (e.onlyReads (by simp)).storesOnly hk.storeOf_eq
  · exact (e.onlyReads (by simp)).storesOnly hk.storeOf_eq
  · exact storesOnly_of_busWrite (by simp [push_eq]) hk.storeOf_eq
  · exact storesOnly_of_busWrite (by simp [push_eq]) hk.storeOf_eq
  · exact (e.onlyReads (by simp)).storesOnly hk.storeOf_eq

theorem execBrk_storesOnly (h : execBrk s = .next t) : StoresOnly (storeOf .brk s) s t := by
  rcases brkCycles_next h with h | ⟨hk, u, e, rfl⟩ | ⟨k, hk, -, h⟩
  · exact h.onlyReads.storesOnly h.storeOf_eq
  · exact (e.onlyReads (by simp)).storesOnly hk.storeOf_eq
  · rcases entryCycle_next h with ⟨rfl, rfl⟩ | ⟨rfl, rfl⟩ | ⟨rfl, rfl⟩ | ⟨rfl, v, u, e, rfl⟩ | ⟨rfl, v, u, e, rfl⟩
    · exact storesOnly_of_busWrite (by simp [push_eq]) hk.storeOf_eq
    · exact storesOnly_of_busWrite (by simp [push_eq]) hk.storeOf_eq
    · exact storesOnly_of_busWrite (by simp [push_eq]) hk.storeOf_eq
    · exact (e.onlyReads (by simp [State.setPCL])).storesOnly hk.storeOf_eq
    · exact (e.onlyReads (by simp [State.setPCH])).storesOnly hk.storeOf_eq

/-- The accumulator form stores nothing, the memory forms are of class M. -/
theorem shiftInstr_storesOnly {o : RmwMode} {fix : Fixup} {f : Transform}
    (hacc : o = .acc → ∀ k, storeAt i k s = none)
    (hmem : ∀ m, o = .mem m → ∀ k, storeAt i k s = if k = dataCycle m fix s.loc + 2 then some (s.ea, s.tmp) else none)
    (h : shiftInstr o fix f s = .next t) : StoresOnly (storeOf i s) s t := by
  cases o with
  | acc => exact (impliedCycles_onlyReads h fun _ => rfl).storesNothing (hacc rfl)
  | mem m => exact rmwInstr_storesOnly (hmem m rfl) h

end

/-! ## Every instruction -/

theorem decimalGuard_devices {sum : Sum} {u v : State} (h : decimalGuard u (applySum sum u) = .next v) :
    v.devices = u.devices := by
  unfold decimalGuard at h
  split at h
  · cases h
  · cases h; rfl

theorem opBitOf_devices {o : ReadMode} {m : Byte} {u v : State} (h : opBitOf o m u = .next v) : v.devices = u.devices := by
  cases o <;> cases h <;> rfl

/-- 20_memory.md R45: a cycle of any instruction stores what `storeOf` computes, and nothing else. -/
theorem exec_storesOnly {i : Instr} {s t : State} (h : exec i s = .next t) : StoresOnly (storeOf i s) s t := by
  cases i with
  | lda o | ldx o | ldy o | ora o | and o | eor o | cmp o | cpx o | cpy o =>
    exact (readInstr_onlyReads h fun hv => by cases hv; rfl).storesNothing fun _ => rfl
  | adc o | sbc o => exact (readInstr_onlyReads h decimalGuard_devices).storesNothing fun _ => rfl
  | bit o => exact (readInstr_onlyReads h opBitOf_devices).storesNothing fun _ => rfl
  | sta m | stx m | sty m | stz m => exact writeInstr_storesOnly (fun _ => rfl) h
  | asl o | lsr o | rol o | ror o | inc o | dec o =>
    exact shiftInstr_storesOnly (by rintro rfl _; rfl) (by rintro m rfl _; rfl) h
  | tsb m | trb m => exact rmwInstr_storesOnly (fun _ => rfl) h
  | rmb0 | rmb1 | rmb2 | rmb3 | rmb4 | rmb5 | rmb6 | rmb7 => exact rmwInstr_storesOnly (fun _ => rfl) h
  | smb0 | smb1 | smb2 | smb3 | smb4 | smb5 | smb6 | smb7 => exact rmwInstr_storesOnly (fun _ => rfl) h
  | tax | tay | txa | tya | tsx | txs | inx | iny | dex | dey =>
    exact (impliedCycles_onlyReads h fun _ => rfl).storesNothing fun _ => rfl
  | clc | sec | cli | sei | clv | cld | sed | nop =>
    exact (impliedCycles_onlyReads h fun _ => rfl).storesNothing fun _ => rfl
  | bpl | bmi | bvc | bvs | bcc | bcs | bne | beq | bra => exact (relativeCycles_onlyReads h).storesNothing fun _ => rfl
  | bbr0 | bbr1 | bbr2 | bbr3 | bbr4 | bbr5 | bbr6 | bbr7 => exact (branchBitCycles_onlyReads h).storesNothing fun _ => rfl
  | bbs0 | bbs1 | bbs2 | bbs3 | bbs4 | bbs5 | bbs6 | bbs7 => exact (branchBitCycles_onlyReads h).storesNothing fun _ => rfl
  | jmp m => exact (execJmp_onlyReads h).storesNothing fun _ => rfl
  | jsr => exact execJsr_storesOnly h
  | rts => exact (execRts_onlyReads h).storesNothing fun _ => rfl
  | pha | php | phx | phy => exact pushCycles_storesOnly (fun _ => rfl) h
  | pla | plp | plx | ply => exact (pullCycles_onlyReads h fun _ _ => rfl).storesNothing fun _ => rfl
  | brk => exact execBrk_storesOnly h
  | rti => exact (execRti_onlyReads h).storesNothing fun _ => rfl
  | wai | stp => exact (haltCycles_onlyReads h).storesNothing fun _ => rfl
  | reserved b => exact absurd h execReserved_ne_next

/-- Settles O56: by the template of each instruction, at most one write cycle, of the byte `storeOf` computes. -/
theorem memoryFrame : Obligations.MemoryFrame := by
  intro i s t h
  have e := exec_storesOnly h
  exact ⟨e.other, e.stored⟩

end Sys2Proof.Machine
end

section
/-! PROOFS. The opcode table both ways (30_encoding.md R70, R73, R75): a well-formed instruction is selected by its opcode byte, and
every byte selects a well-formed instruction that has that byte. -/

namespace Sys2Proof

namespace Laws.OpcodeRoundTrip

theorem everyInstr : ∀ i, Statement i
  | .lda o => lda o | .ldx o => ldx o | .ldy o => ldy o
  | .sta m => sta m | .stx m => stx m | .sty m => sty m | .stz m => stz m
  | .tax => tax | .tay => tay | .txa => txa | .tya => tya | .tsx => tsx | .txs => txs
  | .ora o => ora o | .and o => and o | .eor o => eor o | .adc o => adc o | .sbc o => sbc o
  | .cmp o => cmp o | .cpx o => cpx o | .cpy o => cpy o | .bit o => bit o
  | .asl o => asl o | .lsr o => lsr o | .rol o => rol o | .ror o => ror o | .inc o => inc o | .dec o => dec o
  | .inx => inx | .iny => iny | .dex => dex | .dey => dey
  | .tsb m => tsb m | .trb m => trb m
  | .rmb0 => rmb0 | .rmb1 => rmb1 | .rmb2 => rmb2 | .rmb3 => rmb3
  | .rmb4 => rmb4 | .rmb5 => rmb5 | .rmb6 => rmb6 | .rmb7 => rmb7
  | .smb0 => smb0 | .smb1 => smb1 | .smb2 => smb2 | .smb3 => smb3
  | .smb4 => smb4 | .smb5 => smb5 | .smb6 => smb6 | .smb7 => smb7
  | .bpl => bpl | .bmi => bmi | .bvc => bvc | .bvs => bvs | .bcc => bcc | .bcs => bcs | .bne => bne | .beq => beq | .bra => bra
  | .bbr0 => bbr0 | .bbr1 => bbr1 | .bbr2 => bbr2 | .bbr3 => bbr3
  | .bbr4 => bbr4 | .bbr5 => bbr5 | .bbr6 => bbr6 | .bbr7 => bbr7
  | .bbs0 => bbs0 | .bbs1 => bbs1 | .bbs2 => bbs2 | .bbs3 => bbs3
  | .bbs4 => bbs4 | .bbs5 => bbs5 | .bbs6 => bbs6 | .bbs7 => bbs7
  | .jmp m => jmp m | .jsr => jsr | .rts => rts
  | .pha => pha | .php => php | .phx => phx | .phy => phy | .pla => pla | .plp => plp | .plx => plx | .ply => ply
  | .clc => clc | .sec => sec | .cli => cli | .sei => sei | .clv => clv | .cld => cld | .sed => sed
  | .nop => nop | .brk => brk | .rti => rti | .wai => wai | .stp => stp
  | .reserved b => reserved b

end Laws.OpcodeRoundTrip

theorem decodeOpcode_wf (b : Byte) : (decodeOpcode b).wf = true := by
  revert b
  decide +kernel

theorem opcodeOf_decodeOpcode (b : Byte) : opcodeOf (decodeOpcode b) = some b := by
  revert b
  decide +kernel

/-! ## Instructions with their operand bytes -/

theorem Asm.wf_iff {a : Asm} : a.wf = true ↔ a.instr.wf = true ∧ a.operand.count = a.instr.operandCount := by
  simp [Asm.wf]

theorem encode_of_opcodeOf {a : Asm} {op : Byte} (h : opcodeOf a.instr = some op) :
    encode a = some (op :: a.operand.bytes) := by
  simp [encode, h]

theorem decode_cons_eq_ok_iff {op : Byte} {tail rest : List Byte} {a : Asm} :
    decode (op :: tail) = .ok (a, rest) ↔
      decodeOpcode op = a.instr ∧ a.operand.count = a.instr.operandCount ∧ tail = a.operand.bytes ++ rest := by
  obtain ⟨i, o⟩ := a
  constructor
  · intro h
    simp only [decode] at h
    split at h
    · next hn => cases h; exact ⟨rfl, hn.symm, rfl⟩
    · next hn => cases h; exact ⟨rfl, hn.symm, rfl⟩
    · next hn => cases h; exact ⟨rfl, hn.symm, rfl⟩
    · cases h
  · rintro ⟨rfl, hn, rfl⟩
    cases o <;> simp only [decode, ← hn, OperandBytes.count, OperandBytes.bytes, List.cons_append, List.nil_append]

/-- Settles O1: the opcode byte selects the instruction, and its operand bytes are as many as the decoder takes. -/
theorem decodeEncodeAgree : Obligations.DecodeEncodeAgree := by
  intro a rest h
  obtain ⟨hi, hcount⟩ := Asm.wf_iff.mp h
  obtain ⟨op, hop, hsel⟩ := Laws.OpcodeRoundTrip.everyInstr a.instr hi
  exact ⟨op :: a.operand.bytes, encode_of_opcodeOf hop, decode_cons_eq_ok_iff.mpr ⟨hsel, hcount, rfl⟩⟩

/-- Settles O2: the bytes taken are the opcode byte and the operand bytes, and the opcode byte is that of what it selects. -/
theorem decodedBytesEncodeBack : Obligations.DecodedBytesEncodeBack := by
  intro bytes rest a h
  cases bytes with
  | nil => cases h
  | cons op tail =>
    obtain ⟨hsel, hcount, rfl⟩ := decode_cons_eq_ok_iff.mp h
    have hwf : a.instr.wf = true := hsel ▸ decodeOpcode_wf op
    have hop : opcodeOf a.instr = some op := hsel ▸ opcodeOf_decodeOpcode op
    exact ⟨Asm.wf_iff.mpr ⟨hwf, hcount⟩, op :: a.operand.bytes, encode_of_opcodeOf hop, rfl⟩

/-- Settles O3: ten words read off the matrix. -/
theorem sampleWordsDecode : Obligations.SampleWordsDecode :=
  ⟨rfl, rfl, rfl, rfl, rfl, rfl, rfl, rfl, rfl, rfl⟩

end Sys2Proof
end

section
/-! PROOFS. Fields of the encoding (30_encoding.md R72, R74): the bit number and the sense in an opcode, the offset of a branch. -/

namespace Sys2Proof

/-- Settles O4: for each sense and each of the eight bit numbers, the two opcodes select the two instructions of that bit. -/
theorem bitNumberField : Obligations.BitNumberField := by
  intro set n s
  obtain ⟨bit⟩ := n
  rcases BitVec.eq_zero_or_eq_one set with rfl | rfl
  · fin_cases bit <;> exact ⟨rfl, rfl⟩
  · fin_cases bit <;> exact ⟨rfl, rfl⟩

theorem sext16_toNat (off : Byte) : ((sext16 off).toNat : Int) = off.toInt % 65536 := by
  simp only [sext16, BitVec.signExtend, BitVec.toNat_ofInt]
  omega

theorem branchTarget_toNat (opcodeAddr len : Word) (off : Byte) :
    ((branchTarget (opcodeAddr + len) off).toNat : Int) = ((opcodeAddr.toNat : Int) + len.toNat + off.toInt) % 65536 := by
  simp only [branchTarget, BitVec.toNat_add, Int.natCast_emod, Int.natCast_add, sext16_toNat, Nat.cast_pow, Nat.cast_ofNat]
  omega

/-- Settles O5: the target is the address after the instruction plus the offset, and each sum is modulo 65536. -/
theorem branchTargetReach : Obligations.BranchTargetReach := by
  intro b zp off i
  constructor
  · intro hrel
    have target : Asm.target ⟨i, .one off⟩ b = some (branchTarget (b + 2) off) := by simp only [Asm.target, hrel]
    rw [target, Option.map_some, branchTarget_toNat]
    rfl
  · intro hzpr
    have target : Asm.target ⟨i, .two zp off⟩ b = some (branchTarget (b + 3) off) := by simp only [Asm.target, hzpr]
    rw [target, Option.map_some, branchTarget_toNat]
    rfl

end Sys2Proof
end

section
/-! PROOFS. How one cycle of a handler moves the step register (40_engine.md R92, R96, R126), and that it keeps the surroundings
well formed. A cycle is at most one bus cycle, then an update of the CPU, then the count: one cycle on, or out of the template. -/

namespace Sys2Proof.Machine

/-- The step register and `IR` after cycle T = `n` + 1 of a template of `last` cycles that began with `IR` at `ir`. -/
inductive Moves (last n : Nat) (ir : IReg) (t : State) : Prop where
  | on (before : n + 1 < last) (step : t.stepReg = .executing (n + 1)) (same : t.ir = ir)
  | out (atEnd : last ≤ n + 1) (step : ∀ k, t.stepReg ≠ .executing k)
      (prefetched : t.stepReg = .awaitPipelinedFetch → ∃ b, t.ir = .opcode b)

/-- One cycle, from `s` to `t`, of a template with as many cycles as `last` says of the intermediates it has found. -/
structure TemplateCycle (last : Locals → Nat) (s t : State) : Prop where
  moves : ∃ n, s.stepReg = .executing n ∧ Moves (last t.loc) n s.ir t
  wf : SurroundingsWf s → SurroundingsWf t

/-- `w` differs from `u` in registers, flags, scratch values and intermediates only. -/
structure SameHandler (u w : State) : Prop where
  ir : w.ir = u.ir
  stepReg : w.stepReg = u.stepReg
  bus : w.bus = u.bus
  lines : w.lines = u.lines
  devices : w.devices = u.devices

theorem SameHandler.refl (u : State) : SameHandler u u := ⟨rfl, rfl, rfl, rfl, rfl⟩

theorem SameButAddress.sameHandler {u w : State} (h : SameButAddress u w) : SameHandler u w :=
  ⟨h.ir, h.stepReg, h.bus, h.lines, h.devices⟩

theorem surroundingsWf_of_eq {u t : State} (h : SurroundingsWf u) (hb : t.bus = u.bus) (hl : t.lines = u.lines)
    (hd : t.devices = u.devices) : SurroundingsWf t := by
  unfold SurroundingsWf; rw [hb, hl, hd]; exact h

/-- The bus cycle of a handler's cycle, if it has one: the CPU is as before, the surroundings stay well formed. -/
structure BusPart (s u : State) : Prop where
  cpu : SameCpu s u
  wf : SurroundingsWf s → SurroundingsWf u

theorem Observed.busPart {s u : State} (e : Observed s u) : BusPart s u :=
  ⟨e.cpu, fun ⟨hd, hl, _⟩ => e.wf ⟨hd, hl⟩⟩

theorem busPart_busWrite (address : Word) (v : Byte) (s : State) : BusPart s (busWrite address v s) :=
  have e := busWrite_effect address v s
  ⟨e.cpu, fun ⟨hd, hl, _⟩ => e.wf ⟨hd, hl⟩⟩

section
variable {last : Locals → Nat} {s t u w : State} {k : Nat}

/-! ## The three ways a cycle can end -/

/-- The first cycle, in which the fetch has been, only counts itself. -/
theorem Begins.templateCycle (h : Begins s t) (hlast : 2 ≤ last s.loc) : TemplateCycle last s t := by
  obtain ⟨hs, rfl⟩ := h
  exact ⟨⟨0, hs, .on hlast rfl rfl⟩, id⟩

/-- A cycle before the last, numbered `n` + 1. -/
theorem BusPart.goesOn {n : Nat} (e : BusPart s u) (h : SameHandler u w) (hs : s.stepReg = .executing n)
    (hlt : n + 1 < last w.loc) : TemplateCycle last s w.nextCycle := by
  have hw : w.stepReg = .executing n := (h.stepReg.trans e.cpu.stepReg).trans hs
  rw [State.nextCycle_eq w n hw]
  exact ⟨⟨n, hs, .on hlt rfl (h.ir.trans e.cpu.ir)⟩, fun hwf => surroundingsWf_of_eq (e.wf hwf) h.bus h.lines h.devices⟩

/-- The last cycle, which leaves the step register at a value that is no cycle of a handler and no prefetch. -/
theorem BusPart.leaves {n : Nat} {into : StepReg} (e : BusPart s u) (h : SameHandler u w) (hs : s.stepReg = .executing n)
    (hle : last w.loc ≤ n + 1) (hinto : ∀ k, into ≠ .executing k) (hfetch : into ≠ .awaitPipelinedFetch) :
    TemplateCycle last s (w.setStep into) :=
  ⟨⟨n, hs, .out hle hinto fun h => absurd h hfetch⟩, fun hwf => surroundingsWf_of_eq (e.wf hwf) h.bus h.lines h.devices⟩

/-- The last cycle, ended by "done". -/
theorem BusPart.ends {n : Nat} (e : BusPart s u) (h : SameHandler u w) (hs : s.stepReg = .executing n)
    (hle : last w.loc ≤ n + 1) : TemplateCycle last s w.done := e.leaves h hs hle nofun nofun

/-- A cycle that forms an address stands before the data cycle it finds. -/
theorem FormsAddress.templateCycle {bound : Locals → Nat} (h : FormsAddress s bound k t) (hk : AtT k s)
    (hlast : ∀ loc, bound loc ≤ last loc) : TemplateCycle last s t := by
  obtain ⟨u, w, rfl, e, hw, -, hle⟩ := h
  have hbound := hlast w.loc
  obtain ⟨hk2, hs⟩ := hk
  exact e.busPart.goesOn hw.sameHandler hs (by omega)

/-! ## The templates -/

/-- What follows the operand read of a class R instruction is no part of the count. -/
theorem readInstr_templateCycle {o : ReadMode} {op : Byte → State → Result}
    (hop : ∀ {m u v}, op m u = .next v → SameHandler u v ∧ v.loc = u.loc) (h : readInstr o op s = .next t) :
    TemplateCycle (readLast o) s t := by
  rcases readInstr_next h with h | ⟨k, hk, h⟩ | ⟨hk, m, u, v, e, hv, rfl⟩
  · refine h.templateCycle ?_
    cases o with
    | imm => exact Nat.le_refl 2
    | mem md => exact Nat.le_of_succ_le (dataCycle_ge md .onCross s.loc)
  · exact h.templateCycle hk fun _ => Nat.le_refl _
  · obtain ⟨hsame, hloc⟩ := hop hv
    have hafter : SameHandler u (afterOperand o u) ∧ (afterOperand o u).loc = u.loc := by
      cases o <;> exact ⟨⟨rfl, rfl, rfl, rfl, rfl⟩, rfl⟩
    obtain ⟨hpc, hpcloc⟩ := hafter
    have hboth : SameHandler u v := ⟨hsame.ir.trans hpc.ir, hsame.stepReg.trans hpc.stepReg, hsame.bus.trans hpc.bus,
      hsame.lines.trans hpc.lines, hsame.devices.trans hpc.devices⟩
    have hl : v.loc = s.loc := (hloc.trans hpcloc).trans e.cpu.loc
    obtain ⟨hk2, hs⟩ := hk
    exact e.busPart.ends hboth hs (by rw [hl]; omega)

theorem writeInstr_templateCycle {m : AddrMode} {val : State → Byte} (h : writeInstr m val s = .next t) :
    TemplateCycle (writeLast m) s t := by
  rcases writeInstr_next h with h | ⟨k, hk, h⟩ | ⟨hk, rfl⟩
  · exact h.templateCycle (Nat.le_of_succ_le (dataCycle_ge m .always s.loc))
  · exact h.templateCycle hk fun _ => Nat.le_refl _
  · have e := busPart_busWrite s.ea (val s) s
    obtain ⟨hk2, hs⟩ := hk
    exact e.ends (.refl _) hs (by rw [e.cpu.loc]; omega)

theorem rmwInstr_templateCycle {m : AddrMode} {fix : Fixup} {f : Transform} (h : rmwInstr m fix f s = .next t) :
    TemplateCycle (rmwLast m fix) s t := by
  have hge := dataCycle_ge m fix s.loc
  rcases rmwInstr_next h with h | ⟨k, hk, h⟩ | ⟨⟨-, hs⟩, v, u, e, rfl⟩ | ⟨⟨-, hs⟩, u, e, rfl⟩ | ⟨⟨-, hs⟩, rfl⟩
  · exact h.templateCycle (by unfold rmwLast; omega)
  · exact h.templateCycle hk fun _ => by unfold rmwLast; omega
  · exact e.busPart.goesOn ⟨rfl, rfl, rfl, rfl, rfl⟩ hs (by simp only [rmwLast, State.setTMP_loc, e.cpu.loc]; omega)
  · exact e.busPart.goesOn ⟨rfl, rfl, rfl, rfl, rfl⟩ hs
      (by simp only [rmwLast, transformTmp, State.setP_loc, State.setTMP_loc, e.cpu.loc]; omega)
  · have e := busPart_busWrite s.ea s.tmp s
    exact e.ends (.refl _) hs (by simp only [rmwLast, e.cpu.loc]; omega)

theorem impliedCycles_templateCycle {effect : State → State} (h : handler (impliedCycles effect) s = .next t)
    (heff : ∀ u, SameHandler u (effect u)) : TemplateCycle (fun _ => 2) s t := by
  rcases impliedCycles_next h with h | ⟨hk, u, e, rfl⟩
  · exact h.templateCycle (Nat.le_refl 2)
  · exact e.busPart.ends (heff u) hk.stepReg (Nat.le_refl 2)

theorem shiftInstr_templateCycle {o : RmwMode} {fix : Fixup} {f : Transform} (h : shiftInstr o fix f s = .next t) :
    TemplateCycle (shiftLast o fix) s t := by
  cases o with
  | acc => exact impliedCycles_templateCycle h fun _ => ⟨rfl, rfl, rfl, rfl, rfl⟩
  | mem m => exact rmwInstr_templateCycle h

theorem pushCycles_templateCycle {val : State → Byte} (h : handler (pushCycles val) s = .next t) :
    TemplateCycle (fun _ => 3) s t := by
  rcases pushCycles_next h with h | ⟨hk, u, e, rfl⟩ | ⟨hk, rfl⟩
  · exact h.templateCycle (by decide)
  · exact e.busPart.goesOn (.refl u) hk.stepReg (by decide)
  · exact (busPart_busWrite _ _ s).ends ⟨rfl, rfl, rfl, rfl, rfl⟩ hk.stepReg (by decide)

theorem pullCycles_templateCycle {effect : Byte → State → State} (h : handler (pullCycles effect) s = .next t)
    (heff : ∀ v u, SameHandler u (effect v u)) : TemplateCycle (fun _ => 4) s t := by
  rcases pullCycles_next h with h | ⟨hk, u, e, rfl⟩ | ⟨hk, u, e, rfl⟩ | ⟨hk, v, u, e, rfl⟩
  · exact h.templateCycle (by decide)
  · exact e.busPart.goesOn (.refl u) hk.stepReg (by decide)
  · exact e.busPart.goesOn ⟨rfl, rfl, rfl, rfl, rfl⟩ hk.stepReg (by decide)
  · exact e.busPart.ends (heff v u) hk.stepReg (by decide)

theorem haltCycles_templateCycle {into : StepReg} (h : handler (haltCycles into) s = .next t)
    (hinto : ∀ k, into ≠ .executing k) (hfetch : into ≠ .awaitPipelinedFetch) : TemplateCycle (fun _ => 3) s t := by
  rcases haltCycles_next h with h | ⟨hk, u, e, rfl⟩ | ⟨hk, u, e, rfl⟩
  · exact h.templateCycle (by decide)
  · exact e.busPart.goesOn (.refl u) hk.stepReg (by decide)
  · exact e.busPart.leaves (.refl u) hk.stepReg (by decide) hinto hfetch

/-! ## Branches: the page cross decides whether there is one more cycle -/

/-- The end of a taken branch's cycle, in a template whose one more cycle is for a page cross. -/
theorem BusPart.branchEnd {n : Nat} (e : BusPart s u) (h : SameHandler u w) (hs : s.stepReg = .executing n)
    (hlast : last w.loc = if w.loc.crossed then n + 2 else n + 1) : TemplateCycle last s w.branchEnd := by
  unfold State.branchEnd
  split
  · next hc => exact e.goesOn h hs (by rw [hlast, if_pos hc]; omega)
  · next hc => exact e.ends h hs (by rw [hlast, if_neg hc])

/-- The number of the last cycle of a relative branch (R115, R126). -/
def relativeLast (loc : Locals) : Nat := if loc.taken && loc.crossed then 4 else 3

/-- The number of the last cycle of a branch on bit (R116, R126). -/
def branchBitLast (loc : Locals) : Nat := if loc.crossed then 6 else 5

theorem relativeLast_ge (loc : Locals) : 3 ≤ relativeLast loc := by unfold relativeLast; split <;> decide

theorem branchBitLast_ge (loc : Locals) : 5 ≤ branchBitLast loc := by unfold branchBitLast; split <;> decide

theorem relativeCycles_templateCycle {cond : Flags → Bool} (h : handler (relativeCycles cond) s = .next t) :
    TemplateCycle relativeLast s t := by
  rcases relativeCycles_next h with
    h | ⟨hk, v, u, e, rfl⟩ | ⟨hk, ht, u, e, rfl⟩ | ⟨hk, ht, v, u, e, rfl⟩ | ⟨hk, ht, hc, u, e, rfl⟩
  · exact h.templateCycle (Nat.le_of_succ_le (relativeLast_ge s.loc))
  · exact e.busPart.goesOn ⟨rfl, rfl, rfl, rfl, rfl⟩ hk.stepReg (relativeLast_ge _)
  · refine e.busPart.branchEnd ⟨rfl, rfl, rfl, rfl, rfl⟩ hk.stepReg ?_
    simp [relativeLast, State.branchTo, e.cpu.loc, ht]
  · have hlast : relativeLast u.loc ≤ 3 := by simp [relativeLast, e.cpu.loc, ht]
    exact ⟨⟨2, hk.stepReg, .out hlast nofun fun _ => ⟨v, rfl⟩⟩, e.busPart.wf⟩
  · exact e.busPart.ends (.refl u) hk.stepReg (by simp [relativeLast, e.cpu.loc, ht, hc])

theorem branchBitCycles_templateCycle {n : Nat} {want : Bool} (h : handler (branchBitCycles n want) s = .next t) :
    TemplateCycle branchBitLast s t := by
  rcases branchBitCycles_next h with
    h | ⟨hk, v, u, e, rfl⟩ | ⟨hk, v, u, e, rfl⟩ | ⟨hk, u, e, rfl⟩ | ⟨hk, v, u, e, rfl | rfl⟩ | ⟨hk, hc, u, e, rfl⟩
  · exact h.templateCycle (Nat.le_trans (by decide) (branchBitLast_ge s.loc))
  · exact e.busPart.goesOn ⟨rfl, rfl, rfl, rfl, rfl⟩ hk.stepReg (Nat.lt_of_lt_of_le (by decide) (branchBitLast_ge _))
  · exact e.busPart.goesOn ⟨rfl, rfl, rfl, rfl, rfl⟩ hk.stepReg (Nat.lt_of_lt_of_le (by decide) (branchBitLast_ge _))
  · exact e.busPart.goesOn (.refl u) hk.stepReg (branchBitLast_ge _)
  · exact e.busPart.branchEnd ⟨rfl, rfl, rfl, rfl, rfl⟩ hk.stepReg rfl
  · exact e.busPart.ends ⟨rfl, rfl, rfl, rfl, rfl⟩ hk.stepReg (Nat.le_refl 5)
  · exact e.busPart.ends (.refl u) hk.stepReg (by simp [branchBitLast, e.cpu.loc, hc])

/-! ## Control flow, exceptions -/

theorem execJmp_templateCycle {m : JmpMode} (h : execJmp m s = .next t) : TemplateCycle (lastCycle (.jmp m)) s t := by
  have hconst : ∀ loc, lastCycle (.jmp m) loc = lastCycle (.jmp m) s.loc := by cases m <;> exact fun _ => rfl
  rcases jmpCycles_next h with h | ⟨k, u, w, ⟨hk, hs⟩, e, ⟨hlt, rfl⟩ | ⟨rfl, rfl⟩, hw⟩
  · exact h.templateCycle (by cases m <;> simp [lastCycle])
  · exact e.busPart.goesOn hw.sameHandler hs (by rw [hconst]; omega)
  · exact e.busPart.ends hw.sameHandler hs (by rw [hconst]; omega)

theorem execJsr_templateCycle (h : execJsr s = .next t) : TemplateCycle (fun _ => 6) s t := by
  rcases jsrCycles_next h with h | ⟨hk, v, u, e, rfl⟩ | ⟨hk, u, e, rfl⟩ | ⟨hk, rfl⟩ | ⟨hk, rfl⟩ | ⟨hk, v, u, e, rfl⟩
  · exact h.templateCycle (by decide)
  · exact e.busPart.goesOn ⟨rfl, rfl, rfl, rfl, rfl⟩ hk.stepReg (by decide)
  · exact e.busPart.goesOn (.refl u) hk.stepReg (by decide)
  · exact (busPart_busWrite _ _ s).goesOn ⟨rfl, rfl, rfl, rfl, rfl⟩ hk.stepReg (by decide)
  · exact (busPart_busWrite _ _ s).goesOn ⟨rfl, rfl, rfl, rfl, rfl⟩ hk.stepReg (by decide)
  · exact e.busPart.ends ⟨rfl, rfl, rfl, rfl, rfl⟩ hk.stepReg (by decide)

theorem execRts_templateCycle (h : execRts s = .next t) : TemplateCycle (fun _ => 6) s t := by
  rcases rtsCycles_next h with
    h | ⟨hk, u, e, rfl⟩ | ⟨hk, u, e, rfl⟩ | ⟨hk, v, u, e, rfl⟩ | ⟨hk, v, u, e, rfl⟩ | ⟨hk, u, e, rfl⟩
  · exact h.templateCycle (by decide)
  · exact e.busPart.goesOn (.refl u) hk.stepReg (by decide)
  · exact e.busPart.goesOn ⟨rfl, rfl, rfl, rfl, rfl⟩ hk.stepReg (by decide)
  · exact e.busPart.goesOn ⟨rfl, rfl, rfl, rfl, rfl⟩ hk.stepReg (by decide)
  · exact e.busPart.goesOn ⟨rfl, rfl, rfl, rfl, rfl⟩ hk.stepReg (by decide)
  · exact e.busPart.ends ⟨rfl, rfl, rfl, rfl, rfl⟩ hk.stepReg (by decide)

theorem execRti_templateCycle (h : execRti s = .next t) : TemplateCycle (fun _ => 6) s t := by
  rcases returnCycle_next h with
    h | ⟨hk, u, e, rfl⟩ | ⟨hk, u, e, rfl⟩ | ⟨hk, v, u, e, rfl⟩ | ⟨hk, v, u, e, rfl⟩ | ⟨hk, v, u, e, rfl⟩
  · exact h.templateCycle (by decide)
  · exact e.busPart.goesOn (.refl u) hk.stepReg (by decide)
  · exact e.busPart.goesOn ⟨rfl, rfl, rfl, rfl, rfl⟩ hk.stepReg (by decide)
  · exact e.busPart.goesOn ⟨rfl, rfl, rfl, rfl, rfl⟩ hk.stepReg (by decide)
  · exact e.busPart.goesOn ⟨rfl, rfl, rfl, rfl, rfl⟩ hk.stepReg (by decide)
  · exact e.busPart.ends ⟨rfl, rfl, rfl, rfl, rfl⟩ hk.stepReg (by decide)

/-- T3 to T7 of an entry, at the step register's own cycle. -/
theorem entryCycle_templateCycle {vector : Word} {b : Bool} {n : Nat} (hs : s.stepReg = .executing n)
    (h : entryCycle vector b (n + 1) s = .next t) : TemplateCycle (fun _ => 7) s t := by
  rcases entryCycle_next h with ⟨hn, rfl⟩ | ⟨hn, rfl⟩ | ⟨hn, rfl⟩ | ⟨hn, v, u, e, rfl⟩ | ⟨hn, v, u, e, rfl⟩
  · exact (busPart_busWrite _ _ s).goesOn ⟨rfl, rfl, rfl, rfl, rfl⟩ hs (by omega)
  · exact (busPart_busWrite _ _ s).goesOn ⟨rfl, rfl, rfl, rfl, rfl⟩ hs (by omega)
  · exact (busPart_busWrite _ _ s).goesOn ⟨rfl, rfl, rfl, rfl, rfl⟩ hs (by omega)
  · exact e.busPart.goesOn ⟨rfl, rfl, rfl, rfl, rfl⟩ hs (by omega)
  · exact e.busPart.ends ⟨rfl, rfl, rfl, rfl, rfl⟩ hs (by omega)

theorem execBrk_templateCycle (h : execBrk s = .next t) : TemplateCycle (fun _ => 7) s t := by
  rcases brkCycles_next h with h | ⟨hk, u, e, rfl⟩ | ⟨k, ⟨hk, hs⟩, -, h⟩
  · exact h.templateCycle (by decide)
  · exact e.busPart.goesOn ⟨rfl, rfl, rfl, rfl, rfl⟩ hk.stepReg (by decide)
  · exact entryCycle_templateCycle hs (by rwa [Nat.sub_add_cancel (by omega)])

theorem rstCycle_templateCycle {n : Nat} (hs : s.stepReg = .executing n) (h : rstCycle (n + 1) s = .next t) :
    TemplateCycle (fun _ => 7) s t := by
  unfold rstCycle at h
  split at h
  · rcases rstReadCycle_next h with ⟨hn, u, e, rfl⟩ | ⟨hn, u, e, rfl⟩ | ⟨hn, v, u, e, rfl⟩ | ⟨hn, v, u, e, rfl⟩
    · exact e.busPart.goesOn ⟨rfl, rfl, rfl, rfl, rfl⟩ hs (by omega)
    · exact e.busPart.goesOn ⟨rfl, rfl, rfl, rfl, rfl⟩ hs (by omega)
    · exact e.busPart.goesOn ⟨rfl, rfl, rfl, rfl, rfl⟩ hs (by omega)
    · exact e.busPart.ends ⟨rfl, rfl, rfl, rfl, rfl⟩ hs (by omega)
  · exact entryCycle_templateCycle hs h

/-- The three sequences: two discarded reads, then T3 to T7. -/
theorem sequence_templateCycle {rest : Nat → State → Result}
    (hrest : ∀ {n}, s.stepReg = .executing n → rest (n + 1) s = .next t → TemplateCycle (fun _ => 7) s t)
    (h : pseudoHandler (lineEntryCycle rest) s = .next t) : TemplateCycle (fun _ => 7) s t := by
  obtain ⟨n, hs, h⟩ := pseudoHandler_next h
  rcases lineEntryCycle_next h with ⟨hn, u, e, rfl⟩ | ⟨-, -, h⟩
  · exact e.busPart.goesOn (.refl u) hs (by omega)
  · exact hrest hs h

end

/-! ## Every instruction, every handler -/

theorem decimalGuard_sameHandler {sum : Sum} {u v : State} (h : decimalGuard u (applySum sum u) = .next v) :
    SameHandler u v ∧ v.loc = u.loc := by
  unfold decimalGuard at h
  split at h
  · cases h
  · cases h; exact ⟨⟨rfl, rfl, rfl, rfl, rfl⟩, rfl⟩

theorem opBitOf_sameHandler {o : ReadMode} {m : Byte} {u v : State} (h : opBitOf o m u = .next v) :
    SameHandler u v ∧ v.loc = u.loc := by
  cases o <;> cases h <;> exact ⟨⟨rfl, rfl, rfl, rfl, rfl⟩, rfl⟩

/-- 40_engine.md R126: a cycle of any instruction is one of a template that ends where `lastCycle` says. -/
theorem exec_templateCycle {i : Instr} {s t : State} (h : exec i s = .next t) : TemplateCycle (lastCycle i) s t := by
  cases i with
  | lda o | ldx o | ldy o | ora o | and o | eor o | cmp o | cpx o | cpy o =>
    exact readInstr_templateCycle (fun hv => by cases hv; exact ⟨⟨rfl, rfl, rfl, rfl, rfl⟩, rfl⟩) h
  | adc o | sbc o => exact readInstr_templateCycle decimalGuard_sameHandler h
  | bit o => exact readInstr_templateCycle opBitOf_sameHandler h
  | sta m | stx m | sty m | stz m => exact writeInstr_templateCycle h
  | asl o | lsr o | rol o | ror o | inc o | dec o => exact shiftInstr_templateCycle h
  | tsb m | trb m => exact rmwInstr_templateCycle h
  | rmb0 | rmb1 | rmb2 | rmb3 | rmb4 | rmb5 | rmb6 | rmb7 => exact rmwInstr_templateCycle h
  | smb0 | smb1 | smb2 | smb3 | smb4 | smb5 | smb6 | smb7 => exact rmwInstr_templateCycle h
  | tax | tay | txa | tya | tsx | txs | inx | iny | dex | dey =>
    exact impliedCycles_templateCycle h fun _ => ⟨rfl, rfl, rfl, rfl, rfl⟩
  | clc | sec | cli | sei | clv | cld | sed | nop =>
    exact impliedCycles_templateCycle h fun _ => ⟨rfl, rfl, rfl, rfl, rfl⟩
  | bpl | bmi | bvc | bvs | bcc | bcs | bne | beq | bra => exact relativeCycles_templateCycle h
  | bbr0 | bbr1 | bbr2 | bbr3 | bbr4 | bbr5 | bbr6 | bbr7 => exact branchBitCycles_templateCycle h
  | bbs0 | bbs1 | bbs2 | bbs3 | bbs4 | bbs5 | bbs6 | bbs7 => exact branchBitCycles_templateCycle h
  | jmp m => exact execJmp_templateCycle h
  | jsr => exact execJsr_templateCycle h
  | rts => exact execRts_templateCycle h
  | pha | php | phx | phy => exact pushCycles_templateCycle h
  | pla | plp | plx | ply => exact pullCycles_templateCycle h fun _ _ => ⟨rfl, rfl, rfl, rfl, rfl⟩
  | brk => exact execBrk_templateCycle h
  | rti => exact execRti_templateCycle h
  | wai | stp => exact haltCycles_templateCycle h nofun nofun
  | reserved b => exact absurd h execReserved_ne_next

/-- The same of the handler that `IR` selects. -/
theorem runHandler_templateCycle {s t : State} (h : runHandler s = .next t) : TemplateCycle (handlerLast s.ir) s t := by
  unfold runHandler at h
  cases hir : s.ir with
  | opcode b => rw [hir] at h; exact exec_templateCycle h
  | nmiOp | irqOp => rw [hir] at h; exact sequence_templateCycle entryCycle_templateCycle h
  | rstOp => rw [hir] at h; exact sequence_templateCycle rstCycle_templateCycle h

/-- Settles O49: before its last cycle a template goes on, in its last cycle it leaves `Executing`. -/
theorem everyInstructionTakesItsCycles : Obligations.EveryInstructionTakesItsCycles := by
  intro i n s t hs h
  obtain ⟨n', hs', moves⟩ := (exec_templateCycle h).moves
  obtain rfl : n = n' := StepReg.executing.inj (hs.symm.trans hs')
  cases moves with
  | on before step _ => exact ⟨fun _ => step, fun hle => absurd before (by omega)⟩
  | out atEnd step _ => exact ⟨fun hlt => absurd atEnd (by omega), fun _ => step⟩

/-- A cycle of a handler leads into the invariant. -/
theorem TemplateCycle.inv {s t : State} (h : TemplateCycle (handlerLast s.ir) s t) (hwf : SurroundingsWf s) : Inv t := by
  obtain ⟨⟨n, -, moves⟩, keeps⟩ := h
  obtain ⟨hd, hl, hb⟩ := keeps hwf
  refine ⟨hd, hl, hb, ?_⟩
  unfold StepInDomain
  cases moves with
  | on before step same => rw [step, same]; exact before
  | out _ step prefetched =>
    split
    · next k hk => exact absurd hk (step k)
    · next hk => exact prefetched hk
    · trivial

end Sys2Proof.Machine
end

section
/-! PROOFS. How a cycle may stop (40_engine.md R96, R125; 60_exceptions.md R258 to R262): inside its template no cycle is a step
outside the domain, and only the operation of `ADC` and `SBC` refuses. -/

namespace Sys2Proof.Machine

/-- The fault of R259. -/
def Fault.isOutOfDomain : Fault → Bool
  | .stepOutOfDomain _ _ _ => true
  | _ => false

/-- With `inside` the result is no step outside the domain, and whenever it is a refusal it is one of `allowed`. -/
structure StopsWell (inside : Prop) (allowed : Refusal → Prop) (result : Result) : Prop where
  fault : inside → ∀ f, result = .fault f → f.isOutOfDomain = false
  refusal : ∀ r, result = .refused r → allowed r

theorem Fault.isOutOfDomain_of_bus {f : Fault} (h : f.isBusFault = true) : f.isOutOfDomain = false := by
  cases f with
  | stepOutOfDomain => cases h
  | reservedOpcode | busNoDevice | busContention => rfl

namespace StopsWell

variable {inside : Prop} {allowed : Refusal → Prop} {s t : State} {address : Word}

theorem next : StopsWell inside allowed (.next t) := ⟨fun _ _ h => (by cases h), fun _ h => (by cases h)⟩

theorem outOfDomain (h : ¬inside) : StopsWell inside allowed (outOfDomain t) :=
  ⟨fun hin => absurd hin h, fun _ h => (by cases h)⟩

/-- A fault of another kind. -/
theorem otherFault {f : Fault} (hf : f.isOutOfDomain = false) : StopsWell inside allowed (.fault f) :=
  ⟨fun _ _ h => (by cases h; exact hf), fun _ h => (by cases h)⟩

/-- A read ends in a fault of the bus, or goes on. -/
theorem onRead {sync vec : Bool} {k : Byte → State → Result}
    (hk : ∀ v u, SameCpu s u → StopsWell inside allowed (k v u)) :
    StopsWell inside allowed (onRead (readCycle sync vec address s) k) := by
  cases hr : readCycle sync vec address s with
  | error f => exact otherFault (Fault.isOutOfDomain_of_bus (readCycle_error hr).1)
  | ok p => exact hk p.1 p.2 (readCycle_ok hr).cpu

theorem busRead {k : Byte → State → Result} (hk : ∀ v u, SameCpu s u → StopsWell inside allowed (k v u)) :
    StopsWell inside allowed (busRead address s k) := onRead hk

/-! A read that goes on to a next state. -/

theorem busRead_next {k : Byte → State → State} :
    StopsWell inside allowed (Machine.busRead address s fun v u => .next (k v u)) := onRead fun _ _ _ => next

theorem busSync_next {k : Byte → State → State} :
    StopsWell inside allowed (busSync address s fun v u => .next (k v u)) := onRead fun _ _ _ => next

theorem busVec_next {k : Byte → State → State} :
    StopsWell inside allowed (busVec address s fun v u => .next (k v u)) := onRead fun _ _ _ => next

theorem dummyRead_next {k : State → State} :
    StopsWell inside allowed (dummyRead address s fun u => .next (k u)) := onRead fun _ _ _ => next

theorem mono {inside' : Prop} {result : Result} (h : StopsWell inside allowed result) (hi : inside' → inside) :
    StopsWell inside' allowed result := ⟨fun hin => h.fault (hi hin), h.refusal⟩

end StopsWell

/-- The handler stands at a cycle of a template of `last` cycles. -/
def InTemplate (last : Nat) (s : State) : Prop := ∃ n, s.stepReg = .executing n ∧ n + 1 ≤ last

namespace StopsWell

variable {allowed : Refusal → Prop} {s : State} {last : Nat} {template : Nat → State → Result}

/-- From the lines of a template to its handler. -/
theorem handler (h : ∀ n, StopsWell (n + 2 ≤ last) allowed (template (n + 2) s)) :
    StopsWell (InTemplate last s) allowed (handler template s) := by
  unfold Machine.handler
  split
  · exact next
  · next n hs =>
    refine (h n).mono ?_
    rintro ⟨n', hs', hle⟩
    obtain rfl : n + 1 = n' := StepReg.executing.inj (hs.symm.trans hs')
    exact hle
  · next hzero hsucc =>
    refine outOfDomain fun ⟨n, hs, _⟩ => ?_
    cases n with
    | zero => exact hzero hs
    | succ n => exact hsucc n hs

theorem pseudoHandler (h : ∀ n, StopsWell (n + 1 ≤ last) allowed (template (n + 1) s)) :
    StopsWell (InTemplate last s) allowed (pseudoHandler template s) := by
  unfold Machine.pseudoHandler
  split
  · next n hs =>
    refine (h n).mono ?_
    rintro ⟨n', hs', hle⟩
    obtain rfl : n = n' := StepReg.executing.inj (hs.symm.trans hs')
    exact hle
  · next hne => exact outOfDomain fun ⟨n, hs, _⟩ => hne n hs

/-! ## The address cycles and the three tails -/

/-- The lines before the data cycle are reads; from the data cycle on they are the tail's. -/
theorem addressCycles {m : AddrMode} {fix : Fixup} {tail : Nat → State → Result} {len : Nat} (hlen : 0 < len)
    (h : ∀ j, StopsWell (j < len) allowed (tail j s)) (n : Nat) :
    StopsWell (n + 2 ≤ dataCycle m fix s.loc + (len - 1)) allowed (addressCycles m fix tail (n + 2) s) := by
  by_cases hn : dataCycle m fix s.loc ≤ n + 2
  · obtain ⟨j, hj⟩ := Nat.exists_eq_add_of_le hn
    rw [hj, addressCycles_tail]
    exact (h j).mono (by omega)
  · have fixup : ∀ {idx}, StopsWell (n + 2 ≤ dataCycle m fix s.loc + (len - 1)) allowed (fixupCycle idx s) := dummyRead_next
    have hlt : n + 2 < dataCycle m fix s.loc := Nat.lt_of_not_le hn
    cases m with
    | zp => match n, hlt with
      | 0, _ => exact busRead_next
    | zpx | zpy => match n, hlt with
      | 0, _ => exact busRead_next
      | 1, _ => exact dummyRead_next
    | abs => match n, hlt with
      | 0, _ | 1, _ => exact busRead_next
    | abx | aby => match n, hlt with
      | 0, _ | 1, _ => exact busRead_next
      | 2, hlt =>
        have hf : fixes fix s.loc = true := by
          by_contra hf; simp [dataCycle, fixCycles, hf] at hlt
        simpa only [Machine.addressCycles, absIndexedCycles, hf, if_true] using fixup
      | k + 3, hlt => have := fixCycles_le fix s.loc; simp only [dataCycle] at hlt; omega
    | izx => match n, hlt with
      | 0, _ | 2, _ | 3, _ => exact busRead_next
      | 1, _ => exact dummyRead_next
      | k + 4, hlt => simp only [dataCycle] at hlt; omega
    | izy => match n, hlt with
      | 0, _ | 1, _ | 2, _ => exact busRead_next
      | 3, hlt =>
        have hf : fixes fix s.loc = true := by
          by_contra hf; simp [dataCycle, fixCycles, hf] at hlt
        simpa only [Machine.addressCycles, izyCycles, hf, if_true] using fixup
      | k + 4, hlt => have := fixCycles_le fix s.loc; simp only [dataCycle] at hlt; omega
    | izp => match n, hlt with
      | 0, _ | 1, _ | 2, _ => exact busRead_next
      | k + 3, hlt => simp only [dataCycle] at hlt; omega

/-- An operation of class R as a last step: it does not fault, and its refusals are allowed. -/
def OpStopsWell (allowed : Refusal → Prop) (s : State) (op : Byte → State → Result) : Prop :=
  ∀ m u, u.a = s.a → u.p = s.p → u.cfg = s.cfg → StopsWell True allowed (op m u)

theorem finish {result : Result} (h : StopsWell True allowed result) {inside : Prop} :
    StopsWell inside allowed (finish result) := by
  cases result with
  | next u => exact next
  | fault f => exact otherFault (h.fault trivial f rfl)
  | refused r => exact ⟨fun _ _ h => (by cases h), fun r' hr => h.refusal r' hr⟩

theorem readTail {op : Byte → State → Result} (hop : OpStopsWell allowed s op) (j : Nat) :
    StopsWell (j < 1) allowed (readTail op j s) :=
  match j with
  | 0 => busRead fun m u c => (hop m u c.a c.p c.cfg).finish
  | _ + 1 => outOfDomain (by omega)

theorem writeTail {val : State → Byte} (j : Nat) : StopsWell (j < 1) allowed (writeTail val j s) :=
  match j with
  | 0 => next
  | _ + 1 => outOfDomain (by omega)

theorem rmwTail {f : Transform} (j : Nat) : StopsWell (j < 3) allowed (rmwTail f j s) :=
  match j with
  | 0 | 1 => busRead_next
  | 2 => next
  | _ + 3 => outOfDomain (by omega)

theorem readInstr {o : ReadMode} {op : Byte → State → Result} (hop : OpStopsWell allowed s op) :
    StopsWell (InTemplate (readLast o s.loc) s) allowed (readInstr o op s) := by
  cases o with
  | imm => exact handler fun n => match n with
    | 0 => busRead fun m u c => (hop m u.incPC c.a c.p c.cfg).finish
    | _ + 1 => outOfDomain (by simp only [readLast]; omega)
  | mem m => exact handler (addressCycles Nat.one_pos (readTail hop))

theorem writeInstr {m : AddrMode} {val : State → Byte} :
    StopsWell (InTemplate (writeLast m s.loc) s) allowed (writeInstr m val s) :=
  handler (addressCycles Nat.one_pos writeTail)

theorem rmwInstr {m : AddrMode} {fix : Fixup} {f : Transform} :
    StopsWell (InTemplate (rmwLast m fix s.loc) s) allowed (rmwInstr m fix f s) :=
  handler (addressCycles (by decide) rmwTail)

/-! ## The other templates -/

theorem impliedCycles {effect : State → State} :
    StopsWell (InTemplate 2 s) allowed (Machine.handler (impliedCycles effect) s) :=
  handler fun n => match n with
    | 0 => dummyRead_next
    | _ + 1 => outOfDomain (by omega)

theorem shiftInstr {o : RmwMode} {fix : Fixup} {f : Transform} :
    StopsWell (InTemplate (shiftLast o fix s.loc) s) allowed (shiftInstr o fix f s) :=
  match o with
  | .acc => impliedCycles
  | .mem _ => rmwInstr

theorem pushCycles {val : State → Byte} : StopsWell (InTemplate 3 s) allowed (Machine.handler (pushCycles val) s) :=
  handler fun n => match n with
    | 0 => dummyRead_next
    | 1 => next
    | _ + 2 => outOfDomain (by omega)

theorem pullCycles {effect : Byte → State → State} :
    StopsWell (InTemplate 4 s) allowed (Machine.handler (pullCycles effect) s) :=
  handler fun n => match n with
    | 0 | 1 => dummyRead_next
    | 2 => busRead_next
    | _ + 3 => outOfDomain (by omega)

theorem haltCycles {into : StepReg} : StopsWell (InTemplate 3 s) allowed (Machine.handler (haltCycles into) s) :=
  handler fun n => match n with
    | 0 | 1 => dummyRead_next
    | _ + 2 => outOfDomain (by omega)

/-- The fix-up cycle of a branch is in its template exactly when a page was crossed. -/
theorem branchFixup {inside : Prop} {crossed : Bool} (h : inside → crossed = true) :
    StopsWell inside allowed (if crossed then branchFixup s else Machine.outOfDomain s) := by
  split
  · exact dummyRead_next
  · next hc => exact outOfDomain fun hin => hc (h hin)

theorem relativeCycles {cond : Flags → Bool} :
    StopsWell (InTemplate (relativeLast s.loc) s) allowed (Machine.handler (relativeCycles cond) s) :=
  handler fun n => match n with
    | 0 => busRead_next
    | 1 => by
      show StopsWell _ _ (if s.loc.taken then _ else _)
      split
      · exact dummyRead_next
      · exact busSync_next
    | 2 => branchFixup fun hin => by
      unfold relativeLast at hin
      by_contra hc
      rw [if_neg hc] at hin
      omega
    | _ + 3 => outOfDomain (by unfold relativeLast; split <;> omega)

theorem branchBitCycles {k : Nat} {want : Bool} :
    StopsWell (InTemplate (branchBitLast s.loc) s) allowed (Machine.handler (branchBitCycles k want) s) :=
  handler fun n => match n with
    | 0 | 1 => busRead_next
    | 2 => dummyRead_next
    | 3 => busRead fun _ u _ => by
      dsimp only
      split
      · exact next
      · exact next
    | 4 => branchFixup fun hin => by
      unfold branchBitLast at hin
      by_contra hc
      rw [if_neg hc] at hin
      omega
    | _ + 5 => outOfDomain (by unfold branchBitLast; split <;> omega)

theorem jmpAbsolute : StopsWell (InTemplate 3 s) allowed (Machine.handler jmpAbsoluteCycles s) :=
  handler fun n => match n with
    | 0 | 1 => busRead_next
    | _ + 2 => outOfDomain (by omega)

theorem jmpIndirect {index : State → Word} :
    StopsWell (InTemplate 6 s) allowed (Machine.handler (jmpIndirectCycles index) s) :=
  handler fun n => match n with
    | 0 | 1 | 3 | 4 => busRead_next
    | 2 => dummyRead_next
    | _ + 5 => outOfDomain (by omega)

theorem execJmp {m : JmpMode} : StopsWell (InTemplate (lastCycle (.jmp m) s.loc) s) allowed (execJmp m s) :=
  match m with
  | .abs => jmpAbsolute
  | .ind | .iax => jmpIndirect

theorem execJsr : StopsWell (InTemplate 6 s) allowed (execJsr s) :=
  handler fun n => match n with
    | 0 | 4 => busRead_next
    | 1 => dummyRead_next
    | 2 | 3 => next
    | _ + 5 => outOfDomain (by omega)

theorem execRts : StopsWell (InTemplate 6 s) allowed (execRts s) :=
  handler fun n => match n with
    | 0 | 1 | 4 => dummyRead_next
    | 2 | 3 => busRead_next
    | _ + 5 => outOfDomain (by omega)

theorem execRti : StopsWell (InTemplate 6 s) allowed (execRti s) :=
  handler fun n => match n with
    | 0 | 1 => dummyRead_next
    | 2 | 3 | 4 => busRead_next
    | _ + 5 => outOfDomain (by omega)

theorem execBrk : StopsWell (InTemplate 7 s) allowed (execBrk s) :=
  handler fun n => match n with
    | 0 => busRead_next
    | 1 | 2 | 3 => next
    | 4 | 5 => busVec_next
    | _ + 6 => outOfDomain (by omega)

/-- A reserved opcode is fatal where it is entered (60_exceptions.md R258). -/
theorem execReserved {opcode : Byte} : StopsWell (InTemplate 2 s) allowed (execReserved opcode s) := by
  unfold Machine.execReserved
  split
  · exact otherFault rfl
  · exact otherFault rfl
  · next h0 h1 =>
    refine outOfDomain fun ⟨n, hs, hle⟩ => ?_
    match n, hle with
    | 0, _ => exact h0 hs
    | 1, _ => exact h1 hs

/-! ## The sequences -/

theorem entry {vector : Word} {b : Bool} (n : Nat) :
    StopsWell (n + 1 ≤ 7) allowed (lineEntryCycle (entryCycle vector b) (n + 1) s) :=
  match n with
  | 0 | 1 => dummyRead_next
  | 2 | 3 | 4 => next
  | 5 | 6 => busVec_next
  | _ + 7 => outOfDomain (by omega)

theorem rstReads (n : Nat) : StopsWell (n + 1 ≤ 7) allowed (lineEntryCycle rstReadCycle (n + 1) s) :=
  match n with
  | 0 | 1 | 2 | 3 | 4 => dummyRead_next
  | 5 | 6 => busVec_next
  | _ + 7 => outOfDomain (by omega)

/-- The RST sequence is one of the two, by `RST_STACK_ACCESS` (60_exceptions.md R251). -/
theorem rst (n : Nat) : StopsWell (n + 1 ≤ 7) allowed (lineEntryCycle rstCycle (n + 1) s) :=
  match n with
  | 0 | 1 => dummyRead_next
  | n + 2 => by
    show StopsWell (n + 3 ≤ 7) allowed (rstCycle (n + 3) s)
    unfold rstCycle
    cases s.cfg.rstStackAccess with
    | read => exact rstReads (n + 2)
    | write => exact entry (n + 2)

end StopsWell

/-! ## Every instruction, every handler -/

/-- 40_engine.md R125: a refusal that a cycle of `i` at `s` may answer. -/
def DecimalRefusal (i : Instr) (s : State) (r : Refusal) : Prop :=
  (∃ o, i = .adc o ∨ i = .sbc o) ∧ s.p.d = true ∧ s.cfg.decimalPolicy = .refuse
    ∧ ∃ left, r = .decimalUnmodelled left ∧ left.a = s.a ∧ left.p = s.p

/-- An operation that answers a next state whatever it is given. -/
theorem StopsWell.opNext {allowed : Refusal → Prop} {s : State} {op : Byte → State → Result}
    (h : ∀ m u, ∃ t, op m u = .next t) : OpStopsWell allowed s op := by
  intro m u _ _ _
  obtain ⟨t, ht⟩ := h m u
  rw [ht]
  exact next

/-- `ADC` and `SBC` refuse in decimal mode only, and before they write anything. -/
theorem StopsWell.opDecimal {i : Instr} {s : State} {sum : Byte → State → Sum} (hi : ∃ o, i = .adc o ∨ i = .sbc o) :
    OpStopsWell (DecimalRefusal i s) s fun m u => decimalGuard u (applySum (sum m u) u) := by
  intro m u ha hp hc
  dsimp only [decimalGuard]
  split
  · next hd =>
    obtain ⟨hset, hpolicy⟩ := Bool.and_eq_true_iff.mp hd
    rw [hp] at hset
    rw [hc] at hpolicy
    exact ⟨fun _ _ h => (by cases h), fun r h => by
      cases h; exact ⟨hi, hset, of_decide_eq_true hpolicy, u, rfl, ha, hp⟩⟩
  · exact next

/-- A cycle of any instruction stops outside its template, with a fault of the bus or the instruction, or in decimal mode. -/
theorem exec_stopsWell (i : Instr) (s : State) :
    StopsWell (InTemplate (lastCycle i s.loc) s) (DecimalRefusal i s) (exec i s) := by
  cases i with
  | lda o | ldx o | ldy o | ora o | and o | eor o | cmp o | cpx o | cpy o => exact .readInstr (.opNext fun _ _ => ⟨_, rfl⟩)
  | adc o => exact .readInstr (.opDecimal ⟨o, .inl rfl⟩)
  | sbc o => exact .readInstr (.opDecimal ⟨o, .inr rfl⟩)
  | bit o => exact .readInstr (.opNext fun _ _ => by cases o <;> exact ⟨_, rfl⟩)
  | sta m | stx m | sty m | stz m => exact .writeInstr
  | asl o | lsr o | rol o | ror o | inc o | dec o => exact .shiftInstr
  | tsb m | trb m => exact .rmwInstr
  | rmb0 | rmb1 | rmb2 | rmb3 | rmb4 | rmb5 | rmb6 | rmb7 => exact .rmwInstr (m := .zp) (fix := .onCross)
  | smb0 | smb1 | smb2 | smb3 | smb4 | smb5 | smb6 | smb7 => exact .rmwInstr (m := .zp) (fix := .onCross)
  | tax | tay | txa | tya | tsx | txs | inx | iny | dex | dey => exact .impliedCycles
  | clc | sec | cli | sei | clv | cld | sed | nop => exact .impliedCycles
  | bpl | bmi | bvc | bvs | bcc | bcs | bne | beq | bra => exact .relativeCycles
  | bbr0 | bbr1 | bbr2 | bbr3 | bbr4 | bbr5 | bbr6 | bbr7 => exact .branchBitCycles
  | bbs0 | bbs1 | bbs2 | bbs3 | bbs4 | bbs5 | bbs6 | bbs7 => exact .branchBitCycles
  | jmp m => exact .execJmp
  | jsr => exact .execJsr
  | rts => exact .execRts
  | pha | php | phx | phy => exact .pushCycles
  | pla | plp | plx | ply => exact .pullCycles
  | brk => exact .execBrk
  | rti => exact .execRti
  | wai | stp => exact .haltCycles
  | reserved b => exact .execReserved

/-- 40_engine.md R96: inside its template no handler's cycle is a step outside the domain. -/
theorem runHandler_fault {s : State} {n : Nat} {f : Fault} (hs : s.stepReg = .executing n)
    (hle : n + 1 ≤ handlerLast s.ir s.loc) (h : runHandler s = .fault f) : f.isOutOfDomain = false := by
  unfold runHandler at h
  cases hir : s.ir with
  | opcode b =>
    rw [hir] at h hle
    exact (exec_stopsWell (decodeOpcode b) s).fault ⟨n, hs, hle⟩ f h
  | nmiOp | irqOp =>
    rw [hir] at h hle
    exact (StopsWell.pseudoHandler (allowed := fun _ => True) .entry).fault ⟨n, hs, hle⟩ f h
  | rstOp =>
    rw [hir] at h hle
    exact (StopsWell.pseudoHandler (allowed := fun _ => True) .rst).fault ⟨n, hs, hle⟩ f h

/-- Settles O31: the guard of R125 stands before the sum, and no other operation has it. -/
theorem onlyDecimalAdcSbcRefuse : Obligations.OnlyDecimalAdcSbcRefuse := by
  refine ⟨fun o s u m hd hpolicy hat ha => ?_, fun i s r => (exec_stopsWell i s).refusal r⟩
  obtain ⟨sameA, -, -, -, sameP, sameCfg⟩ := afterOperand_same ha
  have refuses : ∀ binary, decimalGuard (afterOperand o u) binary = .refused (.decimalUnmodelled (afterOperand o u)) := by
    intro binary
    simp [decimalGuard, sameP, sameCfg, hd, hpolicy]
  refine ⟨?_, ?_, sameA, sameP⟩
  · rw [exec, execAdc, readInstr_end hat ha, opAdc, refuses, finish]
  · rw [exec, execSbc, readInstr_end hat ha, opSbc, refuses, finish]

end Sys2Proof.Machine
end

section
/-! PROOFS. The clock cycle (40_engine.md R91 to R98): which handler a cycle runs, and the invariant through the dispatch. -/

namespace Sys2Proof.Machine

/-! ## T1 of an instruction (R93) -/

theorem handler_first {template : Nat → State → Result} {st : State} (hs : st.stepReg = .executing 0) :
    handler template st = .next (st.setStep (.executing 1)) := by
  simp [handler, hs]

/-- Every instruction but a reserved opcode is the handler of a template (40_engine.md R92). -/
theorem exec_eq_handler {i : Instr} (hi : ∀ b, i ≠ .reserved b) : ∃ template, ∀ s, exec i s = handler template s := by
  cases i with
  | lda o | ldx o | ldy o | ora o | and o | eor o | adc o | sbc o | cmp o | cpx o | cpy o | bit o =>
    cases o with
    | imm => exact ⟨_, fun _ => rfl⟩
    | mem m => exact ⟨_, fun _ => rfl⟩
  | asl o | lsr o | rol o | ror o | inc o | dec o =>
    cases o with
    | acc => exact ⟨_, fun _ => rfl⟩
    | mem m => exact ⟨_, fun _ => rfl⟩
  | reserved b => exact absurd rfl (hi b)
  | _ => exact ⟨_, fun _ => rfl⟩

/-- Settles O27: T1 of a handler, whatever its template is. -/
theorem firstCycleOnlyCounts : Obligations.FirstCycleOnlyCounts := by
  intro i s hi hs
  obtain ⟨template, h⟩ := exec_eq_handler hi
  rw [h, handler_first hs]

/-! ## What a cycle runs -/

section
variable {s : State}

/-- A cycle in which RST is asserted (R91 item 1). -/
theorem step_rst (hr : pollRst s = true) : step s = rstSequence ((s.loseScratch.setIR .rstOp).setStep (.executing 0)) := by
  simp only [step, dispatch, hr, if_true, finishCycle]
  rfl

/-- A cycle at a boundary samples NMI and IRQ; what it does when neither is taken depends on `step` (R91 items 4 to 8). -/
theorem step_boundary (hb : AtBoundary s) (hr : pollRst s = false) :
    ∃ otherwise, step s = finishCycle (sampleInterrupts (decide (s.stepReg = .waitingForInterrupt)) otherwise s) := by
  rcases hb with hs | hs | hs
  · exact ⟨fetchOpcode, by simp [step, dispatch, hr, hs]⟩
  · exact ⟨pipelinedDispatch, by simp [step, dispatch, hr, hs]⟩
  · exact ⟨.idle, by simp [step, dispatch, hr, hs]⟩

theorem sampleInterrupts_nmi {waiting : Bool} {otherwise : State → Dispatched} (hn : (pollNmi s).1 = true) :
    sampleInterrupts waiting otherwise s = .run ((pollNmi s).2.enter .nmiOp) := by
  simp [sampleInterrupts, hn]

theorem sampleInterrupts_irq {waiting : Bool} {otherwise : State → Dispatched} (hn : (pollNmi s).1 = false)
    (hi : pollIrq s = true) (hp : s.p.i = false ∨ waiting = true) :
    sampleInterrupts waiting otherwise s = .run ((pollNmi s).2.enter .irqOp) := by
  have hirq : pollIrq (pollNmi s).2 = true := hi
  have hmask : (!(pollNmi s).2.p.i || waiting) = true := by
    rcases hp with hp | hp
    · have : (pollNmi s).2.p.i = false := hp
      simp [this]
    · simp [hp]
  simp [sampleInterrupts, hn, hirq, hmask]

theorem sampleInterrupts_none {waiting : Bool} {otherwise : State → Dispatched} (hn : (pollNmi s).1 = false)
    (hi : (pollIrq s && (!s.p.i || waiting)) = false) :
    sampleInterrupts waiting otherwise s = otherwise (pollNmi s).2 := by
  have hirq : (pollIrq (pollNmi s).2 && (!(pollNmi s).2.p.i || waiting)) = false := hi
  simp [sampleInterrupts, hn, hirq]

end

/-- Settles O9: the dispatch of R91 in its order. -/
theorem dispatchPriority : Obligations.DispatchPriority := by
  intro s
  refine ⟨step_rst, fun hr hb hn => ?_, fun hr hb hn hi hp => ?_⟩
  · obtain ⟨otherwise, h⟩ := step_boundary hb hr
    rw [h, sampleInterrupts_nmi hn]
    rfl
  · obtain ⟨otherwise, h⟩ := step_boundary hb hr
    rw [h, sampleInterrupts_irq hn hi (hp.imp id decide_eq_true)]
    rfl

/-- Settles O7: inside a handler no line but RST is looked at. -/
theorem stepContinuesTheHandler : Obligations.StepContinuesTheHandler := by
  intro s n hs hr
  rw [step_executing hs hr]
  exact ⟨fun b => runHandler_opcode, fun hir => by rw [runHandler, hir], fun hir => by rw [runHandler, hir],
    fun hir => by rw [runHandler, hir]⟩

/-- The poll of an edge line that has seen no edge, `on_trigger`, is no and changes nothing (60_exceptions.md R244). -/
theorem pollNmi_of_noEdge {s : State} (hc : s.cfg.nmiEdgeCapture = .onTrigger) (he : s.lines.nmi.edgeTriggered = true)
    (hl : s.lines.nmi.latchedSinceEdge = false) : pollNmi s = (false, s) := by
  obtain ⟨a, x, y, sp, pc, p, ir, stepReg, ea, iab, tmp, loc, bus, driven, ⟨⟨edge, ids, latched⟩, irq, rst⟩, ds, cfg, fi⟩ := s
  dsimp only at hc he hl
  simp [pollNmi, InterruptLine.shouldInterrupt, hc, he, hl, State.setLines]

/-- Settles O10: `Stopped` samples nothing but RST, and a poll that finds no edge leaves NMI as it was. -/
theorem idleCyclesChangeNothing : Obligations.IdleCyclesChangeNothing := by
  intro s hr
  refine ⟨fun hs => by simp [step, dispatch, hr, hs, finishCycle], fun hs hc he hl hi => ?_⟩
  have hn := pollNmi_of_noEdge hc he hl
  have idle : dispatch s = .idle s := by
    simp only [dispatch, hr, hs]
    rw [if_neg Bool.false_ne_true, sampleInterrupts_none (by rw [hn]) (by simp [hi]), hn]
  rw [step, idle, finishCycle]

theorem rstSequence_first {s u : State} (hs : s.stepReg = .executing 0) (ha : AnswersDummy s.pc s u) :
    rstSequence s = .next (u.setStep (.executing 1)) := by
  have hu : u.stepReg = .executing 0 := ha.effect.cpu.stepReg.trans hs
  simp only [rstSequence, pseudoHandler, hs, lineEntryCycle]
  rw [ha.dummyRead, State.nextCycle_eq u 0 hu]

/-- Settles O11: T1 of the RST sequence is one discarded read at `PC`. -/
theorem rstAbandonsAnything : Obligations.RstAbandonsAnything := by
  intro s u hr ha
  obtain ⟨cpu, ram, -, -, -⟩ := ha.effect
  have first : step s = .next (u.setStep (.executing 1)) := by
    rw [step_rst hr]
    exact rstSequence_first (State.setStep_stepReg _ _) (by simpa using ha)
  have sameRam : SameRam s u := fun k a => (ram k a).trans (State.ramByte_of_devices (by simp) k a)
  exact ⟨first, by simpa using cpu.ir, by simpa using cpu.a, by simpa using cpu.x, by simpa using cpu.y,
    by simpa using cpu.s, by simpa using cpu.pc, by simpa using cpu.p, sameRam⟩

/-! ## The opcode fetch and the pipelined dispatch -/

theorem checkReserved_of_mem {b : Byte} {s : State} (h : b ∈ s.cfg.reservedOpcodes) :
    checkReserved b s = .stop (.reservedOpcode b (s.pc - 1) s) := by
  simp [checkReserved, h]

theorem checkReserved_of_not_mem {b : Byte} {s : State} (h : b ∉ s.cfg.reservedOpcodes) : checkReserved b s = .run s := by
  simp [checkReserved, h]

/-- The state in which the handler of a fetched opcode begins: `IR` the opcode, `PC` one past it, `step` at T1 (R93). -/
def State.fetched (u : State) (opcode : Byte) : State := (u.setIR (.opcode opcode)).incPC.setStep (.executing 0)

theorem fetchOpcode_answered {s u : State} {b : Byte} (h : AnswersSync s.pc s b u) :
    fetchOpcode s = checkReserved b (u.fetched b) := by
  have hread : readCycle true false s.pc s = .ok (b, u) := h
  simp only [fetchOpcode, hread, State.fetched]

/-- An opcode is in the reserved list exactly when it selects a reserved instruction (30_encoding.md R75). -/
theorem mem_reservedOpcodes_iff {b : Byte} : b ∈ reservedOpcodes ↔ ∃ c, decodeOpcode b = .reserved c := by
  constructor
  · intro hb
    have hself : opcodeOf (.reserved b) = some b := if_pos hb
    obtain ⟨b', hop, hsel⟩ := Laws.OpcodeRoundTrip.reserved b (decide_eq_true hb)
    obtain rfl := Option.some.inj (hself.symm.trans hop)
    exact ⟨b, hsel⟩
  · rintro ⟨c, hsel⟩
    have hc : c ∈ reservedOpcodes := by
      have hwf := decodeOpcode_wf b
      rw [hsel] at hwf
      exact of_decide_eq_true hwf
    have hself : opcodeOf (.reserved c) = some c := if_pos hc
    have hop : opcodeOf (.reserved c) = some b := hsel ▸ opcodeOf_decodeOpcode b
    exact Option.some.inj (hself.symm.trans hop) ▸ hc

/-- With no line taken a cycle at `AwaitFetch` is the check of R258 on the opcode answered, then its handler (R93). -/
theorem step_fetched {s u : State} {b : Byte} (hs : s.stepReg = .awaitFetch) (hr : pollRst s = false)
    (hn : (pollNmi s).1 = false) (hi : (pollIrq s && !s.p.i) = false) (ha : AnswersSync s.pc (pollNmi s).2 b u) :
    step s = finishCycle (checkReserved b (u.fetched b)) := by
  rw [step_fetches hs hr hn hi, fetchOpcode_answered ha]

/-- T1 of a documented opcode, found neither in the table's reserved rows nor in `RESERVED_OPCODES`. -/
theorem finishCycle_documented {v : State} {b : Byte} (hir : v.ir = .opcode b) (hs : v.stepReg = .executing 0)
    (hb : b ∉ v.cfg.reservedOpcodes) (hdoc : b ∉ reservedOpcodes) :
    finishCycle (checkReserved b v) = .next (v.setStep (.executing 1)) := by
  rw [checkReserved_of_not_mem hb, finishCycle, runHandler_opcode hir]
  exact firstCycleOnlyCounts _ v (fun c hc => hdoc (mem_reservedOpcodes_iff.mpr ⟨c, hc⟩)) hs

/-- Settles O6: the fetch, the check of R258, then T1 of the handler of the opcode. -/
theorem stepRunsTheFetchedInstruction : Obligations.StepRunsTheFetchedInstruction := by
  intro s u b rest r a hs hr hn hi ha hd hwf v
  obtain ⟨hsel, -, -⟩ := decode_cons_eq_ok_iff.mp hd
  have cpu := ha.effect.cpu
  have hpc : u.pc = s.pc := cpu.pc
  have hv : u.fetched b = v := by simp only [State.fetched, State.incPC, State.setIR_pc, hpc, v]
  have hcfg : v.cfg = s.cfg := cpu.cfg
  have hir : v.ir = .opcode b := rfl
  have hstep : step s = finishCycle (checkReserved b v) := by rw [step_fetched hs hr hn hi ha, hv]
  rw [hstep, ← hcfg]
  refine ⟨fun hb => ?_, finishCycle_documented hir rfl, fun hb => ?_⟩
  · rw [checkReserved_of_not_mem hb, finishCycle, runHandler_opcode hir, hsel]
  · have hback : v.pc - 1 = s.pc := BitVec.add_sub_cancel s.pc 1
    rw [checkReserved_of_mem hb, hback, finishCycle]

/-- With no line taken a cycle at `AwaitPipelinedFetch` is the pipelined dispatch (R91 item 8, R94). -/
theorem step_pipelined {s : State} (hs : s.stepReg = .awaitPipelinedFetch) (hr : pollRst s = false)
    (hn : (pollNmi s).1 = false) (hi : (pollIrq s && !s.p.i) = false) :
    step s = finishCycle (pipelinedDispatch (pollNmi s).2) := by
  simp only [step, dispatch, hr, hs]
  rw [if_neg Bool.false_ne_true, sampleInterrupts_none hn (by simpa using hi)]

theorem pipelinedDispatch_opcode {s : State} {b : Byte} (h : s.ir = .opcode b) :
    pipelinedDispatch s = checkReserved b (s.incPC.setStep (.executing 1)) := by
  simp only [pipelinedDispatch, h]

/-- Settles O8: the dispatch at T2 reads nothing, and checks as the fetch does. -/
theorem pipelinedDispatchEntersAtT2 : Obligations.PipelinedDispatchEntersAtT2 := by
  intro s b hs hir hr hn hi v
  have hirNmi : (pollNmi s).2.ir = .opcode b := hir
  have hirV : v.ir = .opcode b := hir
  have hstep : step s = finishCycle (checkReserved b v) := by
    rw [step_pipelined hs hr hn hi, pipelinedDispatch_opcode hirNmi]
    rfl
  refine ⟨fun hb => ?_, fun hb => ?_⟩
  · have hv : b ∉ v.cfg.reservedOpcodes := hb
    rw [hstep, checkReserved_of_not_mem hv, finishCycle, runHandler_opcode hirV]
  · have hv : b ∈ v.cfg.reservedOpcodes := hb
    have hback : v.pc - 1 = s.pc := BitVec.add_sub_cancel s.pc 1
    rw [hstep, checkReserved_of_mem hv, hback, finishCycle]

/-! ## The invariant through a cycle -/

/-- What the dispatch leaves to do is sound: an idle cycle in a state of the invariant, a cycle inside the template of the
handler, or a fault that is not R259's. -/
def Dispatched.Sound : Dispatched → Prop
  | .idle st => Inv st
  | .run st => SurroundingsWf st ∧ InTemplate (handlerLast st.ir st.loc) st
  | .stop f => f.isOutOfDomain = false

theorem lastCycle_ge (i : Instr) (loc : Locals) : 2 ≤ lastCycle i loc := by
  have hread : ∀ o, 2 ≤ readLast o loc := fun o => by
    cases o with
    | imm => exact Nat.le_refl 2
    | mem m => exact Nat.le_of_succ_le (dataCycle_ge m .onCross loc)
  have hwrite : ∀ m, 2 ≤ writeLast m loc := fun m => Nat.le_of_succ_le (dataCycle_ge m .always loc)
  have hrmw : ∀ m fix, 2 ≤ rmwLast m fix loc := fun m fix => Nat.le_add_left 2 _
  have hshift : ∀ o fix, 2 ≤ shiftLast o fix loc := fun o fix => by
    cases o with
    | acc => exact Nat.le_refl 2
    | mem m => exact hrmw m fix
  have hrel : 2 ≤ relativeLast loc := Nat.le_of_succ_le (relativeLast_ge loc)
  have hbit : 2 ≤ branchBitLast loc := Nat.le_trans (by decide) (branchBitLast_ge loc)
  cases i with
  | lda o | ldx o | ldy o | ora o | and o | eor o | adc o | sbc o | cmp o | cpx o | cpy o | bit o => exact hread o
  | sta m | stx m | sty m | stz m => exact hwrite m
  | asl o | lsr o | rol o | ror o | inc o | dec o => exact hshift o _
  | tsb m | trb m => exact hrmw m _
  | bpl | bmi | bvc | bvs | bcc | bcs | bne | beq | bra => exact hrel
  | bbr0 | bbr1 | bbr2 | bbr3 | bbr4 | bbr5 | bbr6 | bbr7 => exact hbit
  | bbs0 | bbs1 | bbs2 | bbs3 | bbs4 | bbs5 | bbs6 | bbs7 => exact hbit
  | jmp m => cases m <;> simp [lastCycle]
  | _ => simp [lastCycle]

theorem handlerLast_ge (ir : IReg) (loc : Locals) : 2 ≤ handlerLast ir loc := by
  cases ir with
  | opcode b => exact lastCycle_ge (decodeOpcode b) loc
  | nmiOp | irqOp | rstOp => exact Nat.le_add_left 2 5

/-- T1 and T2 are in every handler's template. -/
theorem run_sound {s : State} {n : Nat} (h : SurroundingsWf s) (hs : s.stepReg = .executing n) (hn : n ≤ 1) :
    (Dispatched.run s).Sound :=
  ⟨h, n, hs, Nat.le_trans (Nat.succ_le_succ hn) (handlerLast_ge s.ir s.loc)⟩

theorem enter_sound {s : State} (h : SurroundingsWf s) (op : IReg) : (Dispatched.run (s.enter op)).Sound :=
  run_sound (n := 0) h rfl (Nat.zero_le 1)

/-- A poll of NMI keeps the lines lines. -/
theorem pollNmi_wf {s : State} (h : SurroundingsWf s) : SurroundingsWf (pollNmi s).2 := by
  obtain ⟨hd, ⟨hn, hi, hr, en, ei, er⟩, hb⟩ := h
  exact ⟨hd, ⟨InterruptLine.shouldInterrupt_wf hn _, hi, hr, (InterruptLine.shouldInterrupt_edge _ _).trans en, ei, er⟩, hb⟩

theorem checkReserved_sound {b : Byte} {s : State} (h : (Dispatched.run s).Sound) : (checkReserved b s).Sound := by
  unfold checkReserved
  split
  · exact rfl
  · exact h

theorem fetchOpcode_sound {s : State} (h : SurroundingsWf s) : (fetchOpcode s).Sound := by
  obtain ⟨hd, hl, -⟩ := h
  unfold fetchOpcode
  split
  · next opcode u hr =>
    have hu : SurroundingsWf u := (readCycle_ok hr).wf (by simp) ⟨hd, hl⟩
    exact checkReserved_sound (run_sound (n := 0) hu rfl (Nat.zero_le 1))
  · next f hr => exact Fault.isOutOfDomain_of_bus (readCycle_error hr).1

theorem pipelinedDispatch_sound {s : State} {b : Byte} (h : SurroundingsWf s) (hir : s.ir = .opcode b) :
    (pipelinedDispatch s).Sound := by
  rw [pipelinedDispatch_opcode hir]
  exact checkReserved_sound (run_sound (n := 1) h rfl (Nat.le_refl 1))

theorem sampleInterrupts_sound {s : State} {waiting : Bool} {otherwise : State → Dispatched} (h : SurroundingsWf s)
    (ho : (otherwise (pollNmi s).2).Sound) : (sampleInterrupts waiting otherwise s).Sound := by
  unfold sampleInterrupts
  dsimp only
  split
  · exact enter_sound (pollNmi_wf h) .nmiOp
  · split
    · exact enter_sound (pollNmi_wf h) .irqOp
    · exact ho

theorem dispatch_sound {s : State} (h : Inv s) : (dispatch s).Sound := by
  obtain ⟨hd, hl, hb, hdomain⟩ := id h
  have hwf : SurroundingsWf s := ⟨hd, hl, hb⟩
  have hnmi := pollNmi_wf hwf
  unfold StepInDomain at hdomain
  unfold dispatch
  split
  · have hlost : SurroundingsWf s.loseScratch :=
      surroundingsWf_of_eq hwf s.loseScratch_bus s.loseScratch_lines s.loseScratch_devices
    exact enter_sound hlost .rstOp
  · cases hs : s.stepReg with
    | stopped => exact h
    | executing n => rw [hs] at hdomain; exact ⟨hwf, n, hs, hdomain⟩
    | waitingForInterrupt =>
      obtain ⟨nd, nl, nb⟩ := hnmi
      have hstep : (pollNmi s).2.stepReg = .waitingForInterrupt := hs
      exact sampleInterrupts_sound hwf ⟨nd, nl, nb, by rw [StepInDomain, hstep]; trivial⟩
    | awaitFetch => exact sampleInterrupts_sound hwf (fetchOpcode_sound hnmi)
    | awaitPipelinedFetch =>
      rw [hs] at hdomain
      obtain ⟨b, hir⟩ := hdomain
      exact sampleInterrupts_sound hwf (pipelinedDispatch_sound hnmi hir)

/-- Settles O58: the dispatch keeps the surroundings, and from there a cycle of a handler leads into the invariant. -/
theorem invStep : Obligations.InvStep := by
  intro s t h hstep
  have sound := dispatch_sound h
  unfold step at hstep
  cases hd : dispatch s with
  | idle u => rw [hd] at hstep sound; cases hstep; exact sound
  | run u =>
    rw [hd] at hstep sound
    obtain ⟨hwf, -⟩ := sound
    exact (runHandler_templateCycle hstep).inv hwf
  | stop f => rw [hd] at hstep; cases hstep

/-- Settles O50: the dispatch raises no such fault, and hands a handler a cycle of its template. -/
theorem noStepOutOfDomain : Obligations.NoStepOutOfDomain := by
  intro s left ir n h hstep
  have sound := dispatch_sound h
  unfold step at hstep
  cases hd : dispatch s with
  | idle u => rw [hd] at hstep; cases hstep
  | run u =>
    rw [hd] at hstep sound
    obtain ⟨-, k, hs, hle⟩ := sound
    cases runHandler_fault hs hle hstep
  | stop f => rw [hd] at hstep sound; cases hstep; cases sound

end Sys2Proof.Machine
end

section
/-! PROOFS. The address cycles over one RAM (40_engine.md R101 to R110): each mode run cycle by cycle from the fetch to its data
cycle, where `EA` is the effective address. -/

namespace Sys2Proof.Machine

/-! ## The bytes of an address -/

@[simp] theorem cat_toNat (h l : Byte) : (cat h l).toNat = 256 * h.toNat + l.toNat := by
  have hl := l.isLt
  rw [cat, BitVec.toNat_append, ← Nat.shiftLeft_add_eq_or_of_lt hl, Nat.shiftLeft_eq, Nat.mul_comm]

@[simp] theorem loByte_cat (h l : Byte) : loByte (cat h l) = l := by
  have hl := l.isLt
  apply BitVec.eq_of_toNat_eq
  rw [loByte, BitVec.extractLsb'_toNat, cat_toNat, Nat.shiftRight_zero]
  omega

theorem hiByte_toNat (w : Word) : (hiByte w).toNat = w.toNat / 256 := by
  have hw := w.isLt
  rw [hiByte, BitVec.extractLsb'_toNat, Nat.shiftRight_eq_div_pow]
  omega

@[simp] theorem hiByte_cat (h l : Byte) : hiByte (cat h l) = h := by
  have hl := l.isLt
  apply BitVec.eq_of_toNat_eq
  rw [hiByte_toNat, cat_toNat]
  omega

@[simp] theorem zext16_toNat (v : Byte) : (zext16 v).toNat = v.toNat := by
  rw [zext16, BitVec.toNat_setWidth, Nat.mod_eq_of_lt (Nat.lt_trans v.isLt (by decide))]

@[simp] theorem loByte_zext16 (v : Byte) : loByte (zext16 v) = v := by
  have hv := v.isLt
  apply BitVec.eq_of_toNat_eq
  rw [loByte, BitVec.extractLsb'_toNat, zext16_toNat, Nat.shiftRight_zero]
  omega

theorem carryOut_eq (l x : Byte) : carryOut l x = decide (256 ≤ l.toNat + x.toNat) := by
  have hl := l.isLt
  have hx := x.isLt
  rw [carryOut, BitVec.getLsbD, Nat.testBit_eq_decide_div_mod_eq, BitVec.toNat_add, BitVec.toNat_setWidth,
    BitVec.toNat_setWidth]
  congr 1
  apply propext
  omega

/-- The carry out of the low byte is a page cross (40_engine.md R104, R118). -/
theorem carryOut_eq_crosses (h l x : Byte) : carryOut l x = decide (hiByte (cat h l + zext16 x) ≠ h) := by
  have hh := h.isLt
  have hl := l.isLt
  have hx := x.isLt
  rw [carryOut_eq]
  congr 1
  apply propext
  rw [ne_eq, ← BitVec.toNat_inj, hiByte_toNat, BitVec.toNat_add, cat_toNat, zext16_toNat]
  omega

/-! ## A memory form is its mode's address cycles -/

/-- The table of `memoryForm` is that of `exec` and of the modes. -/
theorem memoryForm_spec {i : Instr} {m : AddrMode} {fix : Fixup} (h : memoryForm i = some (m, fix)) :
    i.mode = some m.mode ∧ (∀ b, i ≠ .reserved b) ∧ ∃ tail, ∀ s, exec i s = handler (addressCycles m fix tail) s := by
  cases i with
  | lda o | ldx o | ldy o | ora o | and o | eor o | adc o | sbc o | cmp o | cpx o | cpy o | bit o =>
    cases o with
    | imm => cases h
    | mem md => cases h; exact ⟨rfl, nofun, _, fun _ => rfl⟩
  | asl o | lsr o | rol o | ror o | inc o | dec o =>
    cases o with
    | acc => cases h
    | mem md => cases h; exact ⟨rfl, nofun, _, fun _ => rfl⟩
  | sta md | stx md | sty md | stz md | tsb md | trb md => cases h; exact ⟨rfl, nofun, _, fun _ => rfl⟩
  | rmb0 | rmb1 | rmb2 | rmb3 | rmb4 | rmb5 | rmb6 | rmb7 => cases h; exact ⟨rfl, nofun, _, fun _ => rfl⟩
  | smb0 | smb1 | smb2 | smb3 | smb4 | smb5 | smb6 | smb7 => cases h; exact ⟨rfl, nofun, _, fun _ => rfl⟩
  | _ => cases h

/-- `op` selects an instruction that runs this template. -/
def Selects (op : Byte) (template : Nat → State → Result) : Prop := ∀ s, exec (decodeOpcode op) s = handler template s

/-! ## One address cycle -/

/-- Over the RAM `mem` with quiet lines, the machine stands at Tk of the opcode `op` with the registers and flags of `s`. -/
structure Stands (mem : Memory) (op : Byte) (s : State) (k : Nat) (t : State) : Prop where
  atT : AtT k t
  ir : t.ir = .opcode op
  a : t.a = s.a
  x : t.x = s.x
  y : t.y = s.y
  sp : t.s = s.s
  p : t.p = s.p
  ram : OverRam mem t
  quiet : t.lines.quiet

namespace SameButAddress

variable {u w : State}

theorem refl (u : State) : SameButAddress u u := ⟨rfl, rfl, rfl, rfl, rfl, rfl, rfl, rfl, rfl, rfl, rfl, rfl⟩

theorem setEA {v : Word} (h : SameButAddress u w) : SameButAddress u (w.setEA v) := { h with }
theorem setIAB {v : Byte} (h : SameButAddress u w) : SameButAddress u (w.setIAB v) := { h with }
theorem setLoc {v : Locals} (h : SameButAddress u w) : SameButAddress u (w.setLoc v) := { h with }
theorem incPC (h : SameButAddress u w) : SameButAddress u w.incPC := { h with }
theorem indexed {hi idx : Byte} (h : SameButAddress u w) : SameButAddress u (w.indexed hi idx) := h.setEA.setLoc

end SameButAddress

/-- What the address cycles write: `PC`, `EA`, `IAB` and the intermediates, as in `w`. -/
structure SameScratch (w t : State) : Prop where
  pc : t.pc = w.pc
  ea : t.ea = w.ea
  iab : t.iab = w.iab
  loc : t.loc = w.loc

section
variable {mem : Memory} {op : Byte} {s t w : State} {k n : Nat} {post : State → Prop} {template : Nat → State → Result}
  {address : Word} {v : Byte}

/-- A cycle whose line is a read and then new scratch values, and the rest of the run from there. -/
theorem Stands.cycle (h : Stands mem op s k t) (hsel : Selects op template)
    (hline : template k t = .next w.nextCycle) (hw : SameButAddress (OverRam.afterRead t address v false false) w)
    (hrest : ∀ t', Stands mem op s (k + 1) t' → SameScratch w t' → RunsTo n t' post) : RunsTo (n + 1) t post := by
  obtain ⟨hrst, -, -, -⟩ := h.quiet
  have hwf : t.lines.wf := h.ram.2.2
  have hstep : step t = .next (w.setStep (.executing k)) := by
    rw [step_executing h.atT.stepReg (pollRst_quiet hwf hrst), runHandler_opcode h.ir, hsel, h.atT.handler, hline,
      State.nextCycle_at h.atT hw.stepReg]
  refine .succ hstep (hrest _ ?_ ⟨rfl, rfl, rfl, rfl⟩)
  have hk := h.atT.1
  exact ⟨.mk (by omega) rfl, hw.ir.trans h.ir, hw.a.trans h.a, hw.x.trans h.x, hw.y.trans h.y, hw.s.trans h.sp,
    hw.p.trans h.p, h.ram.of_eq hw.devices hw.cfg hw.lines, hw.lines ▸ h.quiet⟩

/-- The fix-up cycle of an indexed mode, if it runs: a discarded read that leaves everything formed as it is. -/
theorem Stands.fixup {fix : Fixup} {idx : Byte} (h : Stands mem op s k t)
    (hsel : Selects op template)
    (hline : fixes fix t.loc = true → template k t = fixupCycle idx t)
    (hpost : ∀ t', Stands mem op s (k + fixCycles fix t.loc) t' → SameScratch t t' → post t') :
    RunsTo (fixCycles fix t.loc) t post := by
  by_cases hf : fixes fix t.loc = true
  · have one : fixCycles fix t.loc = 1 := if_pos hf
    rw [one] at hpost ⊢
    exact h.cycle hsel ((hline hf).trans ((h.ram.answersDummy _).dummyRead _)) (.refl _) fun t' ht' same =>
      .zero (hpost t' ht' ⟨same.pc, same.ea, same.iab, same.loc⟩)
  · have none : fixCycles fix t.loc = 0 := if_neg hf
    rw [none] at hpost ⊢
    exact .zero (hpost t h ⟨rfl, rfl, rfl, rfl⟩)

end

/-! ## Each mode, from T2 to its data cycle -/

/-- Whether the operand bytes after the opcode at `PC` carry the address of the mode into another page. -/
def crossesAt (mem : Memory) (m : AddrMode) (s : State) : Bool :=
  crossesPage mem m s.x s.y (mem.load (s.pc + 1)) (mem.load (s.pc + 2))

/-- At the data cycle of a mode, from a fetch in `s`: the address is formed, and the operand bytes are passed. -/
structure Formed (mem : Memory) (op : Byte) (s : State) (m : AddrMode) (fix : Fixup) (t : State) : Prop where
  stands : Stands mem op s (dataCycleOf m fix (crossesAt mem m s)) t
  count : dataCycle m fix t.loc = dataCycleOf m fix (crossesAt mem m s)
  ea : t.ea = effectiveAddress mem m s.x s.y (mem.load (s.pc + 1)) (mem.load (s.pc + 2))
  pc : t.pc = s.pc + 1 + BitVec.ofNat 16 (m.mode.length - 1)

/-- How many fix-up cycles there are, given whether a page is crossed. -/
def fixCyclesOf (fix : Fixup) (crossed : Bool) : Nat := fixCycles fix ⟨0, 0, 0, 0, 0, crossed, false⟩

theorem dataCycle_eq_dataCycleOf (m : AddrMode) (fix : Fixup) (loc : Locals) :
    dataCycle m fix loc = dataCycleOf m fix loc.crossed := by
  cases m <;> rfl

section
variable {mem : Memory} {op : Byte} {s t : State} {m : AddrMode} {fix : Fixup} {tail : Nat → State → Result} {k : Nat}

/-- The end of an indexed mode: the address has been formed, and the fix-up cycle is the only one that may be left. -/
theorem Stands.indexedEnd {idx : Byte} (h : Stands mem op s k t)
    (hsel : Selects op (addressCycles m fix tail))
    (hline : fixes fix t.loc = true → addressCycles m fix tail k t = fixupCycle idx t)
    (hk : ∀ crossed, dataCycleOf m fix crossed = k + fixCyclesOf fix crossed) (hcross : t.loc.crossed = crossesAt mem m s)
    (hea : t.ea = effectiveAddress mem m s.x s.y (mem.load (s.pc + 1)) (mem.load (s.pc + 2)))
    (hpc : t.pc = s.pc + 1 + BitVec.ofNat 16 (m.mode.length - 1)) :
    RunsTo (fixCyclesOf fix (crossesAt mem m s)) t (Formed mem op s m fix) := by
  have hfix : fixCycles fix t.loc = fixCyclesOf fix (crossesAt mem m s) := by rw [← hcross]; rfl
  rw [← hfix]
  refine h.fixup hsel hline fun t' ht' same => ?_
  rw [hfix, ← hk] at ht'
  refine ⟨ht', ?_, same.ea.trans hea, same.pc.trans hpc⟩
  rw [dataCycle_eq_dataCycleOf, same.loc, hcross]

/-- T1 has been: the machine stands at T2, the opcode passed. -/
structure Fetched (mem : Memory) (op : Byte) (s t : State) : Prop where
  stands : Stands mem op s 2 t
  pc : t.pc = s.pc + 1

/-- R101. -/
theorem Fetched.zp (h : Fetched mem op s t) (hsel : Selects op (addressCycles .zp fix tail)) :
    RunsTo 1 t (Formed mem op s .zp fix) := by
  obtain ⟨h2, pc2⟩ := h
  refine h2.cycle hsel ((h2.ram.answers _).busRead _) (.incPC (.setEA (.refl _))) fun t3 h3 w3 => .zero ⟨h3, rfl, ?_, ?_⟩
  · simp [w3.ea, pc2, effectiveAddress]
  · simp [w3.pc, OverRam.afterRead, pc2, AddrMode.mode, Mode.length]

/-- R102: the index is added inside page zero. -/
theorem Fetched.zpIndexed (h : Fetched mem op s t) (hm : m = .zpx ∨ m = .zpy) (hsel : Selects op (addressCycles m fix tail)) :
    RunsTo 2 t (Formed mem op s m fix) := by
  obtain ⟨h2, pc2⟩ := h
  rcases hm with rfl | rfl
  all_goals
    refine h2.cycle hsel ((h2.ram.answers _).busRead _) (.incPC (.setEA (.refl _))) fun t3 h3 w3 => ?_
    refine h3.cycle hsel ((h3.ram.answersDummy _).dummyRead _) (.setEA (.refl _)) fun t4 h4 w4 => .zero ⟨h4, rfl, ?_, ?_⟩
    · simp [w4.ea, w3.ea, pc2, OverRam.afterRead, h3.x, h3.y, effectiveAddress]
    · simp [w4.pc, w3.pc, OverRam.afterRead, pc2, AddrMode.mode, Mode.length]

/-- R103. -/
theorem Fetched.abs (h : Fetched mem op s t) (hsel : Selects op (addressCycles .abs fix tail)) :
    RunsTo 2 t (Formed mem op s .abs fix) := by
  obtain ⟨h2, pc2⟩ := h
  refine h2.cycle hsel ((h2.ram.answers _).busRead _) (.incPC (.setEA (.refl _))) fun t3 h3 w3 => ?_
  have pc3 : t3.pc = s.pc + 2 := by simp [w3.pc, OverRam.afterRead, pc2, BitVec.add_assoc]
  refine h3.cycle hsel ((h3.ram.answers _).busRead _) (.incPC (.setEA (.refl _))) fun t4 h4 w4 => .zero ⟨h4, rfl, ?_, ?_⟩
  · simp [w4.ea, w3.ea, OverRam.afterRead, pc2, pc3, effectiveAddress]
  · simp [w4.pc, OverRam.afterRead, pc3, AddrMode.mode, Mode.length, BitVec.add_assoc]

/-- R104 to R106: the carry out of the low byte is kept for the fix-up cycle. -/
theorem Fetched.absIndexed (h : Fetched mem op s t) (hm : m = .abx ∨ m = .aby) (hsel : Selects op (addressCycles m fix tail)) :
    RunsTo (fixCyclesOf fix (crossesAt mem m s) + 2) t (Formed mem op s m fix) := by
  obtain ⟨h2, pc2⟩ := h
  rcases hm with rfl | rfl
  all_goals
    refine h2.cycle hsel ((h2.ram.answers _).busRead _) (.incPC (.setLoc (.refl _))) fun t3 h3 w3 => ?_
    have pc3 : t3.pc = s.pc + 2 := by simp [w3.pc, OverRam.afterRead, pc2, BitVec.add_assoc]
    have lo3 : t3.loc.lo = mem.load (s.pc + 1) := by simp [w3.loc, pc2]
    refine h3.cycle hsel ((h3.ram.answers _).busRead _) (.incPC (.indexed (.refl _))) fun t4 h4 w4 => ?_
    refine h4.indexedEnd hsel (fun hf => if_pos hf) (fun _ => rfl) ?_ ?_ ?_
    · refine Eq.trans ?_ (carryOut_eq_crosses (mem.load (s.pc + 2)) _ _)
      simp [w4.loc, State.indexed, OverRam.afterRead, lo3, h3.x, h3.y]
    · simp [w4.ea, State.indexed, OverRam.afterRead, lo3, pc3, h3.x, h3.y, effectiveAddress]
    · simp [w4.pc, State.indexed, OverRam.afterRead, pc3, AddrMode.mode, Mode.length, BitVec.add_assoc]

/-- R107: the pointer is indexed inside page zero. -/
theorem Fetched.izx (h : Fetched mem op s t) (hsel : Selects op (addressCycles .izx fix tail)) :
    RunsTo 4 t (Formed mem op s .izx fix) := by
  obtain ⟨h2, pc2⟩ := h
  refine h2.cycle hsel ((h2.ram.answers _).busRead _) (.incPC (.setIAB (.refl _))) fun t3 h3 w3 => ?_
  refine h3.cycle hsel ((h3.ram.answersDummy _).dummyRead _) (.setIAB (.refl _)) fun t4 h4 w4 => ?_
  have iab4 : t4.iab = mem.load (s.pc + 1) + s.x := by simp [w4.iab, w3.iab, OverRam.afterRead, pc2, h3.x]
  refine h4.cycle hsel ((h4.ram.answers _).busRead _) (.setEA (.refl _)) fun t5 h5 w5 => ?_
  have iab5 : t5.iab = mem.load (s.pc + 1) + s.x := by simp [w5.iab, OverRam.afterRead, iab4]
  refine h5.cycle hsel ((h5.ram.answers _).busRead _) (.setEA (.refl _)) fun t6 h6 w6 => .zero ⟨h6, rfl, ?_, ?_⟩
  · simp [w6.ea, w5.ea, OverRam.afterRead, iab4, iab5, effectiveAddress]
  · simp [w6.pc, w5.pc, w4.pc, w3.pc, OverRam.afterRead, pc2, AddrMode.mode, Mode.length]

/-- R108, R109: the word at the pointer is indexed. -/
theorem Fetched.izy (h : Fetched mem op s t) (hsel : Selects op (addressCycles .izy fix tail)) :
    RunsTo (fixCyclesOf fix (crossesAt mem .izy s) + 3) t (Formed mem op s .izy fix) := by
  obtain ⟨h2, pc2⟩ := h
  refine h2.cycle hsel ((h2.ram.answers _).busRead _) (.incPC (.setIAB (.refl _))) fun t3 h3 w3 => ?_
  have iab3 : t3.iab = mem.load (s.pc + 1) := by simp [w3.iab, pc2]
  refine h3.cycle hsel ((h3.ram.answers _).busRead _) (.setLoc (.refl _)) fun t4 h4 w4 => ?_
  have iab4 : t4.iab = mem.load (s.pc + 1) := by simp [w4.iab, OverRam.afterRead, iab3]
  have lo4 : t4.loc.lo = mem.load (zext16 (mem.load (s.pc + 1))) := by simp [w4.loc, iab3]
  refine h4.cycle hsel ((h4.ram.answers _).busRead _) (.indexed (.refl _)) fun t5 h5 w5 => ?_
  refine h5.indexedEnd hsel (fun hf => if_pos hf) (fun _ => rfl) ?_ ?_ ?_
  · refine Eq.trans ?_ (carryOut_eq_crosses (mem.load (zext16 (mem.load (s.pc + 1) + 1))) _ _)
    simp [w5.loc, State.indexed, OverRam.afterRead, lo4, h4.y]
  · simp [w5.ea, State.indexed, OverRam.afterRead, lo4, iab4, h4.y, effectiveAddress]
  · simp [w5.pc, w4.pc, w3.pc, State.indexed, OverRam.afterRead, pc2, AddrMode.mode, Mode.length]

/-- R110. -/
theorem Fetched.izp (h : Fetched mem op s t) (hsel : Selects op (addressCycles .izp fix tail)) :
    RunsTo 3 t (Formed mem op s .izp fix) := by
  obtain ⟨h2, pc2⟩ := h
  refine h2.cycle hsel ((h2.ram.answers _).busRead _) (.incPC (.setIAB (.refl _))) fun t3 h3 w3 => ?_
  have iab3 : t3.iab = mem.load (s.pc + 1) := by simp [w3.iab, pc2]
  refine h3.cycle hsel ((h3.ram.answers _).busRead _) (.setEA (.refl _)) fun t4 h4 w4 => ?_
  have iab4 : t4.iab = mem.load (s.pc + 1) := by simp [w4.iab, OverRam.afterRead, iab3]
  refine h4.cycle hsel ((h4.ram.answers _).busRead _) (.setEA (.refl _)) fun t5 h5 w5 => .zero ⟨h5, rfl, ?_, ?_⟩
  · simp [w5.ea, w4.ea, OverRam.afterRead, iab3, iab4, effectiveAddress]
  · simp [w5.pc, w4.pc, w3.pc, OverRam.afterRead, pc2, AddrMode.mode, Mode.length]

/-- From T2 to the data cycle in any mode. -/
theorem Fetched.runsToData (h : Fetched mem op s t) (hsel : Selects op (addressCycles m fix tail)) :
    ∃ n, n + 2 = dataCycleOf m fix (crossesAt mem m s) ∧ RunsTo n t (Formed mem op s m fix) := by
  cases m with
  | zp => exact ⟨1, rfl, h.zp hsel⟩
  | zpx => exact ⟨2, rfl, h.zpIndexed (.inl rfl) hsel⟩
  | zpy => exact ⟨2, rfl, h.zpIndexed (.inr rfl) hsel⟩
  | abs => exact ⟨2, rfl, h.abs hsel⟩
  | abx => exact ⟨_, Nat.add_comm _ 4, h.absIndexed (.inl rfl) hsel⟩
  | aby => exact ⟨_, Nat.add_comm _ 4, h.absIndexed (.inr rfl) hsel⟩
  | izx => exact ⟨4, rfl, h.izx hsel⟩
  | izy => exact ⟨_, Nat.add_comm _ 5, h.izy hsel⟩
  | izp => exact ⟨3, rfl, h.izp hsel⟩

end

/-! ## From the fetch -/

theorem fetched_of_sameCpu {mem : Memory} {op : Byte} {s u : State} (cpu : SameCpu s u) (hram : OverRam mem u)
    (hquiet : u.lines.quiet) : Fetched mem op s ((u.fetched op).setStep (.executing 1)) :=
  ⟨⟨.mk (Nat.le_refl 2) rfl, rfl, cpu.a, cpu.x, cpu.y, cpu.s, cpu.p, hram.of_eq rfl rfl rfl, hquiet⟩,
    congrArg (· + 1) cpu.pc⟩

/-- T1 over one RAM with quiet lines: the opcode of a documented instruction is fetched (R93). -/
theorem step_fetchesOver {mem : Memory} {op : Byte} {s : State} (h : FetchesOver mem op s) (hdoc : op ∉ reservedOpcodes) :
    ∃ t, step s = .next t ∧ Fetched mem op s t := by
  obtain ⟨hram, hquiet, hs, hop⟩ := h
  obtain ⟨-, hcfg, hwf⟩ := id hram
  obtain ⟨hrst, hirq, -, hnmi⟩ := id hquiet
  have nmi : pollNmi s = (false, s) := pollNmi_quiet hwf (by rw [hcfg]; rfl) hnmi
  have irq : pollIrq s = false := (pollIrq_level hwf).trans hirq
  have answered : AnswersSync s.pc s op (OverRam.afterRead s s.pc op true false) := by
    simpa only [hop] using hram.answersSync s.pc
  have first := step_fetched hs (pollRst_quiet hwf hrst) (congrArg Prod.fst nmi) (by simp [irq])
    (by simpa only [nmi] using answered)
  have cpu := answered.effect.cpu
  have unlisted : op ∉ s.cfg.reservedOpcodes := by rw [hcfg]; exact hdoc
  rw [finishCycle_documented rfl rfl (cpu.cfg ▸ unlisted) hdoc] at first
  exact ⟨_, first, fetched_of_sameCpu cpu (hram.of_eq rfl rfl rfl) hquiet⟩

/-- Settles O48: T1 is the fetch, and then each mode runs its address cycles. -/
theorem addressCyclesFormTheEffectiveAddress : Obligations.AddressCyclesFormTheEffectiveAddress := by
  intro i m fix mem op s hform hwf hop hfetch b1 b2 k
  obtain ⟨hmode, hdoc, tail, hexec⟩ := memoryForm_spec hform
  obtain ⟨op', hop', hi⟩ := Laws.OpcodeRoundTrip.everyInstr i hwf
  obtain rfl : op = op' := Option.some.inj (hop.symm.trans hop')
  have documented : op ∉ reservedOpcodes := fun hb =>
    have ⟨c, hc⟩ := mem_reservedOpcodes_iff.mp hb
    hdoc c (hi.symm.trans hc)
  have selects : Selects op (addressCycles m fix tail) := fun st => hi ▸ hexec st
  obtain ⟨t, hstep, fetched⟩ := step_fetchesOver hfetch documented
  obtain ⟨n, hn, d, hrun, stands, count, hea, hpc⟩ := fetched.runsToData selects
  have hlen : k - 1 = n + 1 := by
    have hk : n + 2 = k := hn
    omega
  have passed : d.pc = s.pc + 1 + BitVec.ofNat 16 i.operandCount := by rw [hpc, Instr.operandCount, hmode]
  rw [hlen]
  exact .succ hstep ⟨d, hrun, stands.atT, count, stands.ir, hea, passed, stands.a, stands.x, stands.y, stands.sp, stands.p,
    stands.ram, stands.quiet⟩

end Sys2Proof.Machine
end

section
/-! PROOFS. Compares, shifts and rotates (40_engine.md R123, R124): the difference of two bytes as a 9-bit sum, and the bits of the
four transforms. -/

namespace Sys2Proof.Machine

/-! ## The difference as a sum -/

/-- `r + ~m + 1` in nine bits is `256 + r - m`. -/
theorem sum9_complement_toNat (r m : Byte) : (sum9 r (~~~m) true).toNat = 256 + r.toNat - m.toNat := by
  have hr := r.isLt
  have hm := m.isLt
  have one : ((flagBit true).setWidth 9).toNat = 1 := rfl
  have hnot : (~~~m).toNat = 255 - m.toNat := BitVec.toNat_not
  rw [sum9, BitVec.toNat_add, BitVec.toNat_add, one, BitVec.toNat_setWidth, BitVec.toNat_setWidth, hnot]
  omega

theorem sum9_complement_result (r m : Byte) : (sum9 r (~~~m) true).setWidth 8 = r - m := by
  have hr := r.isLt
  have hm := m.isLt
  apply BitVec.eq_of_toNat_eq
  rw [BitVec.toNat_setWidth, sum9_complement_toNat, BitVec.toNat_sub]
  omega

/-- Bit 8 of the sum says that there is no borrow. -/
theorem sum9_complement_carry (r m : Byte) : (sum9 r (~~~m) true).getLsbD 8 = decide (m.toNat ≤ r.toNat) := by
  have hr := r.isLt
  have hm := m.isLt
  rw [BitVec.getLsbD, sum9_complement_toNat, Nat.testBit_eq_decide_div_mod_eq]
  congr 1
  apply propext
  omega

theorem Flags.compare_eq (p : Flags) (r m : Byte) :
    p.compare r m = { p with n := (r - m).msb, z := r - m == 0, c := decide (m.toNat ≤ r.toNat) } := by
  simp only [Flags.compare, Flags.setNZ, sum9_complement_result, sum9_complement_carry]

theorem sub_eq_zero_iff (r m : Byte) : (r - m == 0) = true ↔ r = m := by
  rw [beq_iff_eq, sub_eq_zero]

/-- The sign of the difference is the signed order when the difference fits in a byte. -/
theorem msb_sub_iff {r m : Byte} (hlo : -128 ≤ r.toInt - m.toInt) (hhi : r.toInt - m.toInt ≤ 127) :
    (r - m).msb = true ↔ r.toInt < m.toInt := by
  have fits : (r - m).toInt = r.toInt - m.toInt := by
    rw [BitVec.toInt_sub]
    exact Int.bmod_eq_of_le (by omega) (by omega)
  rw [BitVec.msb_eq_toInt, decide_eq_true_iff, fits]
  omega

/-- Settles O22: by the difference as a sum; `SBC` with the carry set adds the same sum. -/
theorem compareMeansOrder : Obligations.CompareMeansOrder := by
  intro p r m
  have hresult : (subWithCarry r m true).result = r - m := sum9_complement_result r m
  have hcarry : (subWithCarry r m true).carry = decide (m.toNat ≤ r.toNat) := sum9_complement_carry r m
  rw [p.compare_eq r m, hresult, hcarry]
  exact ⟨sub_eq_zero_iff r m, decide_eq_true_iff, rfl, msb_sub_iff, rfl, rfl, rfl, rfl, rfl, rfl⟩

/-! ## The four transforms -/

section
variable (a t : Byte) (p : Flags) {k : Nat}

theorem asl_bit (hk : k < 8) : (asl a p t).1.getLsbD k = (decide (0 < k) && t.getLsbD (k - 1)) := by
  simp only [asl, shifted, BitVec.getLsbD_shiftLeft, hk, decide_true, Bool.true_and]
  cases k <;> simp

theorem lsr_bit : (lsr a p t).1.getLsbD k = t.getLsbD (k + 1) := by
  simp only [lsr, shifted, BitVec.getLsbD_ushiftRight, Nat.add_comm 1 k]

/-- The carry enters at bit 0. -/
theorem rol_bit (hk : k < 8) : (rol a p t).1.getLsbD k = if k = 0 then p.c else t.getLsbD (k - 1) := by
  cases k with
  | zero => simp [rol, shifted, flagBit]
  | succ j =>
    have hj : j < 8 := by omega
    simp [rol, shifted, flagBit, hk, BitVec.getLsbD_eq_getElem hj]

/-- The carry enters at bit 7. -/
theorem ror_bit (hk : k < 8) : (ror a p t).1.getLsbD k = if k = 7 then p.c else t.getLsbD (k + 1) := by
  split
  · next h7 => subst h7; simp [ror, shifted, flagBit]
  · next h7 =>
    have hlt : k < 7 := by omega
    simp [ror, shifted, flagBit, hlt, Nat.add_comm 1 k]

theorem lsr_msb : (lsr a p t).1.msb = false := by
  rw [BitVec.msb_eq_getLsbD_last, lsr_bit]
  exact BitVec.getLsbD_of_ge t 8 (Nat.le_refl 8)

theorem ror_msb : (ror a p t).1.msb = p.c := by
  rw [BitVec.msb_eq_getLsbD_last, ror_bit a t p (by decide)]
  rfl

end

/-- Settles O23: bit by bit; the flags are the bit shifted out and `setNZ` of the result. -/
theorem shiftsBitByBit : Obligations.ShiftsBitByBit := by
  intro a t p k hk
  have lsrFlags : (lsr a p t).2 = { p with c := t.getLsbD 0, n := false, z := (lsr a p t).1 == 0 } := by
    rw [← lsr_msb a t p]; rfl
  have rorFlags : (ror a p t).2 = { p with c := t.getLsbD 0, n := p.c, z := (ror a p t).1 == 0 } := by
    conv_rhs => rw [← ror_msb a t p]
    rfl
  exact ⟨asl_bit a t p hk, lsr_bit a t p, rol_bit a t p hk, ror_bit a t p hk, rfl, lsrFlags, rfl, rorFlags⟩

/-- Settles O24: each bit is shifted away and back, bit 7 or bit 0 by way of the carry. -/
theorem rotatesUndoEachOther : Obligations.RotatesUndoEachOther := by
  intro a t p
  have rolCarry : ∀ q (v : Byte), (rol a q v).2.c = v.getLsbD 7 := fun _ _ => rfl
  have rorCarry : ∀ q (v : Byte), (ror a q v).2.c = v.getLsbD 0 := fun _ _ => rfl
  refine ⟨⟨?_, ?_⟩, ?_, ?_⟩
  · apply BitVec.eq_of_getLsbD_eq
    intro k hk
    rw [ror_bit a _ _ hk]
    split
    · next h7 => rw [rolCarry, h7]
    · rw [rol_bit a t p (by omega)]; rfl
  · rw [rorCarry, rol_bit a t p (by decide)]; rfl
  · apply BitVec.eq_of_getLsbD_eq
    intro k hk
    rw [rol_bit a _ _ hk]
    split
    · next h0 => rw [rorCarry, h0]
    · rw [ror_bit a t p (by omega), if_neg (by omega), Nat.sub_add_cancel (by omega)]
  · rw [rolCarry, ror_bit a t p (by decide)]; rfl

end Sys2Proof.Machine
end

section
/-! PROOFS. Loads, stores, transfers and index counts (41_load_store_transfer.md R140 to R152, 43_rmw_bit.md R181 to R184): each
class of statement follows from its template once the operation is named. -/

namespace Sys2Proof.Machine

/-! ## The registers an operation reads -/

/-- The registers and flags of `st'` are those of `st`. -/
structure SameRegisters (st st' : State) : Prop where
  a : st'.a = st.a
  x : st'.x = st.x
  y : st'.y = st.y
  s : st'.s = st.s
  p : st'.p = st.p

theorem SameCpu.sameRegisters {s u : State} (h : SameCpu s u) : SameRegisters s u := ⟨h.a, h.x, h.y, h.s, h.p⟩

theorem sameRegisters_afterOperand {o : ReadMode} {s u : State} {m : Byte} (ha : Answers (operandAddress o s) s m u) :
    SameRegisters s (afterOperand o u) := by
  obtain ⟨a, x, y, s, p, -⟩ := afterOperand_same ha
  exact ⟨a, x, y, s, p⟩

theorem Flags.setNZ_eq_nzOf (p : Flags) (v : Byte) : p.setNZ v = nzOf p v := rfl

/-! ## From a class's template to the end of its instructions -/

/-- A class R instruction ends in the effect of its operation. -/
theorem readEnds_of_op {i : ReadMode → Instr} {op : ReadMode → Byte → State → Result}
    {effect : ReadMode → Byte → State → State → State} (hi : ∀ o s, exec (i o) s = readInstr o (op o) s)
    (hop : ∀ o m s v, SameRegisters s v → op o m v = .next (effect o m s v)) : ReadEnds i effect := by
  intro o s m u hat ha
  rw [hi, readInstr_end hat ha, hop o m s _ (sameRegisters_afterOperand ha), finish, State.done]

/-- A class W instruction ends in the write of its value. -/
theorem writeEnds_of_writeInstr {i : AddrMode → Instr} {val : State → Byte}
    (hi : ∀ m s, exec (i m) s = writeInstr m val s) : WriteEnds i val := by
  intro m s hat
  rw [hi, writeInstr_end hat, State.done]

/-- A two-cycle instruction ends in its effect. -/
theorem impliedEnds_of_effect {i : Instr} {f : State → State} {effect : State → State → State}
    (hi : ∀ s, exec i s = handler (impliedCycles f) s) (hf : ∀ s u, SameRegisters s u → f u = effect s u) :
    ImpliedEnds i effect := by
  intro s u hat ha
  rw [hi, impliedCycles_end hat ha, hf s u ha.effect.cpu.sameRegisters, State.done]

/-- A two-cycle instruction that writes one register, and N and Z of its new value. -/
theorem impliedEnds_of_write {i : Instr} (write : State → Byte → State) (value : State → Byte)
    (hi : ∀ s, exec i s = handler (impliedCycles fun u => (write u (value u)).setP (u.p.setNZ (value u))) s)
    (hv : ∀ s u, SameRegisters s u → value u = value s) :
    ImpliedEnds i (fun s u => (write u (value s)).setP (nzOf s.p (value s))) :=
  impliedEnds_of_effect hi fun s u h => by rw [hv s u h, h.p, Flags.setNZ_eq_nzOf]

/-! ## The instructions -/

/-- Settles O28: the operand byte goes to the register, and the flags it meets are those of the start of the cycle. -/
theorem loadsComplete : Obligations.LoadsComplete := by
  refine ⟨readEnds_of_op (op := fun _ => opLda) (fun _ _ => rfl) fun _ m s v h => ?lda,
    readEnds_of_op (op := fun _ => opLdx) (fun _ _ => rfl) fun _ m s v h => ?ldx,
    readEnds_of_op (op := fun _ => opLdy) (fun _ _ => rfl) fun _ m s v h => ?ldy⟩
  case lda => rw [opLda, h.p, Flags.setNZ_eq_nzOf]
  case ldx => rw [opLdx, h.p, Flags.setNZ_eq_nzOf]
  case ldy => rw [opLdy, h.p, Flags.setNZ_eq_nzOf]

/-- Settles O33: each store is its class's template with its register, or zero, for the value. -/
theorem storesComplete : Obligations.StoresComplete :=
  ⟨writeEnds_of_writeInstr fun _ _ => rfl, writeEnds_of_writeInstr fun _ _ => rfl,
    writeEnds_of_writeInstr fun _ _ => rfl, writeEnds_of_writeInstr fun _ _ => rfl⟩

/-- Settles O34: nine write a register with its flags, `TXS` a register alone. -/
theorem transfersAndIndexCountsComplete : Obligations.TransfersAndIndexCountsComplete := by
  refine ⟨?tax, ?tay, ?txa, ?tya, ?tsx, ?txs, ?inx, ?iny, ?dex, ?dey⟩
  case tax => exact impliedEnds_of_write State.setX State.a (fun _ => rfl) fun _ _ h => h.a
  case tay => exact impliedEnds_of_write State.setY State.a (fun _ => rfl) fun _ _ h => h.a
  case txa => exact impliedEnds_of_write State.setA State.x (fun _ => rfl) fun _ _ h => h.x
  case tya => exact impliedEnds_of_write State.setA State.y (fun _ => rfl) fun _ _ h => h.y
  case tsx => exact impliedEnds_of_write State.setX State.s (fun _ => rfl) fun _ _ h => h.s
  case txs => exact impliedEnds_of_effect (fun _ => rfl) fun _ u h => congrArg u.setS h.x
  case inx => exact impliedEnds_of_write State.setX (·.x + 1) (fun _ => rfl) fun _ _ h => congrArg (· + 1) h.x
  case iny => exact impliedEnds_of_write State.setY (·.y + 1) (fun _ => rfl) fun _ _ h => congrArg (· + 1) h.y
  case dex => exact impliedEnds_of_write State.setX (·.x - 1) (fun _ => rfl) fun _ _ h => congrArg (· - 1) h.x
  case dey => exact impliedEnds_of_write State.setY (·.y - 1) (fun _ => rfl) fun _ _ h => congrArg (· - 1) h.y

end Sys2Proof.Machine
end

section
/-! PROOFS. Logic, arithmetic, compare and bit test (42_alu.md R160 to R170; 40_engine.md R121 to R123): the 9-bit adder as
arithmetic on the naturals and on the integers, and the ends of the instructions that use it. -/

namespace Sys2Proof.Machine

/-! ## The adder -/

/-- No carry out of nine bits is lost. -/
theorem sum9_toNat (a m : Byte) (c : Bool) : (sum9 a m c).toNat = a.toNat + m.toNat + c.toNat := by
  have ha := a.isLt
  have hm := m.isLt
  have hc := c.toNat_le
  have carryIn : ((flagBit c).setWidth 9).toNat = c.toNat := by cases c <;> rfl
  rw [sum9, BitVec.toNat_add, BitVec.toNat_add, carryIn, BitVec.toNat_setWidth, BitVec.toNat_setWidth]
  omega

/-- 40_engine.md R121 in numbers. -/
theorem addWithCarry_eq (a m : Byte) (c : Bool) :
    addWithCarry a m c =
      let sum := a.toNat + m.toNat + c.toNat
      ⟨BitVec.ofNat 8 sum, decide (255 < sum), (~~~(a ^^^ m) &&& (a ^^^ BitVec.ofNat 8 sum)).msb⟩ := by
  have ha := a.isLt
  have hm := m.isLt
  have hc := c.toNat_le
  have result : (sum9 a m c).setWidth 8 = BitVec.ofNat 8 (a.toNat + m.toNat + c.toNat) := by
    rw [← sum9_toNat]; rfl
  have carry : (sum9 a m c).getLsbD 8 = decide (255 < a.toNat + m.toNat + c.toNat) := by
    rw [BitVec.getLsbD, sum9_toNat, Nat.testBit_eq_decide_div_mod_eq, decide_eq_decide]
    omega
  simp only [addWithCarry, result, carry, BitVec.msb_eq_getLsbD_last, Nat.reduceSub]

theorem not_xor_not (a m : Byte) : ~~~(a ^^^ ~~~m) = a ^^^ m := by
  rw [BitVec.not_xor_right, BitVec.not_not]

/-- 42_alu.md R169 (b): a subtraction is the addition of the complement. -/
theorem subWithCarry_eq_add (a m : Byte) (c : Bool) : subWithCarry a m c = addWithCarry a (~~~m) c := by
  simp only [subWithCarry, addWithCarry, not_xor_not]

/-- 40_engine.md R122 in numbers. -/
theorem subWithCarry_eq (a m : Byte) (c : Bool) :
    subWithCarry a m c =
      let borrow := 1 - c.toNat
      let r := a - m - BitVec.ofNat 8 borrow
      ⟨r, decide (m.toNat + borrow ≤ a.toNat), ((a ^^^ m) &&& (a ^^^ r)).msb⟩ := by
  have ha := a.isLt
  have hm := m.isLt
  have hc := c.toNat_le
  have result : BitVec.ofNat 8 (a.toNat + (~~~m).toNat + c.toNat) = a - m - BitVec.ofNat 8 (1 - c.toNat) := by
    apply BitVec.eq_of_toNat_eq
    rw [BitVec.toNat_sub, BitVec.toNat_sub, BitVec.toNat_ofNat, BitVec.toNat_ofNat, BitVec.toNat_not]
    omega
  have carry : 255 < a.toNat + (~~~m).toNat + c.toNat ↔ m.toNat + (1 - c.toNat) ≤ a.toNat := by
    rw [BitVec.toNat_not]
    omega
  simp only [subWithCarry_eq_add, addWithCarry_eq, not_xor_not, result, carry]

/-- 42_alu.md R169 (a): carry and result are the two digits, to the base 256, of the sum. -/
theorem addWithCarry_toNat (a m : Byte) (c : Bool) :
    (addWithCarry a m c).result.toNat + 256 * (addWithCarry a m c).carry.toNat = a.toNat + m.toNat + c.toNat := by
  have ha := a.isLt
  have hm := m.isLt
  have hc := c.toNat_le
  simp only [addWithCarry_eq, BitVec.toNat_ofNat]
  by_cases carries : 255 < a.toNat + m.toNat + c.toNat
  · rw [decide_eq_true carries, Bool.toNat_true]
    omega
  · rw [decide_eq_false carries, Bool.toNat_false]
    omega

/-- 42_alu.md R169 (c): the same two digits, of `256 + a - m - (1 - c)`. -/
theorem subWithCarry_toNat (a m : Byte) (c : Bool) :
    (subWithCarry a m c).result.toNat + 256 * (subWithCarry a m c).carry.toNat + m.toNat + 1 = 256 + a.toNat + c.toNat := by
  have hm := m.isLt
  have digits := addWithCarry_toNat a (~~~m) c
  rw [BitVec.toNat_not] at digits
  rw [subWithCarry_eq_add]
  omega

/-- 42_alu.md R169 (c): the carry says that there is no borrow. -/
theorem subWithCarry_carry_iff (a m : Byte) (c : Bool) :
    (subWithCarry a m c).carry = true ↔ m.toNat + (1 - c.toNat) ≤ a.toNat := by
  rw [subWithCarry_eq]
  exact decide_eq_true_iff

/-! ## Overflow -/

/-- 40_engine.md R121: the operands agree in their sign and the result does not. -/
theorem addWithCarry_overflow_iff_msb (a m : Byte) (c : Bool) :
    (addWithCarry a m c).overflow = true ↔ a.msb = m.msb ∧ a.msb ≠ (addWithCarry a m c).result.msb := by
  simp only [addWithCarry_eq, BitVec.msb_and, BitVec.msb_not, BitVec.msb_xor]
  generalize a.msb = sa, m.msb = sm, (BitVec.ofNat 8 _).msb = sr
  revert sa sm sr
  decide

/-- 42_alu.md R169 (d): the signed sum does not fit in a byte. -/
theorem addWithCarry_overflow_iff (a m : Byte) (c : Bool) :
    (addWithCarry a m c).overflow = true ↔ a.toInt + m.toInt + c.toNat < -128 ∨ 127 < a.toInt + m.toInt + c.toNat := by
  have ha := a.isLt
  have hm := m.isLt
  have hc := c.toNat_le
  have hr := (addWithCarry a m c).result.isLt
  have hk := (addWithCarry a m c).carry.toNat_le
  have digits := addWithCarry_toNat a m c
  rw [addWithCarry_overflow_iff_msb, BitVec.toInt_eq_toNat_cond, BitVec.toInt_eq_toNat_cond]
  simp only [BitVec.msb_eq_decide, ne_eq, decide_eq_decide]
  split <;> split <;> omega

theorem toInt_not_byte (m : Byte) : (~~~m).toInt = -1 - m.toInt := by
  have hm := m.isLt
  rw [BitVec.toInt_eq_toNat_cond, BitVec.toInt_eq_toNat_cond, BitVec.toNat_not]
  split <;> split <;> omega

/-- 42_alu.md R169 (d): the signed difference does not fit in a byte. -/
theorem subWithCarry_overflow_iff (a m : Byte) (c : Bool) :
    (subWithCarry a m c).overflow = true ↔
      a.toInt - m.toInt - (1 - c.toNat : Int) < -128 ∨ 127 < a.toInt - m.toInt - (1 - c.toNat : Int) := by
  rw [subWithCarry_eq_add, addWithCarry_overflow_iff, toInt_not_byte]
  omega

/-- Settles O19: the adder in numbers, on the naturals and on the integers. -/
theorem addAndSubtractAreExact : Obligations.AddAndSubtractAreExact := by
  intro a m c
  have difference : (subWithCarry a m c).result = a - m - (if c then 0 else 1) := by
    rw [subWithCarry_eq]
    cases c <;> rfl
  exact ⟨addWithCarry_toNat a m c, subWithCarry_eq_add a m c, difference, subWithCarry_carry_iff a m c,
    addWithCarry_overflow_iff a m c, subWithCarry_overflow_iff a m c⟩

/-! ## Two bytes -/

theorem cat_toInt (h l : Byte) : (cat h l).toInt = 256 * h.toInt + l.toNat := BitVec.toInt_append

/-- Settles O20: the carry that the low bytes hand on is a digit of weight 256 in the sum of the words. -/
theorem carryChainsTwoBytes : Obligations.CarryChainsTwoBytes := by
  intro ah al bh bl
  refine ⟨?_, ?_⟩
  · intro low high
    have lowDigits : low.result.toNat + 256 * low.carry.toNat = al.toNat + bl.toNat + 0 := addWithCarry_toNat al bl false
    have highDigits : high.result.toNat + 256 * high.carry.toNat = ah.toNat + bh.toNat + low.carry.toNat :=
      addWithCarry_toNat ah bh low.carry
    refine ⟨?_, ?_, ?_⟩
    · apply BitVec.eq_of_toNat_eq
      rw [BitVec.toNat_add, cat_toNat, cat_toNat, cat_toNat]
      omega
    · rw [cat_toNat, cat_toNat, ← Bool.toNat_eq_one]
      omega
    · rw [cat_toInt, cat_toInt, addWithCarry_overflow_iff ah bh low.carry]
      omega
  · intro low high
    have lowDigits : low.result.toNat + 256 * low.carry.toNat + bl.toNat + 1 = 256 + al.toNat + 1 :=
      subWithCarry_toNat al bl true
    have highDigits : high.result.toNat + 256 * high.carry.toNat + bh.toNat + 1 = 256 + ah.toNat + low.carry.toNat :=
      subWithCarry_toNat ah bh low.carry
    refine ⟨?_, ?_, ?_⟩
    · apply BitVec.eq_of_toNat_eq
      rw [BitVec.toNat_sub, cat_toNat, cat_toNat, cat_toNat]
      omega
    · rw [cat_toNat, cat_toNat, ← Bool.toNat_eq_one]
      omega
    · rw [cat_toInt, cat_toInt, subWithCarry_overflow_iff ah bh low.carry]
      omega

/-! ## The round trip -/

/-- A subtract entered with `c` undoes an add entered with `cin` exactly when one of the two carries is set. -/
theorem subWithCarry_addWithCarry_iff (a b : Byte) (cin c : Bool) :
    (subWithCarry (addWithCarry a b cin).result b c).result = a ↔ c = !cin := by
  have ha := a.isLt
  have hr := (subWithCarry (addWithCarry a b cin).result b c).result.isLt
  have added := addWithCarry_toNat a b cin
  have subtracted := subWithCarry_toNat (addWithCarry a b cin).result b c
  have complement : ∀ x y : Bool, (x = !y) ↔ x.toNat + y.toNat = 1 := by decide
  have hcin := cin.toNat_le
  have hc := c.toNat_le
  rw [complement, BitVec.toNat_eq]
  omega

/-- Settles O21: the subtract undoes the add by the carries that enter them; an add after a subtract is the same with the
complement of `b`. -/
theorem roundTripLaw : Obligations.RoundTripLaw := by
  refine ⟨fun a b cin => ?restored, fun a b cin => ?converse, fun a b cin => ?carryOut⟩
  case restored => exact (subWithCarry_addWithCarry_iff a b cin _).mpr rfl
  case converse =>
    have restored := (subWithCarry_addWithCarry_iff a (~~~b) cin _).mpr rfl
    rwa [← subWithCarry_eq_add, subWithCarry_eq_add _ (~~~b), BitVec.not_not] at restored
  case carryOut => rw [subWithCarry_addWithCarry_iff, Bool.eq_not, ne_comm]

/-! ## The ends of the instructions -/

/-- Settles O29: each is a load of the combined byte into `A`. -/
theorem logicCompletes : Obligations.LogicCompletes := by
  refine ⟨readEnds_of_op (op := fun _ => opOra) (fun _ _ => rfl) fun _ m s v h => ?ora,
    readEnds_of_op (op := fun _ => opAnd) (fun _ _ => rfl) fun _ m s v h => ?and,
    readEnds_of_op (op := fun _ => opEor) (fun _ _ => rfl) fun _ m s v h => ?eor⟩
  case ora => rw [opOra, opLda, h.a, h.p, Flags.setNZ_eq_nzOf]
  case and => rw [opAnd, opLda, h.a, h.p, Flags.setNZ_eq_nzOf]
  case eor => rw [opEor, opLda, h.a, h.p, Flags.setNZ_eq_nzOf]

/-- 40_engine.md R125: outside decimal mode, and under the policy that disregards it, the sum is written. -/
theorem decimalGuard_binary {st : State} (h : st.p.d = false ∨ st.cfg.decimalPolicy = .binary) (binary : State) :
    decimalGuard st binary = .next binary := by
  rcases h with h | h <;> simp [decimalGuard, h]

theorem applySum_eq (sum : Sum) (st : State) :
    applySum sum st = (st.setA sum.result).setP
      { st.p with n := sum.result.msb, v := sum.overflow, z := sum.result == 0, c := sum.carry } := rfl

/-- Settles O30: the guard passes, and the sum written is the one of R121 and R122 in numbers. -/
theorem adcSbcComplete : Obligations.AdcSbcComplete := by
  intro o s u m hbinary ha
  obtain ⟨sameA, -, -, -, sameP, sameCfg⟩ := afterOperand_same ha
  have computes := decimalGuard_binary (st := afterOperand o u) (by rwa [sameP, sameCfg])
  refine ⟨fun hat => ?_, fun hat => ?_⟩
  · rw [exec, execAdc, readInstr_end hat ha, opAdc, computes, finish, State.done, applySum_eq, sameA, sameP, addWithCarry_eq]
  · rw [exec, execSbc, readInstr_end hat ha, opSbc, computes, finish, State.done, applySum_eq, sameA, sameP, subWithCarry_eq]

/-- `Z` of a compare says equal. -/
theorem sub_beq_zero (r m : Byte) : (r - m == 0) = (r == m) := by
  rw [Bool.eq_iff_iff, sub_eq_zero_iff, beq_iff_eq]

/-- A compare ends in the flags of its register minus the operand. -/
theorem readEnds_compare {i : ReadMode → Instr} {r : State → Byte} (hi : ∀ o s, exec (i o) s = readInstr o (opCompare r) s)
    (hr : ∀ s v, SameRegisters s v → r v = r s) :
    ReadEnds i fun _ m s u =>
      u.setP { s.p with n := (r s - m).msb, z := r s == m, c := decide (m.toNat ≤ (r s).toNat) } :=
  readEnds_of_op (op := fun _ => opCompare r) hi fun _ m s v h => by
    rw [opCompare, Flags.compare_eq, sub_beq_zero, hr s v h, h.p]

/-- Settles O32: the compares differ in their register, `BIT` by its form. -/
theorem comparesAndBitComplete : Obligations.ComparesAndBitComplete := by
  refine ⟨readEnds_compare (fun _ _ => rfl) fun _ _ h => h.a, readEnds_compare (fun _ _ => rfl) fun _ _ h => h.x,
    readEnds_compare (fun _ _ => rfl) fun _ _ h => h.y,
    readEnds_of_op (op := opBitOf) (fun _ _ => rfl) fun o m s v h => ?bit⟩
  case bit =>
    cases o with
    | imm => rw [opBitOf, opBitImm, h.a, h.p, if_pos rfl]
    | mem md => rw [opBitOf, opBit, h.a, h.p, if_neg nofun]

end Sys2Proof.Machine
end

section
/-! PROOFS. Shifts, rotates, counts and memory bits (43_rmw_bit.md R175 to R188): what each transform writes, and the ends of the
accumulator form and of the read-modify-write form for any transform. -/

namespace Sys2Proof.Machine

/-! ## The transforms -/

theorem flagBit_eq_carryByte (c : Bool) : (flagBit c).setWidth 8 = carryByte c := by cases c <;> rfl

section
variable (a t : Byte) (p : Flags)

theorem asl_eq : asl a p t = (t <<< 1, nzOf { p with c := t.getLsbD 7 } (t <<< 1)) := rfl

theorem lsr_eq : lsr a p t = (t >>> 1, nzOf { p with c := t.getLsbD 0 } (t >>> 1)) := rfl

theorem rol_eq : rol a p t =
    ((t <<< 1) ||| carryByte p.c, nzOf { p with c := t.getLsbD 7 } ((t <<< 1) ||| carryByte p.c)) := by
  rw [rol, flagBit_eq_carryByte, shifted, Flags.setNZ_eq_nzOf]

theorem ror_eq : ror a p t =
    ((t >>> 1) ||| (carryByte p.c <<< 7), nzOf { p with c := t.getLsbD 0 } ((t >>> 1) ||| (carryByte p.c <<< 7))) := by
  rw [ror, flagBit_eq_carryByte, shifted, Flags.setNZ_eq_nzOf]

theorem increment_eq : increment a p t = (t + 1, nzOf p (t + 1)) := rfl

theorem decrement_eq : decrement a p t = (t - 1, nzOf p (t - 1)) := rfl

end

/-! ## From a template to the end of its instructions -/

/-- An accumulator form transforms the `A` and the flags of the start of the cycle. -/
theorem impliedEnds_of_transformA {i : Instr} {f g : Transform} (hi : ∀ s, exec i s = handler (impliedCycles (transformA f)) s)
    (hf : ∀ a t p, f a p t = g a p t) : ImpliedEnds i (fun s u => (u.setA (g s.a s.p s.a).1).setP (g s.a s.p s.a).2) :=
  impliedEnds_of_effect hi fun s u h => by rw [transformA, h.a, h.p, hf]

/-- A class M instruction ends in the three cycles of its tail. -/
theorem rmwEnds_of_rmwInstr {i : Instr} {m : AddrMode} {fix : Fixup} {f g : Transform} (hi : ∀ s, exec i s = rmwInstr m fix f s)
    (hf : ∀ a t p, f a p t = g a p t) : RmwEnds i (fun s => dataCycle m fix s.loc) g := by
  refine ⟨fun s v u hat ha => ?read, fun s v u hat ha => ?transform, fun s hat => ?write⟩
  case read => rw [hi, rmwInstr_read hat ha]
  case transform =>
    have cpu := ha.effect.cpu
    rw [hi, rmwInstr_transform hat ha, transformTmp, cpu.a, cpu.p, cpu.tmp, hf]
  case write => rw [hi, rmwInstr_write hat, State.done]

/-- 43_rmw_bit.md R187, R101: the zero-page form reads its byte in its third cycle. -/
theorem rmwEnds_of_resetBit (n : Nat) {i : Instr} {mask : Byte} (hi : ∀ s, exec i s = rmwInstr .zp .onCross (resetBit n) s)
    (hm : ~~~bitMask n = mask) : RmwEnds i (fun _ => 3) (fun _ p t => (t &&& mask, p)) :=
  rmwEnds_of_rmwInstr hi fun a t p => by rw [resetBit, hm]

/-- 43_rmw_bit.md R188, R101: the setting twin of `rmwEnds_of_resetBit`. -/
theorem rmwEnds_of_setBit (n : Nat) {i : Instr} {mask : Byte} (hi : ∀ s, exec i s = rmwInstr .zp .onCross (setBit n) s)
    (hm : bitMask n = mask) : RmwEnds i (fun _ => 3) (fun _ p t => (t ||| mask, p)) :=
  rmwEnds_of_rmwInstr hi fun a t p => by rw [setBit, hm]

/-! ## The instructions -/

/-- Settles O36: each is the class M template with its transform; `INC` and `DEC` take it with the fix-up cycle always. -/
theorem shiftsAndCountsInMemoryComplete : Obligations.ShiftsAndCountsInMemoryComplete := by
  refine fun m => ⟨?asl, ?lsr, ?rol, ?ror, ?inc, ?dec⟩
  case asl => exact rmwEnds_of_rmwInstr (fun _ => rfl) asl_eq
  case lsr => exact rmwEnds_of_rmwInstr (fun _ => rfl) lsr_eq
  case rol => exact rmwEnds_of_rmwInstr (fun _ => rfl) rol_eq
  case ror => exact rmwEnds_of_rmwInstr (fun _ => rfl) ror_eq
  case inc => exact rmwEnds_of_rmwInstr (fun _ => rfl) increment_eq
  case dec => exact rmwEnds_of_rmwInstr (fun _ => rfl) decrement_eq

/-- Settles O37: `TSB` and `TRB` are class M in any mode, `RMBn` and `SMBn` in the zero page with the mask of bit n. -/
theorem memoryBitsComplete : Obligations.MemoryBitsComplete := by
  refine ⟨fun m => ⟨?tsb, ?trb⟩, ?rmb0, ?rmb1, ?rmb2, ?rmb3, ?rmb4, ?rmb5, ?rmb6, ?rmb7,
    ?smb0, ?smb1, ?smb2, ?smb3, ?smb4, ?smb5, ?smb6, ?smb7⟩
  case tsb => exact rmwEnds_of_rmwInstr (f := testAndSet) (fun _ => rfl) fun _ _ _ => rfl
  case trb => exact rmwEnds_of_rmwInstr (f := testAndReset) (fun _ => rfl) fun _ _ _ => rfl
  case rmb0 => exact rmwEnds_of_resetBit 0 (fun _ => rfl) rfl
  case rmb1 => exact rmwEnds_of_resetBit 1 (fun _ => rfl) rfl
  case rmb2 => exact rmwEnds_of_resetBit 2 (fun _ => rfl) rfl
  case rmb3 => exact rmwEnds_of_resetBit 3 (fun _ => rfl) rfl
  case rmb4 => exact rmwEnds_of_resetBit 4 (fun _ => rfl) rfl
  case rmb5 => exact rmwEnds_of_resetBit 5 (fun _ => rfl) rfl
  case rmb6 => exact rmwEnds_of_resetBit 6 (fun _ => rfl) rfl
  case rmb7 => exact rmwEnds_of_resetBit 7 (fun _ => rfl) rfl
  case smb0 => exact rmwEnds_of_setBit 0 (fun _ => rfl) rfl
  case smb1 => exact rmwEnds_of_setBit 1 (fun _ => rfl) rfl
  case smb2 => exact rmwEnds_of_setBit 2 (fun _ => rfl) rfl
  case smb3 => exact rmwEnds_of_setBit 3 (fun _ => rfl) rfl
  case smb4 => exact rmwEnds_of_setBit 4 (fun _ => rfl) rfl
  case smb5 => exact rmwEnds_of_setBit 5 (fun _ => rfl) rfl
  case smb6 => exact rmwEnds_of_setBit 6 (fun _ => rfl) rfl
  case smb7 => exact rmwEnds_of_setBit 7 (fun _ => rfl) rfl

/-- Settles O35: each is the implied template with its transform of `A`. -/
theorem accumulatorFormsComplete : Obligations.AccumulatorFormsComplete := by
  refine ⟨?asl, ?lsr, ?rol, ?ror, ?inc, ?dec⟩
  case asl => exact impliedEnds_of_transformA (fun _ => rfl) asl_eq
  case lsr => exact impliedEnds_of_transformA (fun _ => rfl) lsr_eq
  case rol => exact impliedEnds_of_transformA (fun _ => rfl) rol_eq
  case ror => exact impliedEnds_of_transformA (fun _ => rfl) ror_eq
  case inc => exact impliedEnds_of_transformA (fun _ => rfl) increment_eq
  case dec => exact impliedEnds_of_transformA (fun _ => rfl) decrement_eq

end Sys2Proof.Machine
end

section
/-! PROOFS. Branches, jumps and subroutines (44_control.md R195 to R210): every cycle of each template, and a subroutine called
and left over one RAM. -/

namespace Sys2Proof.Machine

/-! ## The cycle of a template whose read is answered -/

section
variable {template : Nat → State → Result} {k : Nat} {s u w : State} {address : Word} {v : Byte}

/-- A line that reads and does not end the template. -/
theorem AtT.handler_read {f : Byte → State → State} (hat : AtT k s) (ha : Answers address s v u)
    (hline : template k s = busRead address s fun v u => .next (f v u).nextCycle) (hf : (f v u).stepReg = u.stepReg) :
    Machine.handler template s = .next ((f v u).setStep (.executing k)) := by
  rw [hat.handler, hline, ha.busRead, State.nextCycle_at hat (hf.trans ha.effect.cpu.stepReg)]

/-- A line that discards a read and does not end the template. -/
theorem AtT.handler_discard {f : State → State} (hat : AtT k s) (ha : AnswersDummy address s u)
    (hline : template k s = dummyRead address s fun u => .next (f u).nextCycle) (hf : (f u).stepReg = u.stepReg) :
    Machine.handler template s = .next ((f u).setStep (.executing k)) := by
  rw [hat.handler, hline, ha.dummyRead, State.nextCycle_at hat (hf.trans ha.effect.cpu.stepReg)]

/-- A line that pushes. -/
theorem AtT.handler_push (hat : AtT k s) (hline : template k s = .next (push v s).nextCycle) :
    Machine.handler template s = .next (((busWrite (cat 0x01 s.s) v s).setS (s.s - 1)).setStep (.executing k)) := by
  have hstep : (push v s).stepReg = s.stepReg := (busWrite_effect s.stackAddress v s).cpu.stepReg
  rw [hat.handler, hline, State.nextCycle_at hat hstep, push_eq, State.stackAddress]

/-- The line that ends the template with a read. -/
theorem AtT.handler_readDone {f : Byte → State → State} (hat : AtT k s) (ha : Answers address s v u)
    (hline : template k s = busRead address s fun v u => .next (f v u).done) :
    Machine.handler template s = .next ((f v u).setStep .awaitFetch) := by
  rw [hat.handler, hline, ha.busRead, State.done]

/-- The line that ends the template with a discarded read. -/
theorem AtT.handler_discardDone {f : State → State} (hat : AtT k s) (ha : AnswersDummy address s u)
    (hline : template k s = dummyRead address s fun u => .next (f u).done) :
    Machine.handler template s = .next ((f u).setStep .awaitFetch) := by
  rw [hat.handler, hline, ha.dummyRead, State.done]

/-- The second cycle of a template that begins with the low byte of an absolute operand (R103). -/
theorem AtT.handler_fetchLo (hat : AtT 2 s) (ha : Answers s.pc s v u) (hline : template 2 s = fetchLo s) :
    Machine.handler template s = .next (((u.setLoc { s.loc with lo := v }).setPC (s.pc + 1)).setStep (.executing 2)) := by
  have cpu := ha.effect.cpu
  rw [hat.handler_read (f := fun v u => (u.setLoc { u.loc with lo := v }).incPC) ha hline rfl, State.incPC, State.setLoc_pc,
    cpu.pc, cpu.loc]

/-- A taken branch goes on only when it has left the page (40_engine.md R115, R116). -/
theorem branchTo_branchEnd (hat : AtT k s) (hw : w.stepReg = s.stepReg) (off : Byte) :
    (w.branchTo off).branchEnd =
      (w.branchTo off).setStep (if (w.branchTo off).loc.crossed then .executing k else .awaitFetch) := by
  unfold State.branchEnd
  split
  · exact State.nextCycle_at hat hw
  · rfl

/-- The fix-up cycle of a branch only reads. -/
theorem branchFixup_answered (ha : AnswersDummy (cat (hiByte s.loc.old) (loByte s.pc)) s u) :
    branchFixup s = .next (u.setStep .awaitFetch) := ha.dummyRead _

end

/-! ## Branches -/

/-- R115 for any condition. -/
theorem branchRuns_of_relativeCycles {i : Instr} {cond : Flags → Bool}
    (hi : ∀ s, exec i s = handler (relativeCycles cond) s) : BranchRuns i cond := by
  refine ⟨fun s off u hat ha => ?offset, fun s op u hat hnot ha => ?notTaken, fun s u hat htaken ha => ?taken,
    fun s u hat htaken hcrossed ha => ?fixup⟩
  case offset =>
    have cpu := ha.effect.cpu
    rw [hi, hat.handler_read (f := fun v u => (u.setLoc { u.loc with off := v, taken := cond u.p }).incPC) ha rfl rfl,
      State.incPC, State.setLoc_pc, cpu.pc, cpu.loc, cpu.p]
  case notTaken => rw [hi, hat.handler, relativeCycles, if_neg (by simp [hnot]), ha.busSync]
  case taken =>
    have cpu := ha.effect.cpu
    intro target crossed
    rw [hi, hat.handler, relativeCycles, if_pos htaken, ha.dummyRead, branchTo_branchEnd hat cpu.stepReg,
      State.branchTo, branchTarget, cpu.pc, cpu.loc]
    rfl
  case fixup => rw [hi, hat.handler, relativeCycles, if_pos (by simp [htaken, hcrossed]), branchFixup_answered ha]

/-- Settles O38: each is the relative template with its condition. -/
theorem relativeBranchesRun : Obligations.RelativeBranchesRun := by
  refine ⟨?bpl, ?bmi, ?bvc, ?bvs, ?bcc, ?bcs, ?bne, ?beq, ?bra⟩
  all_goals exact branchRuns_of_relativeCycles fun _ => rfl

/-- R116 for any bit and either wanted value. -/
theorem bitBranchRuns_of_branchBitCycles {i : Instr} {n : Nat} {want : Bool}
    (hi : ∀ s, exec i s = handler (branchBitCycles n want) s) : BitBranchRuns i n want := by
  refine ⟨fun s v u hat ha => ?address, fun s u hat ha => ?discard, fun s v u hat ha => ?byte,
    fun s off u hat ha hbit => ?notTaken, fun s off u hat ha hbit => ?taken, fun s u hat hcrossed ha => ?fixup⟩
  case address =>
    rw [hi, hat.handler_read (f := fun v u => (u.setEA (zext16 v)).incPC) ha rfl rfl, State.incPC, State.setEA_pc,
      ha.effect.cpu.pc]
  case discard => rw [hi, hat.handler_discard (f := id) ha rfl rfl, id]
  case byte => rw [hi, hat.handler_read (f := fun v u => u.setTMP v) ha rfl rfl]
  case notTaken =>
    have cpu := ha.effect.cpu
    have miss : ¬(u.tmp.getLsbD n == want) = true := by rwa [cpu.tmp, beq_iff_eq]
    rw [hi, hat.handler, branchBitCycles, ha.busRead, if_neg miss, State.incPC, State.setLoc_pc, cpu.pc, cpu.loc, State.done]
  case taken =>
    have cpu := ha.effect.cpu
    have hit : (u.tmp.getLsbD n == want) = true := by rwa [cpu.tmp, beq_iff_eq]
    intro target crossed
    rw [hi, hat.handler, branchBitCycles, ha.busRead, if_pos hit,
      branchTo_branchEnd (w := (u.setLoc { u.loc with off := off }).incPC) hat cpu.stepReg, State.branchTo, branchTarget,
      State.incPC_pc, State.setLoc_pc, State.incPC_loc, State.setLoc_loc, cpu.pc, cpu.loc]
    rfl
  case fixup => rw [hi, hat.handler, branchBitCycles, if_pos hcrossed, branchFixup_answered ha]

/-- Settles O39: each is the template of a branch on a bit, with its bit and the value it wants. -/
theorem bitBranchesRun : Obligations.BitBranchesRun := by
  refine ⟨?bbr0, ?bbr1, ?bbr2, ?bbr3, ?bbr4, ?bbr5, ?bbr6, ?bbr7, ?bbs0, ?bbs1, ?bbs2, ?bbs3, ?bbs4, ?bbs5, ?bbs6, ?bbs7⟩
  all_goals exact bitBranchRuns_of_branchBitCycles fun _ => rfl

/-! ## Jumps -/

/-- R206. -/
theorem jmpAbs_last {s u : State} {v : Byte} (hat : AtT 3 s) (ha : Answers s.pc s v u) :
    exec (.jmp .abs) s = .next ((u.setPC (cat v s.loc.lo)).setStep .awaitFetch) := by
  rw [show exec (.jmp .abs) s = handler jmpAbsoluteCycles s from rfl,
    hat.handler_readDone (f := fun v u => u.setPC (cat v u.loc.lo)) ha rfl, ha.effect.cpu.loc]

section
variable {m : JmpMode} {index : State → Word} {s u : State} {v : Byte}

/-- R207, R208: the pointer, for an index the read leaves alone. -/
theorem jmpIndirect_pointer (hm : jmpCycles m = jmpIndirectCycles index) (hat : AtT 3 s) (ha : Answers s.pc s v u)
    (hindex : index u = index s) :
    exec (.jmp m) s = .next (((u.setLoc { s.loc with hi := v, ptr := cat v s.loc.lo + index s }).setPC
      (s.pc + 1)).setStep (.executing 3)) := by
  have cpu := ha.effect.cpu
  rw [show exec (.jmp m) s = handler (jmpCycles m) s from rfl, hm,
    hat.handler_read (f := fun v u => (u.setLoc { u.loc with hi := v, ptr := cat v u.loc.lo + index u }).incPC) ha rfl rfl,
    State.incPC, State.setLoc_pc, cpu.pc, cpu.loc, hindex]

/-- R207, R208: after the pointer, whatever the index was. -/
theorem jmpIndirect_tail (hm : jmpCycles m = jmpIndirectCycles index) :
    (AtT 4 s → AnswersDummy s.pc s u → exec (.jmp m) s = .next (u.setStep (.executing 4)))
    ∧ (AtT 5 s → Answers s.loc.ptr s v u →
      exec (.jmp m) s = .next ((u.setLoc { s.loc with lo := v }).setStep (.executing 5)))
    ∧ (AtT 6 s → Answers (s.loc.ptr + 1) s v u →
      exec (.jmp m) s = .next ((u.setPC (cat v s.loc.lo)).setStep .awaitFetch)) := by
  have hi : exec (.jmp m) s = handler (jmpIndirectCycles index) s := congrArg (fun template => handler template s) hm
  rw [hi]
  refine ⟨fun hat ha => ?discard, fun hat ha => ?low, fun hat ha => ?high⟩
  case discard => exact hat.handler_discard (f := id) ha rfl rfl
  case low => rw [hat.handler_read (f := fun v u => u.setLoc { u.loc with lo := v }) ha rfl rfl, ha.effect.cpu.loc]
  case high => rw [hat.handler_readDone (f := fun v u => u.setPC (cat v u.loc.lo)) ha rfl, ha.effect.cpu.loc]

/-- Every form of `JMP` begins with the low byte of its operand. -/
theorem jmp_low (hat : AtT 2 s) (ha : Answers s.pc s v u) :
    exec (.jmp m) s = .next (((u.setLoc { s.loc with lo := v }).setPC (s.pc + 1)).setStep (.executing 2)) :=
  hat.handler_fetchLo (template := jmpCycles m) ha (by cases m <;> rfl)

end

/-- Settles O40: the absolute form ends in its second read; the two indirect forms differ in the index of their pointer. -/
theorem jumpsComplete : Obligations.JumpsComplete := by
  intro s u v
  have ind : jmpCycles .ind = jmpIndirectCycles fun _ => 0 := rfl
  have iax : jmpCycles .iax = jmpIndirectCycles fun st => zext16 st.x := rfl
  refine ⟨fun m hat ha => jmp_low hat ha, fun hat ha => ⟨jmpAbs_last hat ha, ?pointer, ?indexedPointer⟩,
    fun m hm => ?tail⟩
  case pointer => rw [jmpIndirect_pointer ind hat ha rfl, add_zero]
  case indexedPointer => rw [jmpIndirect_pointer iax hat ha (congrArg zext16 ha.effect.cpu.x)]
  case tail =>
    cases m with
    | abs => exact absurd rfl hm
    | ind => exact jmpIndirect_tail ind
    | iax => exact jmpIndirect_tail iax

/-! ## Subroutines, cycle by cycle -/

/-- Settles O41: the lines of the two templates, their reads answered. -/
theorem subroutinesComplete : Obligations.SubroutinesComplete := by
  intro s u v
  have jsr : exec .jsr s = handler jsrCycles s := rfl
  have rts : ∀ s, exec .rts s = handler rtsCycles s := fun _ => rfl
  rw [jsr, rts]
  refine ⟨fun hat ha => ?jsr2, fun hat ha => ?jsr3, fun s u hat ha => ?rts2, fun hat ha => ?rts3, fun hat => ?jsr4,
    fun hat => ?jsr5, fun hat ha => ?jsr6, fun hat ha => ?rts4, fun hat ha => ?rts5, fun hat ha => ?rts6⟩
  case jsr2 => exact hat.handler_fetchLo ha rfl
  case jsr3 => exact hat.handler_discard (f := id) ha rfl rfl
  case jsr4 => exact hat.handler_push rfl
  case jsr5 => exact hat.handler_push rfl
  case jsr6 => rw [hat.handler_readDone (f := fun v u => u.setPC (cat v u.loc.lo)) ha rfl, ha.effect.cpu.loc]
  case rts2 => rw [rts, hat.handler_discard (f := id) ha rfl rfl, id]
  case rts3 => rw [hat.handler_discard (f := State.incS) ha rfl rfl, State.incS, ha.effect.cpu.s]
  case rts4 =>
    have cpu := ha.effect.cpu
    rw [hat.handler_read (f := fun v u => (u.setLoc { u.loc with lo := v }).incS) ha rfl rfl, State.incS, State.setLoc_s, cpu.s,
      cpu.loc]
  case rts5 => rw [hat.handler_read (f := fun v u => u.setPC (cat v u.loc.lo)) ha rfl rfl, ha.effect.cpu.loc]
  case rts6 => rw [hat.handler_discardDone (f := State.incPC) ha rfl, State.incPC, ha.effect.cpu.pc]

/-! ## The stack and the end of an instruction, over one RAM -/

@[simp] theorem cat_hiByte_loByte (w : Word) : cat (hiByte w) (loByte w) = w := by
  apply BitVec.eq_of_toNat_eq
  have hw := w.isLt
  rw [cat_toNat, hiByte_toNat, loByte, BitVec.extractLsb'_toNat, Nat.shiftRight_zero]
  omega

theorem SameButAddress.setPC {u w : State} {v : Word} (h : SameButAddress u w) : SameButAddress u (w.setPC v) := { h with }

section
variable {mem : Memory} {op : Byte} {s t w : State} {k n : Nat} {post : State → Prop} {template : Nat → State → Result}
  {address : Word} {v : Byte}

/-- A cycle of a standing machine is the line of its template. -/
theorem Stands.step_eq (h : Stands mem op s k t) (hsel : Selects op template) : step t = template k t := by
  obtain ⟨hrst, -, -, -⟩ := h.quiet
  rw [step_executing h.atT.stepReg (pollRst_quiet h.ram.2.2 hrst), runHandler_opcode h.ir, hsel, h.atT.handler]

/-- A cycle that pushes: the byte is in the RAM, and `S` is one lower from there on. -/
theorem Stands.pushes (h : Stands mem op s k t) (hsel : Selects op template)
    (hline : template k t = .next (push v t).nextCycle)
    (hrest : ∀ t', Stands (mem.store (cat 0x01 s.s) v) op (s.setS (s.s - 1)) (k + 1) t' → SameScratch t t' →
      RunsTo n t' post) : RunsTo (n + 1) t post := by
  have hpush : push v t = (t.setBusSide ⟨cat 0x01 s.s, v, false, false, false⟩ t.driven t.lines
      [.fullRam (mem.store (cat 0x01 s.s) v)]).setS (s.s - 1) := by
    rw [push_eq, State.stackAddress, h.sp, h.ram.busWrite]
  have hstep := (h.step_eq hsel).trans hline
  rw [State.nextCycle_at h.atT (by rw [hpush]; rfl), hpush] at hstep
  refine .succ hstep (hrest _ ?_ ⟨rfl, rfl, rfl, rfl⟩)
  have hk := h.atT.1
  exact ⟨.mk (by omega) rfl, h.ir, h.a, h.x, h.y, rfl, h.p, h.ram.of_store _ _ rfl rfl rfl, h.quiet⟩

/-- A cycle that reads and then increments `S`, as before a pull. -/
theorem Stands.incS (h : Stands mem op s k t) (hsel : Selects op template)
    (hline : template k t = .next w.incS.nextCycle) (hw : SameButAddress (OverRam.afterRead t address v false false) w)
    (hrest : ∀ t', Stands mem op (s.setS (s.s + 1)) (k + 1) t' → SameScratch w t' → RunsTo n t' post) :
    RunsTo (n + 1) t post := by
  have hstep := (h.step_eq hsel).trans hline
  rw [State.nextCycle_at (u := w.incS) h.atT hw.stepReg] at hstep
  refine .succ hstep (hrest _ ?_ ⟨rfl, rfl, rfl, rfl⟩)
  have hk := h.atT.1
  exact ⟨.mk (by omega) rfl, hw.ir.trans h.ir, hw.a.trans h.a, hw.x.trans h.x, hw.y.trans h.y,
    congrArg (· + 1) (hw.s.trans h.sp), hw.p.trans h.p, h.ram.of_eq hw.devices hw.cfg hw.lines, hw.lines ▸ h.quiet⟩

/-- The last cycle: the next one is a fetch, with the registers as they stood. -/
theorem Stands.ends (h : Stands mem op s k t) (hsel : Selects op template) (hline : template k t = .next w.done)
    (hw : SameButAddress (OverRam.afterRead t address v false false) w) :
    RunsTo 1 t fun t' => FetchesOver mem (mem.load t'.pc) t' ∧ SameRegisters s t' ∧ t'.pc = w.pc := by
  refine .succ ((h.step_eq hsel).trans hline) (.zero ⟨⟨?_, ?_, rfl, rfl⟩, ?_, rfl⟩)
  · exact h.ram.of_eq hw.devices hw.cfg hw.lines
  · exact hw.lines ▸ h.quiet
  · exact ⟨hw.a.trans h.a, hw.x.trans h.x, hw.y.trans h.y, hw.s.trans h.sp, hw.p.trans h.p⟩

end

/-! ## A subroutine called and left -/

/-- R209: `JSR` from T2; the high byte is read from the RAM that holds the two pushes. -/
theorem Fetched.jsr {mem : Memory} {s t : State} (h : Fetched mem 0x20 s t) :
    let mem' := (mem.store (cat 0x01 s.s) (hiByte (s.pc + 2))).store (cat 0x01 (s.s - 1)) (loByte (s.pc + 2))
    RunsTo 5 t fun t' => FetchesOver mem' (mem'.load t'.pc) t' ∧ SameRegisters (s.setS (s.s - 1 - 1)) t'
      ∧ t'.pc = cat (mem'.load (s.pc + 2)) (mem.load (s.pc + 1)) := by
  have sel : Selects 0x20 jsrCycles := fun _ => rfl
  obtain ⟨h2, pc2⟩ := h
  refine h2.cycle sel ((h2.ram.answers _).busRead _) (.incPC (.setLoc (.refl _))) fun t3 h3 w3 => ?_
  refine h3.cycle sel ((h3.ram.answersDummy _).dummyRead _) (.refl _) fun t4 h4 w4 => ?_
  have pc4 : t4.pc = s.pc + 2 := by simp [w4.pc, w3.pc, OverRam.afterRead, pc2, BitVec.add_assoc]
  have lo4 : t4.loc.lo = mem.load (s.pc + 1) := by simp [w4.loc, w3.loc, OverRam.afterRead, pc2]
  refine h4.pushes sel rfl fun t5 h5 w5 => ?_
  refine h5.pushes sel rfl fun t6 h6 w6 => ?_
  have pc5 : t5.pc = s.pc + 2 := w5.pc.trans pc4
  have pc6 : t6.pc = s.pc + 2 := w6.pc.trans pc5
  have lo6 : t6.loc.lo = mem.load (s.pc + 1) := by rw [w6.loc, w5.loc, lo4]
  rw [pc4, pc5] at h6
  obtain ⟨t7, run, fetches, same, pc⟩ := h6.ends sel ((h6.ram.answers _).busRead _) (.setPC (.refl _))
  refine ⟨t7, run, fetches, same, ?_⟩
  simp [pc, OverRam.afterRead, pc6, lo6]

/-- R210: `RTS` from T2, when the word `ret` is on the stack. -/
theorem Fetched.rts {mem : Memory} {s t : State} {ret : Word} (h : Fetched mem 0x60 s t)
    (hlo : mem.load (cat 0x01 (s.s + 1)) = loByte ret) (hhi : mem.load (cat 0x01 (s.s + 1 + 1)) = hiByte ret) :
    RunsTo 5 t fun t' => FetchesOver mem (mem.load t'.pc) t' ∧ SameRegisters (s.setS (s.s + 1 + 1)) t'
      ∧ t'.pc = ret + 1 := by
  have sel : Selects 0x60 rtsCycles := fun _ => rfl
  obtain ⟨h2, -⟩ := h
  refine h2.cycle sel ((h2.ram.answersDummy _).dummyRead _) (.refl _) fun t3 h3 w3 => ?_
  refine h3.incS sel ((h3.ram.answersDummy _).dummyRead _) (.refl _) fun t4 h4 w4 => ?_
  refine h4.incS sel ((h4.ram.answers _).busRead _) (.setLoc (.refl _)) fun t5 h5 w5 => ?_
  have low : mem.load t4.stackAddress = loByte ret := by rw [← hlo, State.stackAddress, h4.sp]; rfl
  have lo5 : t5.loc.lo = loByte ret := (congrArg Locals.lo w5.loc).trans low
  refine h5.cycle sel ((h5.ram.answers _).busRead _) (.setPC (.refl _)) fun t6 h6 w6 => ?_
  have high : mem.load t5.stackAddress = hiByte ret := by rw [← hhi, State.stackAddress, h5.sp]; rfl
  have pc6 : t6.pc = ret := by simp [w6.pc, OverRam.afterRead, high, lo5]
  obtain ⟨t7, run, fetches, same, pc⟩ := h6.ends sel ((h6.ram.answersDummy _).dummyRead _) (.incPC (.refl _))
  refine ⟨t7, run, fetches, same, ?_⟩
  simp [pc, OverRam.afterRead, pc6]

/-- Settles O53: T1 is the fetch, and then the templates of `JSR` and `RTS` run their five cycles. -/
theorem subroutineOverRam : Obligations.SubroutineOverRam := by
  refine ⟨fun mem s hfetch => ?jsr, fun mem s ret hfetch hlo hhi => ?rts⟩
  case jsr =>
    have two : s.s - 1 - 1 = s.s - 2 := by bv_omega
    obtain ⟨t, hstep, fetched⟩ := step_fetchesOver hfetch (by decide)
    obtain ⟨t', run, fetches, same, pc⟩ := fetched.jsr
    exact .succ hstep ⟨t', run, fetches, same.s.trans two, pc, same.p, same.a, same.x, same.y⟩
  case rts =>
    have two : s.s + 1 + 1 = s.s + 2 := BitVec.add_assoc ..
    obtain ⟨t, hstep, fetched⟩ := step_fetchesOver hfetch (by decide)
    obtain ⟨t', run, fetches, same, pc⟩ := fetched.rts hlo (two ▸ hhi)
    exact .succ hstep ⟨t', run, fetches, same.s.trans two, pc, same.p, same.a, same.x, same.y⟩

end Sys2Proof.Machine
end

section
/-! PROOFS. The stack, the flags and the system (45_stack_flags_system.md R215 to R234): every cycle of each template from T2,
and a return from an interrupt run over one RAM. -/

namespace Sys2Proof.Machine

/-! ## Pushes and pulls -/

/-- A template whose second line only discards a read at `PC`. -/
theorem secondCycleDiscards_of_line {i : Instr} {template : Nat → State → Result}
    (hi : ∀ s, exec i s = handler template s) (hline : ∀ s, template 2 s = dummyRead s.pc s fun u => .next u.nextCycle) :
    SecondCycleDiscards i := by
  intro s u hat ha
  rw [hi, hat.handler_discard (f := id) ha (hline s) rfl, id]

/-- The line before the first pulled byte: a discarded read at `{0x01, S}`, then the increment. -/
theorem AtT.handler_discardIncS {template : Nat → State → Result} {k : Nat} {s u : State} (hat : AtT k s)
    (ha : AnswersDummy (cat 0x01 s.s) s u)
    (hline : template k s = dummyRead s.stackAddress s fun u => .next u.incS.nextCycle) :
    Machine.handler template s = .next ((u.setS (s.s + 1)).setStep (.executing k)) := by
  rw [hat.handler_discard (f := State.incS) ha hline rfl, State.incS, ha.effect.cpu.s]

/-- 40_engine.md R113 for any pushed byte. -/
theorem pushRuns_of_pushCycles {i : Instr} {val : State → Byte} (hi : ∀ s, exec i s = handler (pushCycles val) s) :
    PushRuns i val := by
  refine ⟨secondCycleDiscards_of_line hi fun _ => rfl, fun s hat => ?write⟩
  case write => rw [hi, pushCycles_end hat, push_eq, State.stackAddress, State.done]

/-- 40_engine.md R114 for any effect. -/
theorem pullRuns_of_pullCycles {i : Instr} {f : Byte → State → State} {effect : Byte → State → State → State}
    (hi : ∀ s, exec i s = handler (pullCycles f) s) (hf : ∀ v s u, SameRegisters s u → f v u = effect v s u) :
    PullRuns i effect := by
  refine ⟨secondCycleDiscards_of_line hi fun _ => rfl, fun s u hat ha => ?increment, fun s v u hat ha => ?read⟩
  case increment => rw [hi, hat.handler_discardIncS ha rfl]
  case read => rw [hi, pullCycles_end hat ha, hf v s u ha.effect.cpu.sameRegisters, State.done]

/-- A pull into a register, with N and Z of the byte pulled. -/
theorem pullRuns_of_write {i : Instr} (write : State → Byte → State)
    (hi : ∀ s, exec i s = handler (pullCycles fun v u => (write u v).setP (u.p.setNZ v)) s) :
    PullRuns i (fun v s u => (write u v).setP (nzOf s.p v)) :=
  pullRuns_of_pullCycles hi fun v _ u h => by rw [h.p, Flags.setNZ_eq_nzOf]

/-- Settles O42: the pushes differ in their byte, the pulls in what they write. -/
theorem pushesAndPullsComplete : Obligations.PushesAndPullsComplete := by
  refine ⟨?pha, ?php, ?phx, ?phy, ?pla, ?plx, ?ply, ?plp⟩
  case pha => exact pushRuns_of_pushCycles fun _ => rfl
  case php => exact pushRuns_of_pushCycles fun _ => rfl
  case phx => exact pushRuns_of_pushCycles fun _ => rfl
  case phy => exact pushRuns_of_pushCycles fun _ => rfl
  case pla => exact pullRuns_of_write State.setA fun _ => rfl
  case plx => exact pullRuns_of_write State.setX fun _ => rfl
  case ply => exact pullRuns_of_write State.setY fun _ => rfl
  case plp => exact pullRuns_of_pullCycles (f := fun v u => u.setP (Flags.ofByte v)) (fun _ => rfl) fun _ _ _ _ => rfl

/-! ## Flags -/

/-- An instruction that writes flags alone, by a function of the flags. -/
theorem impliedEnds_of_flags {i : Instr} (write : Flags → Flags)
    (hi : ∀ s, exec i s = handler (impliedCycles fun u => u.setP (write u.p)) s) :
    ImpliedEnds i (fun s u => u.setP (write s.p)) :=
  impliedEnds_of_effect hi fun _ _ h => by rw [h.p]

/-- Settles O43: each is the implied template with its flag; the discarded read leaves the other flags as they were. -/
theorem flagInstructionsComplete : Obligations.FlagInstructionsComplete := by
  refine ⟨?clc, ?sec, ?cli, ?sei, ?clv, ?cld, ?sed, ?nop⟩
  case clc => exact impliedEnds_of_flags (fun p => { p with c := false }) fun _ => rfl
  case sec => exact impliedEnds_of_flags (fun p => { p with c := true }) fun _ => rfl
  case cli => exact impliedEnds_of_flags (fun p => { p with i := false }) fun _ => rfl
  case sei => exact impliedEnds_of_flags (fun p => { p with i := true }) fun _ => rfl
  case clv => exact impliedEnds_of_flags (fun p => { p with v := false }) fun _ => rfl
  case cld => exact impliedEnds_of_flags (fun p => { p with d := false }) fun _ => rfl
  case sed => exact impliedEnds_of_flags (fun p => { p with d := true }) fun _ => rfl
  case nop => exact impliedEnds_of_effect (f := id) (fun _ => rfl) fun _ _ _ => rfl

/-! ## The break -/

section
variable {vector : Word} {b : Bool} {s u : State} {v : Byte}

/-- T5 of an entry (60_exceptions.md R252, R253): the status is pushed as it was, then `P.I` is set and `P.D` cleared. -/
theorem entryCycle_status (hat : AtT 5 s) :
    entryCycle vector b 5 s = .next ((((busWrite (cat 0x01 s.s) (s.p.pByte b) s).setS (s.s - 1)).setP
      { s.p with i := true, d := false }).setStep (.executing 5)) := by
  have cpu := (busWrite_effect (cat 0x01 s.s) (s.p.pByte b) s).cpu
  rw [entryCycle, push_eq, State.stackAddress, State.setS_p, cpu.p, Flags.entered]
  exact congrArg Host.Outcome.next (State.nextCycle_at hat cpu.stepReg)

/-- T6 of an entry (R248): the low byte of `PC`. -/
theorem vectorCycle_low (hat : AtT 6 s) (ha : AnswersVec vector s v u) :
    vectorCycle vector 6 s = .next ((u.setPC (cat (hiByte s.pc) v)).setStep (.executing 6)) := by
  have cpu := ha.effect.cpu
  rw [vectorCycle, ha.busVec, State.nextCycle_at (u := u.setPCL v) hat cpu.stepReg, State.setPCL, cpu.pc]

/-- T7 of an entry (R248): the high byte, and a fetch to come. -/
theorem vectorCycle_high (ha : AnswersVec (vector + 1) s v u) :
    vectorCycle vector 7 s = .next ((u.setPC (cat v (loByte s.pc))).setStep .awaitFetch) := by
  rw [vectorCycle, ha.busVec, State.setPCH, ha.effect.cpu.pc, State.done]

end

/-- Settles O44: the signature byte is passed, and then the shared entry runs with bit 4 set. -/
theorem breakTakesItsException : Obligations.BreakTakesItsException := by
  intro s u v
  have brk : exec .brk s = handler brkCycles s := rfl
  rw [brk]
  refine ⟨fun hat ha => ?signature, fun hat => ?pushHigh, fun hat => ?pushLow, fun hat => ?pushStatus,
    fun hat ha => ?vectorLow, fun hat ha => ?vectorHigh⟩
  case signature => rw [hat.handler_read (f := fun _ u => u.incPC) ha rfl rfl, State.incPC, ha.effect.cpu.pc]
  case pushHigh => exact hat.handler_push rfl
  case pushLow => exact hat.handler_push rfl
  case pushStatus => exact (hat.handler brkCycles).trans (entryCycle_status (vector := 0xFFFE) hat)
  case vectorLow => exact (hat.handler brkCycles).trans (vectorCycle_low hat ha)
  case vectorHigh => exact (hat.handler brkCycles).trans (vectorCycle_high ha)

/-! ## The return from an interrupt -/

/-- A cycle of a standing machine that pulls the flags. -/
theorem Stands.pullsFlags {mem : Memory} {op : Byte} {s t : State} {k n : Nat} {post : State → Prop}
    {template : Nat → State → Result} {address : Word} {v : Byte} {p : Flags} (h : Stands mem op s k t)
    (hsel : Selects op template)
    (hline : template k t = .next ((OverRam.afterRead t address v false false).setP p).incS.nextCycle)
    (hrest : ∀ t', Stands mem op ((s.setP p).setS (s.s + 1)) (k + 1) t' → SameScratch t t' → RunsTo n t' post) :
    RunsTo (n + 1) t post := by
  have hstep := (h.step_eq hsel).trans hline
  rw [State.nextCycle_at (u := ((OverRam.afterRead t address v false false).setP p).incS) h.atT rfl] at hstep
  refine .succ hstep (hrest _ ?_ ⟨rfl, rfl, rfl, rfl⟩)
  have hk := h.atT.1
  exact ⟨.mk (by omega) rfl, h.ir, h.a, h.x, h.y, congrArg (· + 1) h.sp, rfl, h.ram.of_eq rfl rfl rfl, h.quiet⟩

/-- R232: `RTI` from T2, the three bytes read at the values that `S` takes. -/
theorem Fetched.rti {mem : Memory} {s t : State} (h : Fetched mem 0x40 s t) :
    RunsTo 5 t fun t' => FetchesOver mem (mem.load t'.pc) t'
      ∧ SameRegisters ((s.setP (Flags.ofByte (mem.load (cat 0x01 (s.s + 1))))).setS (s.s + 1 + 1 + 1)) t'
      ∧ t'.pc = cat (mem.load (cat 0x01 (s.s + 1 + 1 + 1))) (mem.load (cat 0x01 (s.s + 1 + 1))) := by
  have sel : Selects 0x40 returnCycle := fun _ => rfl
  obtain ⟨h2, -⟩ := h
  refine h2.cycle sel ((h2.ram.answersDummy _).dummyRead _) (.refl _) fun t3 h3 w3 => ?_
  refine h3.incS sel ((h3.ram.answersDummy _).dummyRead _) (.refl _) fun t4 h4 w4 => ?_
  refine h4.pullsFlags sel ((h4.ram.answers _).busRead _) fun t5 h5 w5 => ?_
  rw [State.stackAddress, h4.sp] at h5
  refine h5.incS sel ((h5.ram.answers _).busRead _) (.setLoc (.refl _)) fun t6 h6 w6 => ?_
  have lo6 : t6.loc.lo = mem.load t5.stackAddress := congrArg Locals.lo w6.loc
  obtain ⟨t7, run, fetches, same, pc⟩ := h6.ends sel ((h6.ram.answers _).busRead _) (.setPC (.refl _))
  refine ⟨t7, run, fetches, same, ?_⟩
  simp [pc, OverRam.afterRead, lo6, State.stackAddress, h5.sp, h6.sp]

/-- Settles O45: the lines of the template, and over one RAM T1, the fetch, with the five cycles of the template. -/
theorem returnFromInterrupt : Obligations.ReturnFromInterrupt := by
  have rti : ∀ s, exec .rti s = handler returnCycle s := fun _ => rfl
  refine ⟨fun s u v => ⟨secondCycleDiscards_of_line rti fun _ => rfl, fun hat ha => ?increment, fun hat ha => ?status,
    fun hat ha => ?low, fun hat ha => ?high⟩, fun mem s hfetch => ?run⟩
  case increment => rw [rti, hat.handler_discardIncS ha rfl]
  case status =>
    rw [rti, hat.handler_read (f := fun v u => (u.setP (Flags.ofByte v)).incS) ha rfl rfl, State.incS, State.setP_s,
      ha.effect.cpu.s, Flags.ofByte]
  case low =>
    have cpu := ha.effect.cpu
    rw [rti, hat.handler_read (f := fun v u => (u.setLoc { u.loc with lo := v }).incS) ha rfl rfl, State.incS,
      State.setLoc_s, cpu.s, cpu.loc]
  case high => rw [rti, hat.handler_readDone (f := fun v u => u.setPC (cat v u.loc.lo)) ha rfl, ha.effect.cpu.loc]
  case run =>
    have two : s.s + 1 + 1 = s.s + 2 := BitVec.add_assoc ..
    have three : s.s + 1 + 1 + 1 = s.s + 3 := by rw [two]; exact BitVec.add_assoc ..
    obtain ⟨t, hstep, fetched⟩ := step_fetchesOver hfetch (by decide)
    obtain ⟨t', run, fetches, same, pc⟩ := fetched.rti
    rw [three, two] at pc
    exact .succ hstep ⟨t', run, fetches, same.s.trans three, pc, same.p, same.a, same.x, same.y⟩

/-! ## Waiting and stopping -/

section
variable {into : StepReg} {s u : State}

theorem haltCycles_second (hat : AtT 2 s) (ha : AnswersDummy s.pc s u) :
    handler (haltCycles into) s = .next (u.setStep (.executing 2)) := hat.handler_discard (f := id) ha rfl rfl

theorem haltCycles_end (hat : AtT 3 s) (ha : AnswersDummy s.pc s u) :
    handler (haltCycles into) s = .next (u.setStep into) := by
  rw [hat.handler, haltCycles, ha.dummyRead]

end

/-- Settles O46: one template, with the two values of `step` that it ends in. -/
theorem waitAndStopComplete : Obligations.WaitAndStopComplete :=
  fun _ _ => ⟨fun hat ha => ⟨haltCycles_second hat ha, haltCycles_second hat ha⟩,
    fun hat ha => ⟨haltCycles_end hat ha, haltCycles_end hat ha⟩⟩

end Sys2Proof.Machine
end

section
/-! PROOFS. The interrupt lines (60_exceptions.md R240 to R244): the requester set after a trigger and a clear, and the polls of
an edge line through an assertion, its release and the next. -/

namespace Sys2Proof.Machine

namespace InterruptLine

/-! ## The requester set -/

section
variable (l : InterruptLine) (capture : NmiEdgeCapture) (id : RequesterId)

theorem isTriggering_iff : l.isTriggering id = true ↔ id ∈ l.requesters := decide_eq_true_iff

theorem triggered_iff : l.triggered = true ↔ l.requesters ≠ [] := by simp [triggered]

theorem mem_trigger (j : RequesterId) : j ∈ (l.trigger capture id).2.requesters ↔ j = id ∨ j ∈ l.requesters :=
  mem_insertId id j l.requesters

theorem mem_clear (j : RequesterId) : j ∈ (l.clear id).2.requesters ↔ j ∈ l.requesters ∧ j ≠ id :=
  mem_removeId id j l.requesters

variable {l id}

/-- Somebody who requests holds the line. -/
theorem triggered_of_mem (h : id ∈ l.requesters) : l.triggered = true := (l.triggered_iff).mpr (List.ne_nil_of_mem h)

theorem clear_sole_requesters (h : l.requesters = [id]) : (l.clear id).2.requesters = [] := by
  refine List.eq_nil_iff_forall_not_mem.mpr fun j hj => ?_
  obtain ⟨mem, other⟩ := (l.mem_clear id j).mp hj
  exact other (List.mem_singleton.mp (h ▸ mem))

theorem trigger_triggered (l : InterruptLine) (capture : NmiEdgeCapture) (id : RequesterId) :
    (l.trigger capture id).2.triggered = true := triggered_of_mem ((l.mem_trigger capture id id).mpr (.inl rfl))

/-- A level line triggered and cleared by its only requester is the line as it was. -/
theorem clear_trigger_level (hlevel : l.edgeTriggered = false) (hfree : l.requesters = []) (capture : NmiEdgeCapture)
    (id : RequesterId) : ((l.trigger capture id).2.clear id).2 = l := by
  have sole : (l.trigger capture id).2.requesters = [id] := by rw [trigger, hfree, insertId]
  have none : ((l.trigger capture id).2.clear id).2.requesters = l.requesters := (clear_sole_requesters sole).trans hfree.symm
  have latch : ((l.trigger capture id).2.clear id).2.latchedSinceEdge = l.latchedSinceEdge := by simp [clear, trigger, hlevel]
  exact congrArg₂ (InterruptLine.mk l.edgeTriggered) none latch

end

/-! ## The states of an edge line with one requester -/

/-- An edge line that nobody requests. -/
def edgeFree (latched : Bool) : InterruptLine := ⟨true, [], latched⟩

/-- An edge line that `id` alone requests. -/
def edgeHeld (id : RequesterId) (latched : Bool) : InterruptLine := ⟨true, [id], latched⟩

section
variable (id : RequesterId) (latched : Bool)

theorem eq_edgeFree {l : InterruptLine} (he : l.edgeTriggered = true) (hr : l.requesters = []) :
    l = edgeFree l.latchedSinceEdge := by rw [edgeFree, ← he, ← hr]

/-- R241: under `on_trigger` the edge is captured as it comes. -/
theorem edgeFree_trigger (capture : NmiEdgeCapture) :
    ((edgeFree latched).trigger capture id).2 = edgeHeld id (decide (capture = .onTrigger) || latched) := rfl

/-- R242: what is captured stays captured. -/
theorem edgeHeld_clear : ((edgeHeld id latched).clear id).2 = edgeFree latched :=
  eq_edgeFree rfl (clear_sole_requesters rfl)

theorem edgeHeld_triggered : (edgeHeld id latched).triggered = true := rfl

/-! R244 under `on_trigger`: the answer is the captured edge, and the poll takes it. -/

theorem edgeHeld_poll_onTrigger : (edgeHeld id latched).shouldInterrupt .onTrigger = (latched, edgeHeld id false) := rfl

theorem edgeFree_poll_onTrigger : (edgeFree latched).shouldInterrupt .onTrigger = (latched, edgeFree false) := rfl

/-! R244 under `on_poll`: the answer is that the line is held and was not at the poll before. -/

theorem edgeHeld_poll_onPoll : (edgeHeld id latched).shouldInterrupt .onPoll = (!latched, edgeHeld id true) := by
  cases latched <;> rfl

theorem edgeFree_poll_onPoll : (edgeFree latched).shouldInterrupt .onPoll = (false, edgeFree false) := rfl

end

end InterruptLine

open InterruptLine

/-- Settles O12: both answers are read off the requester set. -/
theorem triggeredMeansRequested : Obligations.TriggeredMeansRequested := by
  refine fun l id => ⟨l.isTriggering_iff id, l.triggered_iff, fun hsole => ?_⟩
  rw [triggered, clear_sole_requesters hsole, List.isEmpty_nil, Bool.not_true]

/-- Settles O13: membership after each operation; a latch is set only where the line was not yet held. -/
theorem lineIsWiredOr : Obligations.LineIsWiredOr := by
  refine fun capture l id other => ⟨?absent, l.mem_trigger capture id, l.isTriggering_iff id, l.mem_clear id, rfl,
    fun hheld => ?noNewEdge, fun hne hother => triggered_of_mem (id := other) ?stays⟩
  case absent => rw [trigger, Bool.not_eq_true', ← Bool.not_eq_true, isTriggering_iff]
  case noNewEdge => simp [trigger, hheld]
  case stays => exact (mem_clear _ id other).mpr ⟨(l.mem_trigger capture id other).mpr (.inr hother), hne⟩

/-- Settles O14: the line goes free, held, polled, polled, free and held again; its latch tells the polls apart. -/
theorem edgeFiresOncePerAssertion : Obligations.EdgeFiresOncePerAssertion := by
  intro capture l id hedge hfree hlatch
  rw [eq_edgeFree hedge hfree]
  cases capture with
  | onTrigger =>
    simp [edgeFree_trigger, edgeHeld_poll_onTrigger, edgeHeld_triggered, edgeHeld_clear, edgeFree_poll_onTrigger]
  | onPoll =>
    simp [hlatch rfl, edgeFree_trigger, edgeHeld_poll_onPoll, edgeHeld_triggered, edgeHeld_clear, edgeFree_poll_onPoll]

end Sys2Proof.Machine
end

section
/-! PROOFS. The reserved opcodes (60_exceptions.md R258). -/

namespace Sys2Proof.Machine

/-- R258: at T1 after a fetch, or at T2 after a pipelined one, the fault names the opcode and its address. -/
theorem execReserved_entered {opcode : Byte} {s : State} (hs : s.stepReg = .executing 0 ∨ s.stepReg = .executing 1) :
    execReserved opcode s = .fault (.reservedOpcode opcode (s.pc - 1) s) := by
  rcases hs with hs | hs <;> simp [execReserved, hs]

/-- Settles O47: `exec` of a reserved opcode is `execReserved`. -/
theorem reservedOpcodeIsFatal : Obligations.ReservedOpcodeIsFatal :=
  fun _ _ => ⟨execReserved_entered, fun _ => execReserved_ne_next⟩

end Sys2Proof.Machine
end

section
/-! PROOFS. Entries over one RAM (60_exceptions.md R248 to R253, 45_stack_flags_system.md R231): NMI, IRQ, BRK and RST run to the
first fetch of the handler, by one relation between the machine and the state that was interrupted. -/

namespace Sys2Proof.Machine

/-! ## One RAM, whatever the parameters and the lines are -/

section
variable {mem : Memory} {st : State}

theorem readCycle_fullRam (hd : st.devices = [.fullRam mem]) (sync vec : Bool) (a : Word) :
    readCycle sync vec a st = .ok (mem.load a, OverRam.afterRead st a (mem.load a) sync vec) := by
  have hr := OverRam.inRange_full mem a
  simp only [Device.fullRam] at hr hd
  simp [readCycle, broadcast, hd, notifyAll, Device.onCycle, hr, driveBus, readResult, Lines.actAll, OverRam.afterRead,
    Memory.load]

theorem busWrite_fullRam (hd : st.devices = [.fullRam mem]) (a : Word) (v : Byte) :
    busWrite a v st = st.setBusSide ⟨a, v, false, false, false⟩ st.driven st.lines [.fullRam (mem.store a v)] := by
  have hr := OverRam.inRange_full mem a
  simp only [Device.fullRam] at hr hd
  simp [busWrite, broadcast, hd, notifyAll, Device.onCycle, hr, driveBus, Lines.actAll, Device.withBody, Memory.store,
    Device.fullRam]

/-- A discarded read, at its decided address or at a free one. -/
theorem answersDummy_fullRam (hd : st.devices = [.fullRam mem]) (decided : Word) :
    ∃ a i, AnswersDummy decided st (OverRam.afterRead (st.setFreeIdx i) a (mem.load a) false false) := by
  have hdraw : ∃ i, (dummyAddress decided st).2 = st.setFreeIdx i := by
    rcases dummyAddress_state decided st with h | h
    · exact ⟨st.freeIdx, h⟩
    · exact ⟨st.freeIdx + 1, h⟩
  obtain ⟨i, hi⟩ := hdraw
  refine ⟨(dummyAddress decided st).1, i, mem.load (dummyAddress decided st).1, ?_⟩
  rw [hi]
  exact readCycle_fullRam (st := st.setFreeIdx i) hd false false _

end

/-- Over the RAM `mem`, `st'` has what an entry looks at as in `st`: the registers and flags, `PC`, `IR`, the parameters, the
lines. -/
structure AgreesOver (mem : Memory) (st st' : State) : Prop extends SameRegisters st st' where
  pc : st'.pc = st.pc
  ir : st'.ir = st.ir
  cfg : st'.cfg = st.cfg
  lines : st'.lines = st.lines
  devices : st'.devices = [.fullRam mem]

namespace AgreesOver

variable {mem : Memory} {s t : State}

theorem refl (h : s.devices = [.fullRam mem]) : AgreesOver mem s s := ⟨⟨rfl, rfl, rfl, rfl, rfl⟩, rfl, rfl, rfl, rfl, h⟩

theorem setStep (h : AgreesOver mem s t) (v : StepReg) : AgreesOver mem s (t.setStep v) := { h with }
theorem setPC (h : AgreesOver mem s t) (v : Word) : AgreesOver mem (s.setPC v) (t.setPC v) := { h with pc := rfl }

theorem decS (h : AgreesOver mem s t) : AgreesOver mem (s.setS (s.s - 1)) t.decS := { h with s := congrArg (· - 1) h.s }

theorem entered (h : AgreesOver mem s t) : AgreesOver mem (s.setP s.p.entered) (t.setP t.p.entered) :=
  { h with p := congrArg Flags.entered h.p }

theorem read (h : AgreesOver mem s t) (a : Word) (v : Byte) (sync vec : Bool) :
    AgreesOver mem s (OverRam.afterRead t a v sync vec) := { h with }

/-- The byte pushed is in the RAM, and `S` is one lower. -/
theorem push (h : AgreesOver mem s t) (v : Byte) :
    AgreesOver (mem.store (cat 0x01 s.s) v) (s.setS (s.s - 1)) (push v t) := by
  rw [push_eq, State.stackAddress, h.s, busWrite_fullRam h.devices]
  exact { h with s := rfl, devices := rfl }

/-- A discarded read leaves all of it. -/
theorem discarded (h : AgreesOver mem s t) (decided : Word) :
    ∃ u, AnswersDummy decided t u ∧ AgreesOver mem s u ∧ u.stepReg = t.stepReg := by
  obtain ⟨a, i, ha⟩ := answersDummy_fullRam h.devices decided
  exact ⟨_, ha, { h with }, rfl⟩

end AgreesOver

/-! ## The template that an entry runs -/

/-- From cycle `first` on, a machine with the `IR`, the parameters and the lines of `s` runs `template`. -/
def RunsFrom (first : Nat) (s : State) (template : Nat → State → Result) : Prop :=
  ∀ k t, first ≤ k → AtT k t → t.ir = s.ir → t.cfg = s.cfg → t.lines = s.lines → step t = template k t

section
variable {s : State} {first : Nat} {template rest : Nat → State → Result} {vector : Word} {b : Bool}

/-- RST not asserted, the handler that `IR` selects goes on. -/
theorem runsFrom_of_runHandler (hr : pollRst s = false)
    (h : ∀ {k t}, AtT k t → t.ir = s.ir → runHandler t = template k t) : RunsFrom 2 s template := by
  intro k t _ hat hir hcfg hlines
  have hrt : pollRst t = false := by rwa [pollRst, hlines, hcfg]
  rw [step_executing hat.stepReg hrt, h hat hir]

/-- From a later cycle on a template may be another. -/
theorem RunsFrom.later {later : Nat} (h : RunsFrom first s template) (hle : first ≤ later)
    (heq : ∀ {k t}, later ≤ k → t.cfg = s.cfg → template k t = rest k t) : RunsFrom later s rest :=
  fun k t hk hat hir hcfg hlines => (h k t (hle.trans hk) hat hir hcfg hlines).trans (heq hk hcfg)

theorem AtT.pseudoHandler {k : Nat} {t : State} (hat : AtT k t) : pseudoHandler template t = template k t := by
  obtain ⟨hk, hs⟩ := hat
  rw [Machine.pseudoHandler, hs]
  simp only [Nat.sub_add_cancel (Nat.le_of_succ_le hk)]

theorem lineEntryCycle_from3 {k : Nat} {t : State} (hk : 3 ≤ k) : lineEntryCycle rest k t = rest k t := by
  obtain ⟨n, rfl⟩ := Nat.exists_eq_add_of_le' hk
  rfl

theorem entryCycle_from6 {k : Nat} {t : State} (hk : 6 ≤ k) : entryCycle vector b k t = vectorCycle vector k t := by
  obtain ⟨n, rfl⟩ := Nat.exists_eq_add_of_le' hk
  rfl

theorem rstReadCycle_from6 {k : Nat} {t : State} (hk : 6 ≤ k) : rstReadCycle k t = vectorCycle 0xFFFC k t := by
  obtain ⟨n, rfl⟩ := Nat.exists_eq_add_of_le' hk
  rfl

theorem brkCycles_from3 {k : Nat} {t : State} (hk : 3 ≤ k) : brkCycles k t = entryCycle 0xFFFE true k t := by
  obtain ⟨n, rfl⟩ := Nat.exists_eq_add_of_le' hk
  rfl

theorem rstCycle_read {k : Nat} {t : State} (h : t.cfg.rstStackAccess = .read) : rstCycle k t = rstReadCycle k t := by
  rw [rstCycle, h]

theorem rstCycle_write {k : Nat} {t : State} (h : t.cfg.rstStackAccess = .write) :
    rstCycle k t = entryCycle 0xFFFC false k t := by
  rw [rstCycle, h]

end

/-! ## The cycles of an entry -/

/-- The machine stands at Tk of an entry, in agreement with `s`. -/
structure EntryAt (mem : Memory) (s : State) (k : Nat) (t : State) : Prop where
  atT : AtT k t
  agrees : AgreesOver mem s t

/-- The entry is over: the next cycle is a fetch at the word that the vector holds, and `vector + 1` was read last. -/
structure AtVector (mem : Memory) (s : State) (vector : Word) (t : State) : Prop where
  stepReg : t.stepReg = .awaitFetch
  agrees : AgreesOver mem (s.setPC (cat (mem.load (vector + 1)) (mem.load vector))) t
  bus : t.bus = ⟨vector + 1, mem.load (vector + 1), true, false, true⟩

section
variable {mem : Memory} {s s' t w : State} {k n : Nat} {template rest : Nat → State → Result} {vector : Word} {b : Bool}
  {post : State → Prop}

/-- A cycle that is not the last, and the rest of the run. -/
theorem AtT.goesOn (hat : AtT k t) (hstep : step t = .next w.nextCycle) (hw : w.stepReg = t.stepReg)
    (h : AgreesOver mem s w) (hrest : ∀ t', EntryAt mem s (k + 1) t' → RunsTo n t' post) : RunsTo (n + 1) t post := by
  rw [State.nextCycle_at hat hw] at hstep
  exact .succ hstep (hrest _ ⟨⟨Nat.le_succ_of_le hat.1, rfl⟩, h.setStep _⟩)

/-- The line of the cycle. -/
theorem EntryAt.step_eq {first : Nat} (h : EntryAt mem s k t) (hrun : RunsFrom first s template) (hk : first ≤ k) :
    step t = template k t := hrun k t hk h.atT h.agrees.ir h.agrees.cfg h.agrees.lines

/-- A cycle that discards a read and goes on with what `f` writes. -/
theorem EntryAt.discards {f : State → State} (h : EntryAt mem s k t) {decided : Word}
    (hstep : step t = dummyRead decided t fun u => .next (f u).nextCycle) (hf : ∀ u, (f u).stepReg = u.stepReg)
    (hagrees : ∀ {u}, AgreesOver mem s u → AgreesOver mem s' (f u))
    (hrest : ∀ t', EntryAt mem s' (k + 1) t' → RunsTo n t' post) : RunsTo (n + 1) t post := by
  obtain ⟨u, ha, hu, hstepReg⟩ := h.agrees.discarded decided
  exact h.atT.goesOn (hstep.trans (ha.dummyRead _)) ((hf u).trans hstepReg) (hagrees hu) hrest

/-- T2 of an entry that no instruction begins. -/
theorem EntryAt.second (h : EntryAt mem s 2 t) (hrun : RunsFrom 2 s (lineEntryCycle rest))
    (hrest : ∀ t', EntryAt mem s 3 t' → RunsTo n t' post) : RunsTo (n + 1) t post :=
  h.discards (f := id) (h.step_eq hrun (Nat.le_refl 2)) (fun _ => rfl) id hrest

/-- R248, R252, R253: T3 to T5 push the frame and then write the flags. -/
theorem EntryAt.pushesFrame (h : EntryAt mem s 3 t) (hrun : RunsFrom 3 s (entryCycle vector b))
    (hrest : ∀ t', EntryAt (framed mem s.s s.pc (s.p.pByte b)) ((s.setS (s.s - 3)).setP s.p.entered) 6 t' →
      RunsTo n t' post) : RunsTo (n + 3) t post := by
  have two : s.s - 1 - 1 = s.s - 2 := by bv_omega
  have three : s.s - 2 - 1 = s.s - 3 := by bv_omega
  refine h.atT.goesOn (h.step_eq hrun (by decide)) rfl (h.agrees.push _) fun t4 h4 => ?_
  refine h4.atT.goesOn (h4.step_eq hrun (by decide)) rfl (h4.agrees.push _) fun t5 h5 => ?_
  refine h5.atT.goesOn (h5.step_eq hrun (by decide)) rfl (h5.agrees.push _).entered fun t6 h6 => hrest t6 ?_
  simp only [h.agrees.pc, h4.agrees.pc, h5.agrees.p, State.setS_s, State.setS_pc, State.setS_p, two, three] at h6
  exact h6

/-- R251: T3 to T5 of the RST sequence with reads count `S` down and then write the flags. -/
theorem EntryAt.readsStack (h : EntryAt mem s 3 t) (hrun : RunsFrom 3 s rstReadCycle)
    (hrest : ∀ t', EntryAt mem ((s.setS (s.s - 3)).setP s.p.entered) 6 t' → RunsTo n t' post) : RunsTo (n + 3) t post := by
  have two : s.s - 1 - 1 = s.s - 2 := by bv_omega
  have three : s.s - 2 - 1 = s.s - 3 := by bv_omega
  refine h.discards (h.step_eq hrun (by decide)) (fun _ => rfl) .decS fun t4 h4 => ?_
  refine h4.discards (h4.step_eq hrun (by decide)) (fun _ => rfl) .decS fun t5 h5 => ?_
  refine h5.discards (h5.step_eq hrun (by decide)) (fun _ => rfl) (fun hu => hu.decS.entered) fun t6 h6 => hrest t6 ?_
  simp only [State.setS_s, State.setS_p, two, three] at h6
  exact h6

/-- R248: T6 and T7 load `PC` from the vector. -/
theorem EntryAt.loadsVector (h : EntryAt mem s 6 t) (hrun : RunsFrom 6 s (vectorCycle vector))
    (hpost : ∀ t', AtVector mem s vector t' → post t') : RunsTo 2 t post := by
  have low : AnswersVec vector t _ _ := readCycle_fullRam h.agrees.devices false true vector
  refine h.atT.goesOn ((h.step_eq hrun (by decide)).trans (low.busVec _)) rfl ((h.agrees.read _ _ _ _).setPC _)
    fun t7 h7 => ?_
  have high : AnswersVec (vector + 1) t7 _ _ := readCycle_fullRam h7.agrees.devices false true (vector + 1)
  refine .succ ((h7.step_eq hrun (by decide)).trans (high.busVec _)) (.zero (hpost _ ⟨rfl, ?_, rfl⟩))
  have pcl : loByte t7.pc = mem.load vector := (congrArg loByte h7.agrees.pc).trans (loByte_cat ..)
  rw [← pcl]
  exact ((h7.agrees.read _ _ _ _).setPC _).setStep _

/-- An entry from T3 on. -/
theorem EntryAt.enters (h : EntryAt mem s 3 t) (hrun : RunsFrom 3 s (entryCycle vector b))
    (hpost : ∀ t', AtVector (framed mem s.s s.pc (s.p.pByte b)) ((s.setS (s.s - 3)).setP s.p.entered) vector t' → post t') :
    RunsTo 5 t post :=
  h.pushesFrame hrun fun _ h6 => h6.loadsVector (hrun.later (by decide) fun hk _ => entryCycle_from6 hk) hpost

/-- The RST sequence with reads from T3 on. -/
theorem EntryAt.resets (h : EntryAt mem s 3 t) (hrun : RunsFrom 3 s rstReadCycle)
    (hpost : ∀ t', AtVector mem ((s.setS (s.s - 3)).setP s.p.entered) 0xFFFC t' → post t') : RunsTo 5 t post :=
  h.readsStack hrun fun _ h6 => h6.loadsVector (hrun.later (by decide) fun hk _ => rstReadCycle_from6 hk) hpost

/-- T1 of an entry that no instruction begins, in the cycle that takes it. -/
theorem entryAt_of_first (hd : s.devices = [.fullRam mem]) (rest : Nat → State → Result) :
    ∃ t, pseudoHandler (lineEntryCycle rest) (s.setStep (.executing 0)) = .next t ∧ EntryAt mem s 2 t := by
  obtain ⟨u, ha, hu, hstepReg⟩ := ((AgreesOver.refl hd).setStep (.executing 0)).discarded s.pc
  refine ⟨u.setStep (.executing 1), ?_, ⟨⟨Nat.le_refl 2, rfl⟩, hu.setStep _⟩⟩
  rw [← State.nextCycle_eq u 0 hstepReg]
  exact ha.dummyRead _

end

/-! ## NMI, IRQ and BRK -/

section
variable {mem : Memory} {s t : State} {vector : Word}

/-- What an entry leaves, told of the state before it. -/
theorem AtVector.entered {base : State} {b : Bool} {ret : Word}
    (h : AtVector (framed mem base.s base.pc (base.p.pByte b)) ((base.setS (base.s - 3)).setP base.p.entered) vector t)
    (hsame : SameRegisters s base) (hpc : base.pc = ret) (hcfg : base.cfg = .default) (hwf : base.lines.wf) :
    Entered mem s ret b vector t := by
  obtain ⟨hstepReg, agrees, -⟩ := h
  have ram : OverRam _ t := ⟨agrees.devices, agrees.cfg.trans hcfg, agrees.lines ▸ hwf⟩
  rw [hsame.s, hsame.p, hpc] at ram agrees
  exact ⟨ram, hstepReg, agrees.s, agrees.p, agrees.pc, agrees.a.trans hsame.a, agrees.x.trans hsame.x,
    agrees.y.trans hsame.y⟩

theorem pollNmi_lines_wf (h : s.lines.wf) : (pollNmi s).2.lines.wf := by
  obtain ⟨nmi, irq, rst, edge, levels⟩ := h
  exact ⟨InterruptLine.shouldInterrupt_wf nmi _, irq, rst, (InterruptLine.shouldInterrupt_edge ..).trans edge, levels⟩

/-- R249, R250: a cycle that takes NMI or IRQ, and the six after it. -/
theorem runsTo_entered_of_lineEntry {op : IReg} (hram : OverRam mem s) (hr : pollRst s = false)
    (hstep : step s = pseudoHandler (lineEntryCycle (entryCycle vector false))
      (((pollNmi s).2.setIR op).setStep (.executing 0)))
    (hop : ∀ t, t.ir = op → runHandler t = pseudoHandler (lineEntryCycle (entryCycle vector false)) t) :
    RunsTo 7 s (Entered mem s s.pc false vector) := by
  obtain ⟨hd, hcfg, hwf⟩ := hram
  obtain ⟨t, first, h2⟩ := entryAt_of_first (s := (pollNmi s).2.setIR op) hd (entryCycle vector false)
  have hrun : RunsFrom 2 ((pollNmi s).2.setIR op) (lineEntryCycle (entryCycle vector false)) :=
    runsFrom_of_runHandler hr fun hat hir => (hop _ hir).trans hat.pseudoHandler
  refine .succ (hstep.trans first) (h2.second hrun fun t3 h3 => ?_)
  refine h3.enters (hrun.later (by decide) fun hk _ => lineEntryCycle_from3 hk) fun t' h => ?_
  exact h.entered ⟨rfl, rfl, rfl, rfl, rfl⟩ rfl hcfg (pollNmi_lines_wf hwf)

/-- R231: the fetch of a `BRK`, and the six cycles of its template. -/
theorem runsTo_entered_of_brk (hfetch : FetchesOver mem 0x00 s) : RunsTo 7 s (Entered mem s (s.pc + 2) true 0xFFFE) := by
  have sel : Selects 0x00 brkCycles := fun _ => rfl
  obtain ⟨t2, hstep, h2, pc2⟩ := step_fetchesOver hfetch (by decide)
  refine .succ hstep (h2.cycle sel ((h2.ram.answers _).busRead _) (.incPC (.refl _)) fun t3 h3 w3 => ?_)
  obtain ⟨hd, hcfg, hwf⟩ := h3.ram
  obtain ⟨hrst, -⟩ := h3.quiet
  have pc3 : t3.pc = s.pc + 2 := by simp [w3.pc, OverRam.afterRead, pc2, BitVec.add_assoc]
  have hrun : RunsFrom 2 t3 brkCycles := runsFrom_of_runHandler (pollRst_quiet hwf hrst) fun hat hir => by
    rw [runHandler_opcode (hir.trans h3.ir), sel, hat.handler]
  refine EntryAt.enters ⟨h3.atT, .refl hd⟩ (hrun.later (by decide) fun hk _ => brkCycles_from3 hk) fun t' h => ?_
  exact h.entered ⟨h3.a, h3.x, h3.y, h3.sp, h3.p⟩ pc3 hcfg hwf

end

/-- Settles O51: `BRK` by its fetch, NMI and IRQ by the dispatch that takes them. -/
theorem interruptEntryOverRam : Obligations.InterruptEntryOverRam := by
  refine ⟨fun mem s => runsTo_entered_of_brk, fun mem s hram hb hr => ?_⟩
  obtain ⟨-, takesNmi, takesIrq⟩ := dispatchPriority s
  refine ⟨fun hn => ?nmi, fun hn hi hmask => ?irq⟩
  case nmi =>
    exact runsTo_entered_of_lineEntry hram hr (takesNmi hr hb hn) fun t hir => by rw [runHandler, hir, nmiSequence]
  case irq =>
    exact runsTo_entered_of_lineEntry hram hr (takesIrq hr hb hn hi hmask) fun t hir => by
      rw [runHandler, hir, irqSequence]

/-! ## RST -/

/-- A run of cycles alone is a list of events. -/
theorem runEvents_cycles (n : Nat) (s : State) :
    runEvents (List.replicate n .cycle) s = Host.Core.run Sys2Proof.core n s := by
  induction n generalizing s with
  | zero => rfl
  | succ n ih =>
    have hcore : Sys2Proof.core.step s = step s := rfl
    simp only [List.replicate_succ, runEvents, Host.Core.run, hcore]
    cases step s with
    | next u => exact ih u
    | fault f => rfl
    | refused r => rfl

/-- What R251 says of a cycle with RST asserted: `RST` triggered, one cycle, `RST` cleared, then `n` cycles. -/
def rstPulse (id : RequesterId) (n : Nat) : List Event :=
  [.host (.line (.trigger .rst id)), .cycle, .host (.line (.clear .rst id))] ++ List.replicate n .cycle

section
variable {mem : Memory} {s t : State} {id : RequesterId}

theorem runEvents_rstPulse {n : Nat} {post : State → Prop}
    (hstep : step (s.hostAct (.line (.trigger .rst id))) = .next t)
    (hrun : RunsTo n (t.hostAct (.line (.clear .rst id))) post) :
    ∃ u, runEvents (rstPulse id n) s = .next u ∧ post u := by
  obtain ⟨u, hu, hpost⟩ := hrun
  refine ⟨u, ?_, hpost⟩
  simp only [rstPulse, List.cons_append, List.nil_append, runEvents, hstep]
  exact (runEvents_cycles n _).trans hu

theorem State.hostAct_line (s : State) (action : LineAction) :
    s.hostAct (.line action) = s.setLines (s.lines.act s.cfg.nmiEdgeCapture action) := rfl

theorem Lines.act_trigger_rst (ls : Lines) (capture : NmiEdgeCapture) (id : RequesterId) :
    ls.act capture (.trigger .rst id) = { ls with rst := (ls.rst.trigger capture id).2 } := rfl

theorem Lines.act_clear_rst (ls : Lines) (capture : NmiEdgeCapture) (id : RequesterId) :
    ls.act capture (.clear .rst id) = { ls with rst := (ls.rst.clear id).2 } := rfl

/-- T1 with the lines at `ls`, RST asserted; the lines may then be set to any. -/
theorem entryAt_of_asserted {ls : Lines} (hd : s.devices = [.fullRam mem]) (hr : pollRst (s.setLines ls) = true) :
    ∃ t, step (s.setLines ls) = .next t ∧ t.lines = ls
      ∧ ∀ ls', EntryAt mem ((s.setIR .rstOp).setLines ls') 2 (t.setLines ls') := by
  have devices : ((s.setLines ls).loseScratch.setIR .rstOp).devices = [.fullRam mem] := by simpa using hd
  obtain ⟨t, first, hat, agrees⟩ := entryAt_of_first devices rstCycle
  exact ⟨t, (step_rst hr).trans first, agrees.lines, fun ls' => ⟨hat, { agrees with lines := rfl }⟩⟩

/-- T1 in the cycle with RST asserted; after the release the machine stands at T2, the lines as before. -/
theorem entryAt_of_rstPulse (hd : s.devices = [.fullRam mem]) (hlevel : s.lines.rst.edgeTriggered = false)
    (hfree : s.lines.rst.requesters = []) :
    ∃ t, step (s.hostAct (.line (.trigger .rst id))) = .next t
      ∧ EntryAt mem (s.setIR .rstOp) 2 (t.hostAct (.line (.clear .rst id))) := by
  have asserted : pollRst (s.hostAct (.line (.trigger .rst id))) = true := by
    rw [pollRst, State.hostAct_line, State.setLines_lines, Lines.act_trigger_rst,
      InterruptLine.shouldInterrupt_level ((InterruptLine.trigger_edge ..).trans hlevel)]
    exact InterruptLine.trigger_triggered ..
  obtain ⟨t, first, lines, h2⟩ := entryAt_of_asserted hd asserted
  have released : t.lines.act t.cfg.nmiEdgeCapture (.clear .rst id) = s.lines := by
    rw [lines, Lines.act_trigger_rst, Lines.act_clear_rst, InterruptLine.clear_trigger_level hlevel hfree]
  refine ⟨t, first, ?_⟩
  rw [State.hostAct_line, released]
  exact h2 s.lines

/-- The RST sequence from T2 on, RST released. -/
theorem runsFrom_rst (hlevel : s.lines.rst.edgeTriggered = false) (hfree : s.lines.rst.requesters = []) :
    RunsFrom 2 (s.setIR .rstOp) (lineEntryCycle rstCycle) := by
  have free : s.lines.rst.triggered = false := by rw [InterruptLine.triggered, hfree]; rfl
  have hr : pollRst s = false := (congrArg Prod.fst (InterruptLine.shouldInterrupt_level hlevel _)).trans free
  refine runsFrom_of_runHandler hr fun hat hir => ?_
  rw [runHandler, hir]
  exact hat.pseudoHandler

/-- RST for one cycle and then released: the sequence from T3 on is what is left to run. -/
theorem runEvents_reset {post : State → Prop} (hd : s.devices = [.fullRam mem]) (hwf : s.lines.wf)
    (hfree : s.lines.rst.requesters = [])
    (hrest : ∀ t3, EntryAt mem (s.setIR .rstOp) 3 t3 → RunsFrom 3 (s.setIR .rstOp) rstCycle → RunsTo 5 t3 post) :
    ∃ u, runEvents (rstPulse id 6) s = .next u ∧ post u := by
  obtain ⟨-, -, -, -, -, hlevel⟩ := hwf
  have hrun := runsFrom_rst hlevel hfree
  obtain ⟨t, hstep, h2⟩ := entryAt_of_rstPulse hd hlevel hfree
  exact runEvents_rstPulse hstep (h2.second hrun fun t3 h3 =>
    hrest t3 h3 (hrun.later (by decide) fun hk _ => lineEntryCycle_from3 hk))

/-- R251 over any devices: from T3 on, with `RST_STACK_ACCESS = write`, the sequence is an ordinary entry. -/
theorem rstSequence_write {k : Nat} (hw : s.cfg.rstStackAccess = .write) (hat : AtT k s) (hk : 3 ≤ k) :
    rstSequence s = entryCycle 0xFFFC false k s := by
  rw [rstSequence, hat.pseudoHandler, lineEntryCycle_from3 hk, rstCycle_write hw]

theorem OnlyReads.sameRam (h : OnlyReads s t) : SameRam s t :=
  have ⟨_, ram, hd⟩ := h
  fun k a => (State.ramByte_of_devices hd k a).trans (ram k a)

/-- R251 over any devices: with `RST_STACK_ACCESS = read` every cycle of the sequence is a read. -/
theorem rstSequence_onlyReads (hread : s.cfg.rstStackAccess = .read) (h : rstSequence s = .next t) : OnlyReads s t := by
  obtain ⟨n, -, h⟩ := pseudoHandler_next h
  rcases lineEntryCycle_next h with ⟨-, u, e, rfl⟩ | ⟨-, -, h⟩
  · exact e.onlyReads (by simp)
  · rw [rstCycle_read hread] at h
    rcases rstReadCycle_next h with ⟨-, u, e, rfl⟩ | ⟨-, u, e, rfl⟩ | ⟨-, v, u, e, rfl⟩ | ⟨-, v, u, e, rfl⟩
    · exact e.onlyReads (by simp)
    · exact e.onlyReads (by simp)
    · exact e.onlyReads (by simp [State.setPCL])
    · exact e.onlyReads (by simp [State.setPCH])

theorem State.push_nextCycle {k : Nat} (hat : AtT k s) (v : Byte) :
    (push v s).nextCycle = ((busWrite (cat 0x01 s.s) v s).setS (s.s - 1)).setStep (.executing k) :=
  State.nextCycle_at (u := push v s) hat rfl

end

/-- Settles O52: one cycle with RST is T1, T2 follows, and T3 to T7 are an entry or its twin with reads. -/
theorem resetFromAnyState : Obligations.ResetFromAnyState := by
  refine ⟨fun s hw => ⟨fun hat => ?pushHigh, fun hat => ?pushLow, fun hat => ?pushStatus⟩,
    fun mem s id hd hcfg hwf hfree => ?write, fun s t hread h => (rstSequence_onlyReads hread h).sameRam,
    fun mem s id hram hfree => ?read⟩
  case pushHigh => rw [rstSequence_write hw hat (by decide), entryCycle, State.push_nextCycle hat]
  case pushLow => rw [rstSequence_write hw hat (by decide), entryCycle, State.push_nextCycle hat]
  case pushStatus => rw [rstSequence_write hw hat (by decide), entryCycle_status hat]
  case write =>
    have hw : s.cfg.rstStackAccess = .write := by rw [hcfg]
    refine runEvents_reset hd hwf hfree fun t3 h3 hrun => ?_
    have pushes : RunsFrom 3 (s.setIR .rstOp) (entryCycle 0xFFFC false) :=
      hrun.later (Nat.le_refl 3) fun _ hc => rstCycle_write ((congrArg Params.rstStackAccess hc).trans hw)
    refine h3.enters pushes fun t' entered => ?_
    obtain ⟨hstep, h, -⟩ := entered
    exact ⟨h.devices, hstep, h.ir, h.pc, h.s, h.p, h.a, h.x, h.y, h.lines⟩
  case read =>
    have ⟨hd, hcfg, hwf⟩ := hram
    have hr : s.cfg.rstStackAccess = .read := by rw [hcfg]; rfl
    refine runEvents_reset hd hwf hfree fun t3 h3 hrun => ?_
    have reads : RunsFrom 3 (s.setIR .rstOp) rstReadCycle :=
      hrun.later (Nat.le_refl 3) fun _ hc => rstCycle_read ((congrArg Params.rstStackAccess hc).trans hr)
    refine h3.resets reads fun t' reset => ?_
    obtain ⟨hstep, h, hbus⟩ := reset
    have ram : OverRam mem t' := hram.of_eq (h.devices.trans hd.symm) h.cfg h.lines
    exact ⟨ram, hstep, h.ir, h.pc, h.s, h.p, h.a, h.x, h.y, h.lines, congrArg BusSignals.address hbus,
      congrArg BusSignals.readWrite hbus, congrArg BusSignals.vectorPull hbus⟩

end Sys2Proof.Machine
end
